-- ==== Sys2Proof/Word.lean ====
section
/-! DEFINITION. The word of the core (spec/10_state.md R21, spec/00_scope.md R9). -/

namespace Sys2Proof

/-- One 64-bit word: a BigInt word, a command word, a control register, an RNG word. -/
abbrev Word := BitVec 64

/-- A BigInt register number, B0 to B15 (spec/10_state.md R20). -/
abbrev RegNum := Fin 16

end Sys2Proof
end

