-- ==== Sys2Proof/Syntax.lean ====
section
/-! DEFINITION. The 33 commands of spec/30_encoding.md R91, one constructor per row of
spec/opcode_table.json, operands in field order f0, f1, … (R95). -/

namespace Sys2Proof

inductive Instr where
  /-- SETLVL imm16 (R110). -/
  | setlvl (imm16 : BitVec 16)
  /-- LDI rd (R111). -/
  | ldi (rd : RegNum)
  /-- NORM rd (R112). -/
  | norm (rd : RegNum)
  /-- IMPORT rd (R113). -/
  | importTop (rd : RegNum)
  /-- RSTBUF rd, rs (R114). -/
  | rstbuf (rd rs : RegNum)
  /-- SETPAD rs (R115). -/
  | setpad (rs : RegNum)
  /-- ADD rd, ra, rb (R131). -/
  | add (rd ra rb : RegNum)
  /-- NEG rd, ra (R132). -/
  | neg (rd ra : RegNum)
  /-- SUB rd, ra, rb (R133). -/
  | sub (rd ra rb : RegNum)
  /-- MUL rd, ra, rb (R134). -/
  | mul (rd ra rb : RegNum)
  /-- SHL1 rd, ra (R135). -/
  | shl1 (rd ra : RegNum)
  /-- SHR1 rd, ra (R136). -/
  | shr1 (rd ra : RegNum)
  /-- SHL rd, ra, n (R137). -/
  | shl (rd ra : RegNum) (n : BitVec 16)
  /-- SHR rd, ra, n (R138). -/
  | shr (rd ra : RegNum) (n : BitVec 16)
  /-- DIV rq, rr, ra, rb (R139). -/
  | div (rq rr ra rb : RegNum)
  /-- CMP ra, rb (R140). -/
  | cmp (ra rb : RegNum)
  /-- ISODD ra (R141). -/
  | isodd (ra : RegNum)
  /-- ABS rd, ra (R142). -/
  | abs (rd ra : RegNum)
  /-- ISNEG ra (R143). -/
  | isneg (ra : RegNum)
  /-- MONFAC rd, rn (R161). -/
  | monfac (rd rn : RegNum)
  /-- MONPRO rd, ra, rb, rn (R162). -/
  | monpro (rd ra rb rn : RegNum)
  /-- MONMUL rd, ra, rb, rn (R163). -/
  | monmul (rd ra rb rn : RegNum)
  /-- MONEXP rd, rbase, rexp, rn (R164). -/
  | monexp (rd rbase rexp rn : RegNum)
  /-- MRWIT ra, rn (R181). -/
  | mrwit (ra rn : RegNum)
  /-- ISPRIME rn (R182). -/
  | isprime (rn : RegNum)
  /-- EGCD rg, rx, ry, ra, rb (R191). -/
  | egcd (rg rx ry ra rb : RegNum)
  /-- MODINV rd, rv, rm (R192). -/
  | modinv (rd rv rm : RegNum)
  /-- RNDCOP rd, rl (R194). -/
  | rndcop (rd rl : RegNum)
  /-- GENCAND rc, ri (R196). -/
  | gencand (rc ri : RegNum)
  /-- FINDPR rd (R199). -/
  | findpr (rd : RegNum)
  /-- GENKEY rn, re, rd (R211). -/
  | genkey (rn re rd : RegNum)
  /-- ENCODE rd, rdata, rexp, rn (R213). -/
  | encode (rd rdata rexp rn : RegNum)
  /-- DECODE rd, rc, rexp, rn (R214). -/
  | decode (rd rc rexp rn : RegNum)
  deriving DecidableEq, Repr

end Sys2Proof
end

