-- ==== Sys2Proof/WellFormed.lean ====
section
/-! DEFINITION. Operand roles (spec/30_encoding.md R91) and the one well-formedness check on a command's
operands that its field widths do not already make: destinations pairwise different (R97). -/

namespace Sys2Proof

/-- The "dst" fields of a command in field order (R91); the raw operand of NORM and IMPORT is one. -/
def Instr.dests : Instr → List RegNum
  | .setlvl _ => []
  | .ldi rd => [rd]
  | .norm rd => [rd]
  | .importTop rd => [rd]
  | .rstbuf rd _ => [rd]
  | .setpad _ => []
  | .add rd _ _ => [rd]
  | .neg rd _ => [rd]
  | .sub rd _ _ => [rd]
  | .mul rd _ _ => [rd]
  | .shl1 rd _ => [rd]
  | .shr1 rd _ => [rd]
  | .shl rd _ _ => [rd]
  | .shr rd _ _ => [rd]
  | .div rq rr _ _ => [rq, rr]
  | .cmp _ _ => []
  | .isodd _ => []
  | .abs rd _ => [rd]
  | .isneg _ => []
  | .monfac rd _ => [rd]
  | .monpro rd _ _ _ => [rd]
  | .monmul rd _ _ _ => [rd]
  | .monexp rd _ _ _ => [rd]
  | .mrwit _ _ => []
  | .isprime _ => []
  | .egcd rg rx ry _ _ => [rg, rx, ry]
  | .modinv rd _ _ => [rd]
  | .rndcop rd _ => [rd]
  | .gencand rc ri => [rc, ri]
  | .findpr rd => [rd]
  | .genkey rn re rd => [rn, re, rd]
  | .encode rd _ _ _ => [rd]
  | .decode rd _ _ _ => [rd]

/-- The "src" fields of a command in field order (R91). The raw operand of NORM and IMPORT is no source
in this sense (R94). -/
def Instr.srcs : Instr → List RegNum
  | .setlvl _ => []
  | .ldi _ => []
  | .norm _ => []
  | .importTop _ => []
  | .rstbuf _ rs => [rs]
  | .setpad rs => [rs]
  | .add _ ra rb => [ra, rb]
  | .neg _ ra => [ra]
  | .sub _ ra rb => [ra, rb]
  | .mul _ ra rb => [ra, rb]
  | .shl1 _ ra => [ra]
  | .shr1 _ ra => [ra]
  | .shl _ ra _ => [ra]
  | .shr _ ra _ => [ra]
  | .div _ _ ra rb => [ra, rb]
  | .cmp ra rb => [ra, rb]
  | .isodd ra => [ra]
  | .abs _ ra => [ra]
  | .isneg ra => [ra]
  | .monfac _ rn => [rn]
  | .monpro _ ra rb rn => [ra, rb, rn]
  | .monmul _ ra rb rn => [ra, rb, rn]
  | .monexp _ rbase rexp rn => [rbase, rexp, rn]
  | .mrwit ra rn => [ra, rn]
  | .isprime rn => [rn]
  | .egcd _ _ _ ra rb => [ra, rb]
  | .modinv _ rv rm => [rv, rm]
  | .rndcop _ rl => [rl]
  | .gencand _ _ => []
  | .findpr _ => []
  | .genkey _ _ _ => []
  | .encode _ rdata rexp rn => [rdata, rexp, rn]
  | .decode _ rc rexp rn => [rc, rexp, rn]

/-- A command is well formed when its destinations are pairwise different (R97). Every register number,
every imm16 and every aliasing of a destination with sources is legal (R96, R97). -/
abbrev Instr.WellFormed (i : Instr) : Prop := i.dests.Nodup

end Sys2Proof
end

