-- ==== Sys2Proof/Decode.lean ====
section
/-! DEFINITION. Decoding a command word (spec/30_encoding.md R90, R91, R95, R96) and, after it, the
encoder. Decoding is total: every word gives a command or a named reason why it is none. -/

namespace Sys2Proof

/-- Why a word is no command of the table (R96). Each completes with E_ILLEGAL (R94 check 1). -/
inductive DecodeError where
  /-- Bits 63:32 are not all zero. -/
  | upperHalf
  /-- The opcode is not one of the 33 of R91. -/
  | unknownOpcode
  /-- A field the command does not use, or `z`, is nonzero. -/
  | reservedField
  deriving DecidableEq, Repr

/-- `w[lo+width−1 : lo]` as a number (spec/00_scope.md R9). -/
def bitField (w : Word) (lo width : Nat) : Nat := w.toNat / 2 ^ lo % 2 ^ width

/-- The 4-bit register field at bit `lo` (R90, R95). -/
def regField (w : Word) (lo : Nat) : RegNum := ⟨bitField w lo 4, Nat.mod_lt _ (by decide)⟩

/-- `imm16` (R90, R95). -/
def immField (w : Word) : BitVec 16 := BitVec.ofNat 16 (bitField w 0 16)

/-- Accept `i` when the `width` low bits of the word, the fields the command does not use, are zero. -/
def withZeros (w : Word) (width : Nat) (i : Instr) : Except DecodeError Instr :=
  if bitField w 0 width = 0 then .ok i else .error .reservedField

/-- Decode a command word by the opcode map of R91. A word of the table with two destination fields
naming one register is decoded here and ends with E_ILLEGAL in its meaning (log 6). -/
def decode (w : Word) : Except DecodeError Instr :=
  let f0 := regField w 20
  let f1 := regField w 16
  let f2 := regField w 12
  let f3 := regField w 8
  let f4 := regField w 4
  if bitField w 32 32 ≠ 0 then .error .upperHalf
  else match bitField w 24 8 with
    | 0x01 => if bitField w 16 8 = 0 then .ok (.setlvl (immField w)) else .error .reservedField
    | 0x02 => withZeros w 20 (.ldi f0)
    | 0x03 => withZeros w 20 (.norm f0)
    | 0x04 => withZeros w 20 (.importTop f0)
    | 0x05 => withZeros w 16 (.rstbuf f0 f1)
    | 0x06 => withZeros w 20 (.setpad f0)
    | 0x10 => withZeros w 12 (.add f0 f1 f2)
    | 0x11 => withZeros w 16 (.neg f0 f1)
    | 0x12 => withZeros w 12 (.sub f0 f1 f2)
    | 0x13 => withZeros w 12 (.mul f0 f1 f2)
    | 0x14 => withZeros w 16 (.shl1 f0 f1)
    | 0x15 => withZeros w 16 (.shr1 f0 f1)
    | 0x16 => .ok (.shl f0 f1 (immField w))
    | 0x17 => .ok (.shr f0 f1 (immField w))
    | 0x18 => withZeros w 8 (.div f0 f1 f2 f3)
    | 0x19 => withZeros w 16 (.cmp f0 f1)
    | 0x1A => withZeros w 20 (.isodd f0)
    | 0x1B => withZeros w 16 (.abs f0 f1)
    | 0x1C => withZeros w 20 (.isneg f0)
    | 0x20 => withZeros w 16 (.monfac f0 f1)
    | 0x21 => withZeros w 8 (.monpro f0 f1 f2 f3)
    | 0x22 => withZeros w 8 (.monmul f0 f1 f2 f3)
    | 0x23 => withZeros w 8 (.monexp f0 f1 f2 f3)
    | 0x30 => withZeros w 16 (.mrwit f0 f1)
    | 0x31 => withZeros w 20 (.isprime f0)
    | 0x40 => withZeros w 4 (.egcd f0 f1 f2 f3 f4)
    | 0x41 => withZeros w 12 (.modinv f0 f1 f2)
    | 0x42 => withZeros w 16 (.rndcop f0 f1)
    | 0x43 => withZeros w 16 (.gencand f0 f1)
    | 0x44 => withZeros w 20 (.findpr f0)
    | 0x50 => withZeros w 12 (.genkey f0 f1 f2)
    | 0x51 => withZeros w 8 (.encode f0 f1 f2 f3)
    | 0x52 => withZeros w 8 (.decode f0 f1 f2 f3)
    | _ => .error .unknownOpcode

/-- The decoder on a word numbered as spec/opcode_table.json numbers it: one 64-bit word, bit 0 its least
significant bit (R90). A number that does not fit 64 bits is no command word. -/
def decodeTableWord (_nbits w : Nat) : Option Instr :=
  if w < 2 ^ 64 then (decode (BitVec.ofNat 64 w)).toOption else none

/-- A format R word: op[31:24], f0[23:20], f1[19:16], f2[15:12], f3[11:8], f4[7:4], z[3:0] = 0 (R90). -/
def wordR (op : Nat) (f0 f1 f2 f3 f4 : RegNum) : Word :=
  BitVec.ofNat 64
    (op * 2 ^ 24 + f0.val * 2 ^ 20 + f1.val * 2 ^ 16 + f2.val * 2 ^ 12 + f3.val * 2 ^ 8 + f4.val * 2 ^ 4)

/-- A format I word: op[31:24], f0[23:20], f1[19:16], imm16[15:0] (R90). -/
def wordI (op : Nat) (f0 f1 : RegNum) (imm16 : BitVec 16) : Word :=
  BitVec.ofNat 64 (op * 2 ^ 24 + f0.val * 2 ^ 20 + f1.val * 2 ^ 16 + imm16.toNat)

/-- The command word of a command (R91, R95). -/
def encode : Instr → Word
  | .setlvl imm16 => wordI 0x01 0 0 imm16
  | .ldi rd => wordR 0x02 rd 0 0 0 0
  | .norm rd => wordR 0x03 rd 0 0 0 0
  | .importTop rd => wordR 0x04 rd 0 0 0 0
  | .rstbuf rd rs => wordR 0x05 rd rs 0 0 0
  | .setpad rs => wordR 0x06 rs 0 0 0 0
  | .add rd ra rb => wordR 0x10 rd ra rb 0 0
  | .neg rd ra => wordR 0x11 rd ra 0 0 0
  | .sub rd ra rb => wordR 0x12 rd ra rb 0 0
  | .mul rd ra rb => wordR 0x13 rd ra rb 0 0
  | .shl1 rd ra => wordR 0x14 rd ra 0 0 0
  | .shr1 rd ra => wordR 0x15 rd ra 0 0 0
  | .shl rd ra n => wordI 0x16 rd ra n
  | .shr rd ra n => wordI 0x17 rd ra n
  | .div rq rr ra rb => wordR 0x18 rq rr ra rb 0
  | .cmp ra rb => wordR 0x19 ra rb 0 0 0
  | .isodd ra => wordR 0x1A ra 0 0 0 0
  | .abs rd ra => wordR 0x1B rd ra 0 0 0
  | .isneg ra => wordR 0x1C ra 0 0 0 0
  | .monfac rd rn => wordR 0x20 rd rn 0 0 0
  | .monpro rd ra rb rn => wordR 0x21 rd ra rb rn 0
  | .monmul rd ra rb rn => wordR 0x22 rd ra rb rn 0
  | .monexp rd rbase rexp rn => wordR 0x23 rd rbase rexp rn 0
  | .mrwit ra rn => wordR 0x30 ra rn 0 0 0
  | .isprime rn => wordR 0x31 rn 0 0 0 0
  | .egcd rg rx ry ra rb => wordR 0x40 rg rx ry ra rb
  | .modinv rd rv rm => wordR 0x41 rd rv rm 0 0
  | .rndcop rd rl => wordR 0x42 rd rl 0 0 0
  | .gencand rc ri => wordR 0x43 rc ri 0 0 0
  | .findpr rd => wordR 0x44 rd 0 0 0 0
  | .genkey rn re rd => wordR 0x50 rn re rd 0 0
  | .encode rd rdata rexp rn => wordR 0x51 rd rdata rexp rn 0
  | .decode rd rc rexp rn => wordR 0x52 rd rc rexp rn 0

end Sys2Proof
end

