-- ==== Sys2Proof/Config.lean ====
section
/-! DEFINITION. The implementation parameters of spec/00_scope.md R6, the constant tables of
spec/44_number_theory.md R197, and the one free value: the words of the RNG source. -/

namespace Sys2Proof

/-- The four legal encryption levels `LEVELS` (spec/00_scope.md R6, R7). -/
inductive Level where
  | l128
  | l256
  | l512
  | l1024
  deriving DecidableEq, Repr

/-- `L`, the level in bits. -/
def Level.bits : Level → Nat
  | .l128 => 128
  | .l256 => 256
  | .l512 => 512
  | .l1024 => 1024

/-- `W = L / 64`, the number of value words; also the index of the buffer word. -/
def Level.words (L : Level) : Nat := L.bits / 64

/-- `2^L`: a value below it is settled (its buffer word is zero). -/
def Level.settled (L : Level) : Nat := 2 ^ L.bits

/-- `V = 2^(L+64) = 2^(64·(W+1))`, the modulus of all raw arithmetic, written as the buffer word's range
times the settled range. -/
def Level.modulus (L : Level) : Nat := 2 ^ 64 * L.settled

namespace Config

/-- `GUARD`, the guard iterations of the Montgomery unit. -/
def guardBits : Nat := 2

/-- `R = 2^(L+GUARD)`, the Montgomery radix. -/
def radix (L : Level) : Nat := 2 ^ (L.bits + guardBits)

/-- `KFAC = 2·(L+2)`, the exponent of the Montgomery factor. -/
def kfac (L : Level) : Nat := 2 * (L.bits + guardBits)

/-- `MR_ROUNDS`, the Miller-Rabin rounds of ISPRIME. -/
def mrRounds : Nat := 10

/-- `SMALL_PRIMES`, the first 13 primes. -/
def smallPrimes : List Nat := [2, 3, 5, 7, 11, 13, 17, 19, 23, 29, 31, 37, 41]

/-- `INC`, the product of `SMALL_PRIMES`. -/
def inc : Nat := smallPrimes.prod

/-- `CAND_EXP[L]`, the exponents of the candidate generator (the table of spec/44_number_theory.md R197). -/
def candExp : Level → List Nat
  | .l128 => [3, 2, 2, 2, 2, 2, 1, 1, 1, 1, 1, 1, 1]
  | .l256 => [5, 4, 3, 3, 3, 3, 3, 3, 3, 2, 2, 2, 2]
  | .l512 => [6, 6, 6, 6, 6, 6, 5, 5, 5, 5, 5, 5, 5]
  | .l1024 => [12, 12, 11, 11, 11, 11, 11, 11, 11, 10, 10, 10, 10]

/-- `PI[L]`, the product of `SMALL_PRIMES[j]^CAND_EXP[L][j]`. -/
def pi (L : Level) : Nat := (List.zipWith (· ^ ·) smallPrimes (candExp L)).prod

/-- `INF[L] = (2^L − 1)/(2^64 − 1)`, the infimum of an RSA modulus. -/
def infimum (L : Level) : Nat := (2 ^ L.bits - 1) / (2 ^ 64 - 1)

/-- `ESC_MARKER`, the buffer word of an escaped ciphertext. -/
def escMarker : Nat := 2 ^ 64 - 1

/-- FREE VALUE (log 4). `rho`, the stream of the RNG source (spec/10_state.md R41): `rho epoch i` is the
word the source delivers for pull number `i` after reset number `epoch`. Nothing constrains it. -/
opaque rho : Nat → Nat → Word

end Config

end Sys2Proof
end

