-- ==== Sys2Proof/Machine/State.lean ====
section
/-! DEFINITION. The state of the core as plain data (spec/10_state.md), what the outside world presents to
it, the reasons a step can stop, and the state after reset (R46). -/

namespace Sys2Proof.Machine

/-- One BigInt register: 17 words, word 0 least significant, the top index, the valid tag (R21). -/
structure BigReg where
  w : Vector Word 17
  top : Word
  valid : Bool
  deriving DecidableEq, Repr

/-- A register after reset: words and top 0, not valid (R46). -/
def BigReg.cleared : BigReg := { w := Vector.replicate 17 0, top := 0, valid := false }

/-- The error codes 1 to 9 of STATUS.ERRCODE (spec/60_exceptions.md R231). -/
inductive Err where
  /-- E_ILLEGAL (1). -/
  | illegal
  /-- E_CONFIG (2). -/
  | config
  /-- E_UNINIT (3). -/
  | uninit
  /-- E_DIVZERO (4). -/
  | divzero
  /-- E_PRECOND (5). -/
  | precond
  /-- E_NOINV (6). -/
  | noinv
  /-- E_CAPACITY (7). -/
  | capacity
  /-- E_FORMAT (8). -/
  | format
  /-- E_ABORT (9). -/
  | abort
  deriving DecidableEq, Repr

/-- What the outside world presents to the core, one at a time (R8, R70; log 1). -/
inductive Input where
  /-- `MemRead(off, 8)`: a host read of the word at byte offset `off` (spec/20_memory.md R62). -/
  | read (off : Nat)
  /-- `MemWrite(off, 8, v)`: a host write of the word `v` at byte offset `off` (R63). -/
  | write (off : Nat) (v : Word)
  /-- The sequencer takes its step now, going past at most `passes` cancellation points (log 5). -/
  | run (passes : Nat)
  /-- The reset input is asserted and released (spec/70_reset_and_hazards.md R260). From here on the RNG
  source delivers `words`, and then nothing more (`stops`) or the free stream (log 4, log 8). -/
  | rst (words : List Word) (stops : Bool)
  deriving DecidableEq, Repr

/-- Why the machine stops. Only an access the port cannot express stops it; no command does. -/
inductive Fault where
  /-- Raised by a host access whose byte offset is no multiple of 8. Safe (log 7): such an access "cannot
  reach the core" (spec/20_memory.md R66); the bridge's bus error is outside the core. -/
  | misalignedAccess
  /-- Raised by a host access outside byte offsets 0 to 0x1FF8. Safe (log 7): the register space is 8 KiB
  and the port's word index has 10 bits (spec/20_memory.md R60). -/
  | outsideRegisterSpace
  deriving DecidableEq, Repr

/-- Refusals. No meaning of this model raises one. -/
inductive Refusal where
  /-- Kept for an arm of `exec` that has no meaning yet; none is left. Safe. -/
  | notModelled (mnemonic : String)
  deriving DecidableEq, Repr

/-- The machine's state. -/
structure State where
  /-- B0 to B15 (R20). -/
  b : Vector BigReg 16
  /-- BUSY, STATUS bit 0 (R29, R32). -/
  busy : Bool
  /-- CMDREG, the accepted command word (R29). -/
  cmdreg : Word
  /-- ABORT0, the value CTRL.ABORT had at the accept (R29). -/
  abort0 : Bool
  /-- DONE, STATUS bit 1 (R32). -/
  done : Bool
  /-- OVF, STATUS bit 3 (R30). -/
  ovf : Bool
  /-- HAZ, STATUS bit 4 (R31). -/
  haz : Bool
  /-- ERRCODE, STATUS bits 15:8; `none` is code 0 (R32, spec/60_exceptions.md R231). -/
  err : Option Err
  /-- IE, CTRL bit 0 (R33). -/
  ie : Bool
  /-- ABORT, CTRL bit 1 (R33). -/
  abort : Bool
  /-- LEVEL; `none` is 0, unset (R34). -/
  level : Option Level
  /-- ARG (R35). -/
  arg : Word
  /-- RES (R36). -/
  res : Word
  /-- RNGCNT_total, the unbounded count of pulls since reset; RNGCNT is its low 64 bits (R37, R41). -/
  rngTotal : Nat
  /-- XPAD and XPAD_VALID (R39). -/
  xpad : BitVec 1024
  xpadValid : Bool
  /-- The Montgomery context: MC_VALID, MC_N, MC_F (R43). -/
  mcValid : Bool
  mcN : BitVec 1024
  mcF : BitVec 1024
  /-- The model's own: the port's read-data output after the last host read (log 3). -/
  rdata : Word
  /-- The model's own: what the outside world presents next, first element first (log 1). -/
  inputs : List Input
  /-- The model's own: how many cancellation points the sequencer's next step goes past (log 5). -/
  passes : Nat
  /-- The model's own: the known first words of the RNG source since the reset (log 4). -/
  rngWords : List Word
  /-- The model's own: the source delivers nothing after `rngWords` (log 4). -/
  rngStops : Bool
  /-- The model's own: the number of resets so far; selects the free stream (log 4). -/
  epoch : Nat
  deriving DecidableEq, Repr

/-- The machine right after reset (R46). CMDREG, ABORT0, XPAD, MC_N and MC_F are unspecified there and
unobservable (R261): DESIGN CHOICE 0 (log 2). The model's own fields: logs 1, 3, 4, 5. -/
def State.reset : State where
  b := Vector.replicate 16 BigReg.cleared
  busy := false
  cmdreg := 0
  abort0 := false
  done := false
  ovf := false
  haz := false
  err := none
  ie := false
  abort := false
  level := none
  arg := 0
  res := 0
  rngTotal := 0
  xpad := 0
  xpadValid := false
  mcValid := false
  mcN := 0
  mcF := 0
  rdata := 0
  inputs := []
  passes := 0
  rngWords := []
  rngStops := false
  epoch := 0

end Sys2Proof.Machine
end

