-- ==== Sys2Proof/Machine/Ops.lean ====
section
/-! DEFINITION. The named operations over the registers, the accept of a command (spec/30_encoding.md R92),
its completion (R93), and ending with an error (spec/60_exceptions.md R232): the core's one exception. -/

namespace Sys2Proof.Machine

/-- The number whose words, least significant first, are `ws` (spec/00_scope.md R9). -/
def wordsValue : List Word → Nat
  | [] => 0
  | w :: ws => w.toNat + 2 ^ 64 * wordsValue ws

/-- The index of the highest nonzero word, or 0 if all are zero (spec/10_state.md R22). -/
def topIndex : List Word → Nat
  | [] => 0
  | _ :: ws => if ws.all (· == 0) then 0 else topIndex ws + 1

/-- `val`: the value of the `W+1` significant words (R10, R22). -/
def BigReg.val (x : BigReg) (L : Level) : Nat := wordsValue (x.w.toList.take (L.words + 1))

/-- The register that holds `v` under level `L`: what `B[rd] <- v` writes (R24). -/
def BigReg.ofNat (L : Level) (v : Nat) : BigReg :=
  let w : Vector Word 17 :=
    Vector.ofFn fun i => if i.val ≤ L.words then BitVec.ofNat 64 (v / 2 ^ (64 * i.val)) else 0
  { w := w, top := BitVec.ofNat 64 (topIndex w.toList), valid := true }

/-- Read register `r`. -/
def State.reg (s : State) (r : RegNum) : BigReg := s.b.get r

/-- Replace register `r`. -/
def State.setReg (s : State) (r : RegNum) (x : BigReg) : State := { s with b := s.b.set r.val x r.isLt }

/-- `B[r] <- v` (R24). -/
def State.writeReg (s : State) (L : Level) (r : RegNum) (v : Nat) : State := s.setReg r (BigReg.ofNat L v)

/-- Clear every `valid` tag; words and top keep their raw contents (spec/40_config_data.md R110). -/
def State.invalidateAll (s : State) : State :=
  { s with b := Vector.ofFn fun r => { s.b.get r with valid := false } }

/-- `RES <- v` (spec/10_state.md R36). -/
def State.setRes (s : State) (v : Nat) : State := { s with res := BitVec.ofNat 64 v }

/-- RNGCNT stands at `pos` pulled words (R37, R41). -/
def State.setPulls (s : State) (pos : Nat) : State := { s with rngTotal := pos }

/-- The accept step (spec/30_encoding.md R92). No decoding is done here. -/
def State.accept (s : State) (c : Word) : State :=
  { s with cmdreg := c, abort0 := s.abort, busy := true, done := false, err := none }

/-- The last writes of a completion step without an error (R93). ERRCODE was cleared by the accept. -/
def State.complete (s : State) : State := { s with abort := false, busy := false, done := true }

/-- `raise E` (spec/60_exceptions.md R232): the command ends with exactly these writes. -/
def State.raise (s : State) (e : Err) : State :=
  { s with err := some e, abort := false, busy := false, done := true }

/-- The completion step is not enabled yet (spec/60_exceptions.md R240): BUSY stays 1 and nothing of the
spec's state changes; the next attempt goes past one more cancellation point (log 5). -/
def State.stillBusy (s : State) : State := { s with passes := s.passes + 1 }

/-- The completion step of a command that pulls no RNG word, from the outcome of its checks and effect (R93). -/
def finish (s : State) (outcome : Except Err State) : Host.Outcome State Fault Refusal :=
  match outcome with
  | .ok t => .next t.complete
  | .error e => .next (s.raise e)

/-- The completion step of a word that is no command (spec/30_encoding.md R96). -/
def illegalCommand (s : State) : Host.Outcome State Fault Refusal := .next (s.raise .illegal)

/-- The command in CMDREG (R93). -/
def State.command (s : State) : Except DecodeError Instr := Sys2Proof.decode s.cmdreg

end Sys2Proof.Machine
end

