-- ==== Sys2Proof/Machine/Flags.lean ====
section
/-! DEFINITION. OVF, STATUS, CTRL and the interrupt output (spec/10_state.md R30 to R33,
spec/60_exceptions.md R231, R235). -/

namespace Sys2Proof.Machine

/-- Write OVF: 1 if the exact result does not fit `V` (R30). -/
def State.noteOverflow (s : State) (L : Level) (exact : Nat) : State :=
  { s with ovf := decide (L.modulus ≤ exact) }

/-- The number of an error code (spec/60_exceptions.md R231). -/
def Err.code : Err → Nat
  | .illegal => 1
  | .config => 2
  | .uninit => 3
  | .divzero => 4
  | .precond => 5
  | .noinv => 6
  | .capacity => 7
  | .format => 8
  | .abort => 9

/-- ERRCODE, bits 15:8 of STATUS. -/
def State.errcode (s : State) : Nat :=
  match s.err with
  | none => 0
  | some e => e.code

/-- The STATUS word (R32). -/
def State.status (s : State) : Word :=
  BitVec.ofNat 64 (s.busy.toNat + 2 * s.done.toNat + 4 * s.err.isSome.toNat + 8 * s.ovf.toNat
    + 16 * s.haz.toNat + 256 * s.errcode)

/-- A host write to STATUS: write-1-to-clear of DONE and HAZ, nothing else (R32, R63). -/
def State.writeStatus (s : State) (v : Word) : State :=
  { s with done := s.done && !v.getLsbD 1, haz := s.haz && !v.getLsbD 4 }

/-- The CTRL word (R33). -/
def State.ctrl (s : State) : Word := BitVec.ofNat 64 (s.ie.toNat + 2 * s.abort.toNat)

/-- A host write to CTRL: IE stored; ABORT stored while idle, set-only while busy (R33, R63). -/
def State.writeCtrl (s : State) (v : Word) : State :=
  { s with ie := v.getLsbD 0, abort := (s.busy && s.abort) || v.getLsbD 1 }

/-- The LEVEL register (R34). -/
def State.levelWord (s : State) : Word :=
  match s.level with
  | none => 0
  | some L => BitVec.ofNat 64 L.bits

/-- The interrupt output (spec/60_exceptions.md R235). -/
def State.irq (s : State) : Bool := s.done && s.ie

end Sys2Proof.Machine
end

