-- ==== Sys2Proof/Machine/Operands.lean ====
section
/-! DEFINITION. Operand forms and the checks common to all commands, in the order of spec/30_encoding.md R94
and spec/60_exceptions.md R233. Check 1's decoding part is `decode`; its "two destination fields" part is
`State.distinct`. -/

namespace Sys2Proof.Machine

/-- A check: go on if `p` holds, else end with `e`. -/
def require (p : Prop) [Decidable p] (e : Err) : Except Err Unit := if p then .ok () else .error e

/-- Check 1: the destination fields name pairwise different registers (R94, R97). -/
def distinct (dests : List RegNum) : Except Err Unit := require dests.Nodup .illegal

/-- Check 2: the level is set (R94). -/
def State.needLevel (s : State) : Except Err Level :=
  match s.level with
  | some L => .ok L
  | none => .error .config

/-- Check 3 for one source field: the register is valid; its value (R94, spec/10_state.md R23). -/
def State.source (s : State) (L : Level) (r : RegNum) : Except Err Nat :=
  if (s.reg r).valid then .ok ((s.reg r).val L) else .error .uninit

/-- A source that must be settled (spec/10_state.md R25). -/
def needSettled (L : Level) (v : Nat) : Except Err Unit := require (v < L.settled) .precond

/-- The level a legal `imm16` of SETLVL names (spec/40_config_data.md R110). -/
def levelOfBits (n : Nat) : Option Level :=
  if n = 128 then some .l128
  else if n = 256 then some .l256
  else if n = 512 then some .l512
  else if n = 1024 then some .l1024
  else none

/-- `enc_L(x)`, L-bit two's complement (spec/00_scope.md R10). -/
def encSigned (L : Level) (x : Int) : Nat := (x % (L.settled : Int)).toNat

/-- `dec_L(v)` for v < 2^L (R10). -/
def decSigned (L : Level) (v : Nat) : Int := if v.testBit (L.bits - 1) then (v : Int) - L.settled else v

/-- The sign bit, value bit L−1 (R13). -/
def signBit (L : Level) (v : Nat) : Bool := v.testBit (L.bits - 1)

/-- Word `i` of a register's raw contents. -/
def BigReg.word (x : BigReg) (i : Fin 17) : Word := x.w.get i

/-- The words and top index agree under level `L`: the check of IMPORT (spec/40_config_data.md R113). -/
def BigReg.formatOk (x : BigReg) (L : Level) : Bool :=
  let t := x.top.toNat
  decide (t ≤ L.words) && (x.w.toList.drop (t + 1)).all (· == 0)
    && (t == 0 || x.w.toList.getD t 0 != 0)

end Sys2Proof.Machine
end

