-- ==== Sys2Proof/Machine/BigInt.lean ====
section
/-! DEFINITION. ADD, NEG, SUB, MUL, SHL1, SHR1, SHL, SHR, DIV, CMP, ISODD, ABS, ISNEG (spec/41_bigint.md).
All arithmetic is modulo V over the level's words and the buffer word (R130). -/

namespace Sys2Proof.Machine

/-- Write the exact result `x` modulo V and OVF (R30, R130). -/
def State.writeExact (s : State) (L : Level) (rd : RegNum) (x : Nat) : State :=
  (s.writeReg L rd (x % L.modulus)).noteOverflow L x

/-- `(V − b) mod V` (R132). -/
def negMod (L : Level) (b : Nat) : Nat := (L.modulus - b) % L.modulus

/-- ADD rd, ra, rb (R131). -/
def execAdd (rd ra rb : RegNum) (s : State) : Host.Outcome State Fault Refusal :=
  finish s do
    let L ← s.needLevel
    let a ← s.source L ra
    let b ← s.source L rb
    return s.writeExact L rd (a + b)

/-- NEG rd, ra (R132). -/
def execNeg (rd ra : RegNum) (s : State) : Host.Outcome State Fault Refusal :=
  finish s do
    let L ← s.needLevel
    let a ← s.source L ra
    return s.writeReg L rd (negMod L a)

/-- SUB rd, ra, rb (R133): add the negation, then reset the buffer word; OVF untouched. -/
def execSub (rd ra rb : RegNum) (s : State) : Host.Outcome State Fault Refusal :=
  finish s do
    let L ← s.needLevel
    let a ← s.source L ra
    let b ← s.source L rb
    let t := (a + negMod L b) % L.modulus
    return s.writeReg L rd (t % L.settled)

/-- MUL rd, ra, rb (R134). -/
def execMul (rd ra rb : RegNum) (s : State) : Host.Outcome State Fault Refusal :=
  finish s do
    let L ← s.needLevel
    let a ← s.source L ra
    let b ← s.source L rb
    return s.writeExact L rd (a * b)

/-- SHL1 rd, ra (R135). -/
def execShl1 (rd ra : RegNum) (s : State) : Host.Outcome State Fault Refusal :=
  finish s do
    let L ← s.needLevel
    let a ← s.source L ra
    return s.writeExact L rd (2 * a)

/-- SHR1 rd, ra (R136): logical. -/
def execShr1 (rd ra : RegNum) (s : State) : Host.Outcome State Fault Refusal :=
  finish s do
    let L ← s.needLevel
    let a ← s.source L ra
    return s.writeReg L rd (a / 2)

/-- SHL rd, ra, n (R137). -/
def execShl (rd ra : RegNum) (n : BitVec 16) (s : State) : Host.Outcome State Fault Refusal :=
  finish s do
    let L ← s.needLevel
    let a ← s.source L ra
    return s.writeExact L rd (a * 2 ^ n.toNat)

/-- SHR rd, ra, n (R138): logical. -/
def execShr (rd ra : RegNum) (n : BitVec 16) (s : State) : Host.Outcome State Fault Refusal :=
  finish s do
    let L ← s.needLevel
    let a ← s.source L ra
    return s.writeReg L rd (a / 2 ^ n.toNat)

/-- DIV rq, rr, ra, rb (R139). -/
def execDiv (rq rr ra rb : RegNum) (s : State) : Host.Outcome State Fault Refusal :=
  finish s do
    distinct [rq, rr]
    let L ← s.needLevel
    let a ← s.source L ra
    let b ← s.source L rb
    require (b ≠ 0) .divzero
    return (s.writeReg L rq (a / b)).writeReg L rr (a % b)

/-- CMP's scalar result (R140): 0 less, 1 equal, 2 greater. -/
def compareCode (a b : Nat) : Nat := if a < b then 0 else if a = b then 1 else 2

/-- CMP ra, rb (R140). -/
def execCmp (ra rb : RegNum) (s : State) : Host.Outcome State Fault Refusal :=
  finish s do
    let L ← s.needLevel
    let a ← s.source L ra
    let b ← s.source L rb
    return s.setRes (compareCode a b)

/-- ISODD ra (R141). -/
def execIsodd (ra : RegNum) (s : State) : Host.Outcome State Fault Refusal :=
  finish s do
    let L ← s.needLevel
    let a ← s.source L ra
    return s.setRes (a % 2)

/-- The value ABS writes (R142). -/
def absValue (L : Level) (a : Nat) : Nat :=
  if signBit L a then (L.settled - a % L.settled) % L.settled else a

/-- ABS rd, ra (R142). -/
def execAbs (rd ra : RegNum) (s : State) : Host.Outcome State Fault Refusal :=
  finish s do
    let L ← s.needLevel
    let a ← s.source L ra
    return s.writeReg L rd (absValue L a)

/-- ISNEG ra (R143). -/
def execIsneg (ra : RegNum) (s : State) : Host.Outcome State Fault Refusal :=
  finish s do
    let L ← s.needLevel
    let a ← s.source L ra
    return s.setRes (signBit L a).toNat

end Sys2Proof.Machine
end

