-- ==== Sys2Proof/Machine/ConfigData.lean ====
section
/-! DEFINITION. SETLVL, LDI, NORM, IMPORT, RSTBUF, SETPAD (spec/40_config_data.md). -/

namespace Sys2Proof.Machine

/-- SETLVL imm16 (R110): the one command not subject to the level check. -/
def execSetlvl (imm16 : BitVec 16) (s : State) : Host.Outcome State Fault Refusal :=
  finish s <|
    match levelOfBits imm16.toNat with
    | none => .error .config
    | some L => .ok { s.invalidateAll with level := some L, xpadValid := false, mcValid := false }

/-- LDI rd (R111): ARG, zero-extended. -/
def execLdi (rd : RegNum) (s : State) : Host.Outcome State Fault Refusal :=
  finish s do
    let L ← s.needLevel
    return s.writeReg L rd s.arg.toNat

/-- NORM rd (R112): the register is read raw; its top index is computed from all 17 words. -/
def execNorm (rd : RegNum) (s : State) : Host.Outcome State Fault Refusal :=
  finish s do
    let L ← s.needLevel
    let t := topIndex (s.reg rd).w.toList
    require (t ≤ L.words) .format
    return s.setReg rd { s.reg rd with top := BitVec.ofNat 64 t, valid := true }

/-- IMPORT rd (R113): the register is read raw; words and top are checked and kept. -/
def execImport (rd : RegNum) (s : State) : Host.Outcome State Fault Refusal :=
  finish s do
    let L ← s.needLevel
    require ((s.reg rd).formatOk L = true) .format
    return s.setReg rd { s.reg rd with valid := true }

/-- RSTBUF rd, rs (R114): the buffer word becomes 0. -/
def execRstbuf (rd rs : RegNum) (s : State) : Host.Outcome State Fault Refusal :=
  finish s do
    let L ← s.needLevel
    let a ← s.source L rs
    return s.writeReg L rd (a % L.settled)

/-- SETPAD rs (R115). -/
def execSetpad (rs : RegNum) (s : State) : Host.Outcome State Fault Refusal :=
  finish s do
    let L ← s.needLevel
    let a ← s.source L rs
    needSettled L a
    return { s with xpad := BitVec.ofNat 1024 a, xpadValid := true }

end Sys2Proof.Machine
end

