-- ==== Sys2Proof/Machine/Rng.lean ====
section
/-! DEFINITION. The RNG port (spec/10_state.md R41), `Draw` (R42) and the runs of commands that draw, with
their cancellation points (spec/60_exceptions.md R239, R240). -/

namespace Sys2Proof.Machine

/-- `rho(i)` in the current epoch: the known words, then the free stream; `none` where the source has
stopped (R41, spec/60_exceptions.md R240; log 4). -/
def State.stream (s : State) (i : Nat) : Option Word :=
  match s.rngWords[i]? with
  | some w => some w
  | none => if s.rngStops then none else some (Config.rho s.epoch i)

/-- A command's run under a stream, as far as the passes granted to it reach (log 5). `pos` is the stream
position, RNGCNT_total. -/
inductive Run (α : Type) where
  /-- The run is finished: its result, the position after it, the passes left over. -/
  | done (a : α) (pos left : Nat)
  /-- The run stands at a cancellation point (before a pass of Draw) with no pass left, or in front of a
  pass the source does not serve: the position there. -/
  | atPoint (pos : Nat)
  deriving DecidableEq, Repr

/-- Go on after a run. -/
def Run.andThen {α β : Type} (x : Run α) (f : α → Nat → Nat → Run β) : Run β :=
  match x with
  | .done a pos left => f a pos left
  | .atPoint pos => .atPoint pos

/-- The same run with its result used. -/
def Run.map {α β : Type} (x : Run α) (f : α → β) : Run β := x.andThen fun a pos left => .done (f a) pos left

/-- `bitlen(v)` (spec/00_scope.md R10). -/
def bitlen (v : Nat) : Nat := if v = 0 then 0 else Nat.log2 v + 1

/-- `n` pulls from position `pos`, the first word least significant (R42). -/
def pull (rho : Nat → Option Word) : Nat → Nat → Option Nat
  | 0, _ => some 0
  | n + 1, pos =>
    match rho pos with
    | none => none
    | some w => (pull rho n (pos + 1)).map fun v => w.toNat + 2 ^ 64 * v

/-- The words one pass of `Draw(limit)` pulls: ceil(bitlen(limit − 1)/64) (R42). -/
def drawWords (limit : Nat) : Nat := (bitlen (limit - 1) + 63) / 64

/-- `Draw(limit)` (R42), at most `left` passes from position `pos`. Each pass begins with a cancellation
point (spec/60_exceptions.md R239). -/
def draw (rho : Nat → Option Word) (limit : Nat) : (left pos : Nat) → Run Nat
  | 0, pos => .atPoint pos
  | left + 1, pos =>
    match pull rho (drawWords limit) pos with
    | none => .atPoint pos
    | some x =>
      let v := x % 2 ^ bitlen (limit - 1)
      if 1 ≤ v ∧ v < limit then .done v (pos + drawWords limit) left
      else draw rho limit left (pos + drawWords limit)

/-- The passes the sequencer's step grants a run: none if CTRL.ABORT was set at the accept, for then the
command ends at its first cancellation point (spec/60_exceptions.md R239). -/
def State.granted (s : State) : Nat := if s.abort0 then 0 else s.passes

/-- A run of the command that is being executed, from the current stream position. -/
def State.runOf {α : Type} (s : State) (f : (Nat → Option Word) → (left pos : Nat) → Run α) : Run α :=
  f s.stream s.granted s.rngTotal

/-- The completion step of a command that draws (spec/30_encoding.md R93, spec/60_exceptions.md R239,
R240). Checks that fail end it as in `finish`. A finished run makes the command's writes and leaves RNGCNT
at the run's end. A run that stands at a cancellation point ends with E_ABORT there if an abort is
requested, RNGCNT at the words pulled before the point; else the core stays busy. -/
def finishRun (s : State) (outcome : Except Err (Run State)) : Host.Outcome State Fault Refusal :=
  match outcome with
  | .error e => .next (s.raise e)
  | .ok (.done t pos _) => .next (t.setPulls pos).complete
  | .ok (.atPoint pos) =>
    if s.abort || s.abort0 then .next ((s.setPulls pos).raise .abort) else .next s.stillBusy

end Sys2Proof.Machine
end

