-- ==== Sys2Proof/Machine/Numeric.lean ====
section
/-! DEFINITION. The mathematical functions of the rules: modular power (spec/00_scope.md R10), extended
Euclid (spec/44_number_theory.md R190), the Montgomery factor and product as results (spec/10_state.md R43,
spec/42_montgomery.md R162), the witness function (spec/43_primality.md R180), and the random searches
(spec/44_number_theory.md R194 to R198, spec/45_rsa.md R210). -/

namespace Sys2Proof.Machine

/-- Square and multiply: `acc · b^e mod n` over the `k` low bits of `e`. -/
def powLoop (n : Nat) : (k b e acc : Nat) → Nat
  | 0, _, _, acc => acc
  | k + 1, b, e, acc => powLoop n k (b * b % n) (e / 2) (if e % 2 = 1 then acc * b % n else acc)

/-- `b^e mod n`, with `b^0 = 1` (R10). -/
def powMod (b e n : Nat) : Nat := powLoop n (bitlen e) (b % n) e (1 % n)

/-- The loop of XGcd (R190) from (r0, r1), (s0, s1), (t0, t1); `fuel` above `r1` never runs out. -/
def xgcdLoop : (fuel r0 r1 : Nat) → (s0 s1 t0 t1 : Int) → Nat × Int × Int
  | 0, r0, _, s0, _, t0, _ => (r0, s0, t0)
  | fuel + 1, r0, r1, s0, s1, t0, t1 =>
    if r1 = 0 then (r0, s0, t0)
    else
      let q : Int := (r0 / r1 : Nat)
      xgcdLoop fuel r1 (r0 % r1) s1 (s0 - q * s1) t1 (t0 - q * t1)

/-- `XGcd(a, b)` = (g, x, y) (R190): swap if a < b, and undo the swap. -/
def xgcd (a b : Nat) : Nat × Int × Int :=
  if a < b then
    let (g, x, y) := xgcdLoop (a + 1) b a 1 0 0 1
    (g, y, x)
  else xgcdLoop (b + 1) a b 1 0 0 1

/-- `Gcd(a, b)` (R193). -/
def gcdOf (a b : Nat) : Nat := (xgcd a b).1

/-- MODINV's result from the coefficient of the value (R192): add the modulus if it is negative. -/
def inverseOf (v m : Nat) : Nat :=
  let y := (xgcd m v).2.2
  (if y < 0 then y + m else y).toNat

/-- `ModOK(n)` (R160). -/
abbrev ModOK (L : Level) (n : Nat) : Prop := n < L.settled ∧ n % 2 = 1 ∧ 3 ≤ n

/-- The Montgomery factor `2^KFAC mod n` (R43, R161). -/
def montFactor (L : Level) (n : Nat) : Nat := 2 ^ Config.kfac L % n

/-- `Factor(n)` (R43): the factor and the state with the context that holds it. -/
def State.factor (s : State) (L : Level) (n : Nat) : Nat × State :=
  if s.mcValid && s.mcN.toNat == n then (s.mcF.toNat, s)
  else
    let f := montFactor L n
    (f, { s with mcValid := true, mcN := BitVec.ofNat 1024 n, mcF := BitVec.ofNat 1024 f })

/-- The context after a command that calls `Factor(n)` (R43). -/
def State.withContext (s : State) (L : Level) (n : Nat) : State := (s.factor L n).2

/-- `MonPro(a, b, n) = a·b·Rinv mod n`, Rinv = inv(R mod n, n) (R162). -/
def monPro (L : Level) (a b n : Nat) : Nat := a * b * inverseOf (Config.radix L % n) n % n

/-- n − 1 = 2^t · u with u odd: (t, u), by halving while even (R180). `fuel` above `u` never runs out. -/
def splitTwos : (fuel u : Nat) → Nat × Nat
  | 0, u => (0, u)
  | fuel + 1, u =>
    if u % 2 = 0 then
      let (t, v) := splitTwos fuel (u / 2)
      (t + 1, v)
    else (0, u)

/-- The squarings of the witness function (R180): true if a nontrivial root of 1 appears or the last value
is not 1. -/
def witnessLoop (n : Nat) : (t x : Nat) → Bool
  | 0, x => x != 1
  | t + 1, prev =>
    let x := prev * prev % n
    if x = 1 ∧ prev ≠ 1 ∧ prev ≠ n - 1 then true else witnessLoop n t x

/-- `Wit(a, n)` (R180): a proves n composite. -/
def witness (a n : Nat) : Bool :=
  let (t, u) := splitTwos n (n - 1)
  witnessLoop n t (powMod a u n)

/-- Up to `k` Miller-Rabin rounds, stopping at the first witness (R182). -/
def primeRounds (rho : Nat → Option Word) (n : Nat) : (k left pos : Nat) → Run Bool
  | 0, left, pos => .done true pos left
  | k + 1, left, pos =>
    (draw rho n left pos).andThen fun a pos left =>
      if witness a n then .done false pos left else primeRounds rho n k left pos

/-- `IsPrime(n)` (R182). -/
def isPrime (rho : Nat → Option Word) (n left pos : Nat) : Run Bool :=
  if n < 2 then .done false pos left
  else if n = 2 then .done true pos left
  else if n % 2 = 0 then .done false pos left
  else primeRounds rho n Config.mrRounds left pos

/-- The loop of `RandomCoprime(limit)` (R194); `fuel` above `left` never runs out. -/
def coprimeLoop (rho : Nat → Option Word) (limit : Nat) : (fuel left pos : Nat) → Run Nat
  | 0, _, pos => .atPoint pos
  | fuel + 1, left, pos =>
    (draw rho limit left pos).andThen fun v pos left =>
      if gcdOf v limit = 1 then .done v pos left else coprimeLoop rho limit fuel left pos

/-- `RandomCoprime(limit)` (R194). -/
def randomCoprime (rho : Nat → Option Word) (limit left pos : Nat) : Run Nat :=
  coprimeLoop rho limit (left + 1) left pos

/-- `acc` and `k` draws below `limit`, summed (R195). -/
def sumDraws (rho : Nat → Option Word) (limit : Nat) : (k acc left pos : Nat) → Run Nat
  | 0, acc, left, pos => .done acc pos left
  | k + 1, acc, left, pos =>
    (draw rho limit left pos).andThen fun v pos left => sumDraws rho limit k (acc + v) left pos

/-- One nudge (R195): if p divides c, add INC div p modulo PI. -/
def nudge (L : Level) (c p : Nat) : Nat :=
  if c % p = 0 then (c + Config.inc / p) % Config.pi L else c

/-- The candidate made of a sum of draws (R195). -/
def candidateOf (L : Level) (sum : Nat) : Nat := Config.smallPrimes.foldl (nudge L) (sum % Config.pi L)

/-- `Candidate()` (R195). -/
def candidate (L : Level) (rho : Nat → Option Word) (left pos : Nat) : Run Nat :=
  (sumDraws rho (Config.pi L) Config.smallPrimes.length 0 left pos).andThen fun sum pos left =>
    .done (candidateOf L sum) pos left

/-- The loop of `FindPrime()` from candidate `c` (R198). Every round but a first one with c = 1 draws, so
`fuel` above `left + 1` never runs out. -/
def primeLoop (L : Level) (rho : Nat → Option Word) : (fuel c left pos : Nat) → Run Nat
  | 0, _, _, pos => .atPoint pos
  | fuel + 1, c, left, pos =>
    (isPrime rho c left pos).andThen fun ok pos left =>
      if ok then .done c pos left
      else
        let c := (c + Config.inc) % Config.pi L
        if c = 1 then (candidate L rho left pos).andThen fun c pos left => primeLoop L rho fuel c left pos
        else primeLoop L rho fuel c left pos

/-- `FindPrime()` (R198). -/
def findPrime (L : Level) (rho : Nat → Option Word) (left pos : Nat) : Run Nat :=
  (candidate L rho left pos).andThen fun c pos left => primeLoop L rho (left + 2) c left pos

/-- The pair loop of `GenKey()` (R210): two primes whose product exceeds INF. -/
def pairLoop (L : Level) (rho : Nat → Option Word) : (fuel left pos : Nat) → Run (Nat × Nat)
  | 0, _, pos => .atPoint pos
  | fuel + 1, left, pos =>
    (findPrime L rho left pos).andThen fun p1 pos left =>
      (findPrime L rho left pos).andThen fun p2 pos left =>
        if Config.infimum L < p1 * p2 then .done (p1, p2) pos left else pairLoop L rho fuel left pos

/-- A key pair and, for the hidden context, the second prime. -/
structure KeyPair where
  n : Nat
  e : Nat
  d : Nat
  p2 : Nat
  deriving DecidableEq, Repr

/-- `GenKey()` (R210). -/
def genKey (L : Level) (rho : Nat → Option Word) (left pos : Nat) : Run KeyPair :=
  (pairLoop L rho (left + 1) left pos).andThen fun p pos left =>
    let phi := (p.1 - 1) * (p.2 - 1)
    (randomCoprime rho phi left pos).andThen fun e pos left =>
      .done { n := p.1 * p.2, e := e, d := inverseOf e phi, p2 := p.2 } pos left

end Sys2Proof.Machine
end

