-- ==== Sys2Proof/Machine/Montgomery.lean ====
section
/-! DEFINITION. MONFAC, MONPRO, MONMUL, MONEXP (spec/42_montgomery.md). -/

namespace Sys2Proof.Machine

/-- The modulus check `ModOK(n)` (R160). -/
def needModulus (L : Level) (n : Nat) : Except Err Unit := require (ModOK L n) .precond

/-- "x must be reduced" (R160). -/
def needReduced (x n : Nat) : Except Err Unit := require (x < n) .precond

/-- MONFAC rd, rn (R161): `Factor(n)`, which also sets the hidden context. -/
def execMonfac (rd rn : RegNum) (s : State) : Host.Outcome State Fault Refusal :=
  finish s do
    let L ← s.needLevel
    let n ← s.source L rn
    needModulus L n
    return (s.factor L n).2.writeReg L rd (s.factor L n).1

/-- MONPRO rd, ra, rb, rn (R162): the context is not used and not changed. -/
def execMonpro (rd ra rb rn : RegNum) (s : State) : Host.Outcome State Fault Refusal :=
  finish s do
    let L ← s.needLevel
    let a ← s.source L ra
    let b ← s.source L rb
    let n ← s.source L rn
    needModulus L n
    needReduced a n
    needReduced b n
    return s.writeReg L rd (monPro L a b n)

/-- MONMUL rd, ra, rb, rn (R163). -/
def execMonmul (rd ra rb rn : RegNum) (s : State) : Host.Outcome State Fault Refusal :=
  finish s do
    let L ← s.needLevel
    let a ← s.source L ra
    let b ← s.source L rb
    let n ← s.source L rn
    needModulus L n
    needReduced a n
    needReduced b n
    return (s.withContext L n).writeReg L rd (a * b % n)

/-- MONEXP rd, rbase, rexp, rn (R164). -/
def execMonexp (rd rbase rexp rn : RegNum) (s : State) : Host.Outcome State Fault Refusal :=
  finish s do
    let L ← s.needLevel
    let g ← s.source L rbase
    let e ← s.source L rexp
    let n ← s.source L rn
    needModulus L n
    needReduced g n
    needSettled L e
    return (s.withContext L n).writeReg L rd (powMod g e n)

end Sys2Proof.Machine
end

