-- ==== Sys2Proof/Machine/NumberTheory.lean ====
section
/-! DEFINITION. EGCD, MODINV, RNDCOP, GENCAND, FINDPR (spec/44_number_theory.md). -/

namespace Sys2Proof.Machine

/-- EGCD rg, rx, ry, ra, rb (R191): the coefficients in L-bit two's complement. -/
def execEgcd (rg rx ry ra rb : RegNum) (s : State) : Host.Outcome State Fault Refusal :=
  finish s do
    distinct [rg, rx, ry]
    let L ← s.needLevel
    let a ← s.source L ra
    let b ← s.source L rb
    needSettled L a
    needSettled L b
    let (g, x, y) := xgcd a b
    return ((s.writeReg L rg g).writeReg L rx (encSigned L x)).writeReg L ry (encSigned L y)

/-- MODINV rd, rv, rm (R192). -/
def execModinv (rd rv rm : RegNum) (s : State) : Host.Outcome State Fault Refusal :=
  finish s do
    let L ← s.needLevel
    let v ← s.source L rv
    let m ← s.source L rm
    needSettled L m
    require (0 < v ∧ v < m) .precond
    require (gcdOf m v = 1) .noinv
    return s.writeReg L rd (inverseOf v m)

/-- RNDCOP rd, rl (R194). -/
def execRndcop (rd rl : RegNum) (s : State) : Host.Outcome State Fault Refusal :=
  finishRun s do
    let L ← s.needLevel
    let limit ← s.source L rl
    needSettled L limit
    require (2 ≤ limit) .precond
    return (s.runOf fun rho left pos => randomCoprime rho limit left pos).map fun v => s.writeReg L rd v

/-- GENCAND rc, ri (R196). -/
def execGencand (rc ri : RegNum) (s : State) : Host.Outcome State Fault Refusal :=
  finishRun s do
    distinct [rc, ri]
    let L ← s.needLevel
    return (s.runOf (candidate L)).map fun c => (s.writeReg L rc c).writeReg L ri Config.inc

/-- FINDPR rd (R199). The last primality test was of the result, so the context holds it. -/
def execFindpr (rd : RegNum) (s : State) : Host.Outcome State Fault Refusal :=
  finishRun s do
    let L ← s.needLevel
    return (s.runOf (findPrime L)).map fun p => (s.withContext L p).writeReg L rd p

end Sys2Proof.Machine
end

