-- ==== Sys2Proof/Machine/Primality.lean ====
section
/-! DEFINITION. MRWIT, ISPRIME (spec/43_primality.md). -/

namespace Sys2Proof.Machine

/-- MRWIT ra, rn (R181), its checks in the rule's order: an even n is composite without a look at a. -/
def execMrwit (ra rn : RegNum) (s : State) : Host.Outcome State Fault Refusal :=
  finish s do
    let L ← s.needLevel
    let a ← s.source L ra
    let n ← s.source L rn
    needSettled L n
    if n % 2 = 0 then
      return s.setRes 1
    else
      require (3 ≤ n) .precond
      require (1 ≤ a ∧ a < n) .precond
      return (s.withContext L n).setRes (witness a n).toNat

/-- ISPRIME rn (R182). The context holds n when a witness round was run. -/
def execIsprime (rn : RegNum) (s : State) : Host.Outcome State Fault Refusal :=
  finishRun s do
    let L ← s.needLevel
    let n ← s.source L rn
    needSettled L n
    return (s.runOf fun rho left pos => isPrime rho n left pos).map fun verdict =>
      (if n % 2 = 1 ∧ 3 ≤ n then s.withContext L n else s).setRes verdict.toNat

end Sys2Proof.Machine
end

