-- ==== Sys2Proof/Machine/Rsa.lean ====
section
/-! DEFINITION. GENKEY, ENCODE, DECODE (spec/45_rsa.md). -/

namespace Sys2Proof.Machine

/-- GENKEY rn, re, rd (R211). The last primality test was of the second prime, so the context holds it. -/
def execGenkey (rn re rd : RegNum) (s : State) : Host.Outcome State Fault Refusal :=
  finishRun s do
    distinct [rn, re, rd]
    let L ← s.needLevel
    return (s.runOf (genKey L)).map fun k =>
      (((s.withContext L k.p2).writeReg L rn k.n).writeReg L re k.e).writeReg L rd k.d

/-- A ciphertext envelope (R212): buffer word above the value part. -/
def envelope (L : Level) (bw v : Nat) : Nat := v + bw * L.settled

/-- ENCODE rd, rdata, rexp, rn (R213), its checks in the rule's order. -/
def execEncode (rd rdata rexp rn : RegNum) (s : State) : Host.Outcome State Fault Refusal :=
  finish s do
    let L ← s.needLevel
    let data ← s.source L rdata
    let exp ← s.source L rexp
    let n ← s.source L rn
    needModulus L n
    needSettled L data
    needSettled L exp
    let q := data / n
    let r := data % n
    require (q < Config.escMarker) .capacity
    if r ≤ 1 then
      require (s.xpadValid = true) .uninit
      return s.writeReg L rd (envelope L Config.escMarker (data ^^^ s.xpad.toNat))
    else
      return (s.withContext L n).writeReg L rd (envelope L q (powMod r exp n))

/-- DECODE rd, rc, rexp, rn (R214), its checks in the rule's order. -/
def execDecode (rd rc rexp rn : RegNum) (s : State) : Host.Outcome State Fault Refusal :=
  finish s do
    let L ← s.needLevel
    let c ← s.source L rc
    let exp ← s.source L rexp
    let n ← s.source L rn
    let bw := c / L.settled
    let v := c % L.settled
    needModulus L n
    needSettled L exp
    if bw = Config.escMarker then
      require (s.xpadValid = true) .uninit
      return s.writeReg L rd (v ^^^ s.xpad.toNat)
    else
      require (v < n) .precond
      let out := bw * n + powMod v exp n
      require (out < L.settled) .capacity
      return (s.withContext L n).writeReg L rd out

end Sys2Proof.Machine
end

