-- ==== Sys2Proof/Machine/Dispatch.lean ====
section
/-! DEFINITION. The meaning of each command: its checks after decoding, its effect and its completion
(spec/30_encoding.md R93, R94). -/

namespace Sys2Proof.Machine

def exec (i : Instr) (s : State) : Host.Outcome State Fault Refusal :=
  match i with
  | .setlvl imm16 => Sys2Proof.Machine.execSetlvl imm16 s
  | .ldi rd => Sys2Proof.Machine.execLdi rd s
  | .norm rd => Sys2Proof.Machine.execNorm rd s
  | .importTop rd => Sys2Proof.Machine.execImport rd s
  | .rstbuf rd rs => Sys2Proof.Machine.execRstbuf rd rs s
  | .setpad rs => Sys2Proof.Machine.execSetpad rs s
  | .add rd ra rb => Sys2Proof.Machine.execAdd rd ra rb s
  | .neg rd ra => Sys2Proof.Machine.execNeg rd ra s
  | .sub rd ra rb => Sys2Proof.Machine.execSub rd ra rb s
  | .mul rd ra rb => Sys2Proof.Machine.execMul rd ra rb s
  | .shl1 rd ra => Sys2Proof.Machine.execShl1 rd ra s
  | .shr1 rd ra => Sys2Proof.Machine.execShr1 rd ra s
  | .shl rd ra n => Sys2Proof.Machine.execShl rd ra n s
  | .shr rd ra n => Sys2Proof.Machine.execShr rd ra n s
  | .div rq rr ra rb => Sys2Proof.Machine.execDiv rq rr ra rb s
  | .cmp ra rb => Sys2Proof.Machine.execCmp ra rb s
  | .isodd ra => Sys2Proof.Machine.execIsodd ra s
  | .abs rd ra => Sys2Proof.Machine.execAbs rd ra s
  | .isneg ra => Sys2Proof.Machine.execIsneg ra s
  | .monfac rd rn => Sys2Proof.Machine.execMonfac rd rn s
  | .monpro rd ra rb rn => Sys2Proof.Machine.execMonpro rd ra rb rn s
  | .monmul rd ra rb rn => Sys2Proof.Machine.execMonmul rd ra rb rn s
  | .monexp rd rbase rexp rn => Sys2Proof.Machine.execMonexp rd rbase rexp rn s
  | .mrwit ra rn => Sys2Proof.Machine.execMrwit ra rn s
  | .isprime rn => Sys2Proof.Machine.execIsprime rn s
  | .egcd rg rx ry ra rb => Sys2Proof.Machine.execEgcd rg rx ry ra rb s
  | .modinv rd rv rm => Sys2Proof.Machine.execModinv rd rv rm s
  | .rndcop rd rl => Sys2Proof.Machine.execRndcop rd rl s
  | .gencand rc ri => Sys2Proof.Machine.execGencand rc ri s
  | .findpr rd => Sys2Proof.Machine.execFindpr rd s
  | .genkey rn re rd => Sys2Proof.Machine.execGenkey rn re rd s
  | .encode rd rdata rexp rn => Sys2Proof.Machine.execEncode rd rdata rexp rn s
  | .decode rd rc rexp rn => Sys2Proof.Machine.execDecode rd rc rexp rn s

end Sys2Proof.Machine
end

