-- ==== Sys2Proof/Machine/HostPort.lean ====
section
/-! DEFINITION. The slave port: the address map (spec/20_memory.md R61, R64), host reads and writes (R62,
R63), refusal while busy (R68), byte order (R65, R75), and the pseudo-instructions of spec/30_encoding.md
R99 as lists of inputs. -/

namespace Sys2Proof.Machine

/-- What a byte offset of the register space names (R61, R64). -/
inductive Loc where
  | cmd
  | status
  | ctrl
  | level
  | arg
  | res
  | rngcnt
  | word (r : RegNum) (i : Fin 17)
  | top (r : RegNum)
  | valid (r : RegNum)
  | reserved
  deriving DecidableEq, Repr

/-- The register of the slot a byte offset of 0x1000 to 0x1FFF lies in (R64). -/
def slotReg (off : Nat) : RegNum := ⟨(off - 0x1000) / 0x100 % 16, Nat.mod_lt _ (by decide)⟩

/-- The address map (R61), for a multiple of 8 at most 0x1FF8. -/
def locate (off : Nat) : Loc :=
  if off = 0x00 then .cmd
  else if off = 0x08 then .status
  else if off = 0x10 then .ctrl
  else if off = 0x18 then .level
  else if off = 0x20 then .arg
  else if off = 0x28 then .res
  else if off = 0x30 then .rngcnt
  else if off < 0x1000 then .reserved
  else
    let slot := off % 0x100
    if h : slot / 8 < 17 then .word (slotReg off) ⟨slot / 8, h⟩
    else if slot = 0x88 then .top (slotReg off)
    else if slot = 0x90 then .valid (slotReg off)
    else .reserved

/-- The byte offset of a location (R61, R64); reserved ones have none of their own. -/
def Loc.offset : Loc → Option Nat
  | .cmd => some 0x00
  | .status => some 0x08
  | .ctrl => some 0x10
  | .level => some 0x18
  | .arg => some 0x20
  | .res => some 0x28
  | .rngcnt => some 0x30
  | .word r i => some (0x1000 + 0x100 * r.val + 8 * i.val)
  | .top r => some (0x1000 + 0x100 * r.val + 0x88)
  | .valid r => some (0x1000 + 0x100 * r.val + 0x90)
  | .reserved => none

/-- The current content of a location (R62): 0 for CMD and reserved offsets. -/
def State.content (s : State) : Loc → Word
  | .cmd => 0
  | .status => s.status
  | .ctrl => s.ctrl
  | .level => s.levelWord
  | .arg => s.arg
  | .res => s.res
  | .rngcnt => BitVec.ofNat 64 s.rngTotal
  | .word r i => (s.reg r).word i
  | .top r => (s.reg r).top
  | .valid r => BitVec.ofNat 64 (s.reg r).valid.toNat
  | .reserved => 0

/-- A raw host write to word `i` of a register: the word stored, `valid` cleared (spec/10_state.md R27). -/
def BigReg.writeWord (x : BigReg) (i : Fin 17) (v : Word) : BigReg :=
  { x with w := x.w.set i.val v i.isLt, valid := false }

/-- A raw host write to `top` (spec/10_state.md R27). -/
def BigReg.writeTop (x : BigReg) (v : Word) : BigReg := { x with top := v, valid := false }

/-- The effect of a write that is not refused (R63). -/
def State.store (s : State) (loc : Loc) (v : Word) : State :=
  match loc with
  | .cmd => s.accept v
  | .status => s.writeStatus v
  | .ctrl => s.writeCtrl v
  | .level => s
  | .arg => { s with arg := v }
  | .res => s
  | .rngcnt => s
  | .word r i => s.setReg r ((s.reg r).writeWord i v)
  | .top r => s.setReg r ((s.reg r).writeTop v)
  | .valid _ => s
  | .reserved => s

/-- An access that R68 refuses: BUSY = 1 and the location is neither STATUS nor CTRL. -/
def State.refuses (s : State) (loc : Loc) : Bool := s.busy && loc != .status && loc != .ctrl

/-- `MemRead` at a location (R62, R68): the data goes to the port's output. -/
def State.hostRead (s : State) (loc : Loc) : State :=
  if s.refuses loc then { s with haz := true, rdata := 0 } else { s with rdata := s.content loc }

/-- `MemWrite` at a location (R63, R68). -/
def State.hostWrite (s : State) (loc : Loc) (v : Word) : State :=
  if s.refuses loc then { s with haz := true } else s.store loc v

/-- The port carries only aligned words of the 8 KiB space (R60, R66); any other access does not reach the
core (log 7). -/
def atPort (off : Nat) (access : Loc → State) : Host.Outcome State Fault Refusal :=
  if off % 8 ≠ 0 then .fault .misalignedAccess
  else if 0x2000 ≤ off then .fault .outsideRegisterSpace
  else .next (access (locate off))

/-- Reset with the outside world going on (spec/70_reset_and_hazards.md R260; log 8). DESIGN CHOICE: the spec does
not say what the port's read data shows after `rst`; it keeps the last word read, as the model's own `inputs` and
`passes` are kept. -/
def State.restart (s : State) (words : List Word) (stops : Bool) : State :=
  { State.reset with
    rdata := s.rdata, inputs := s.inputs, passes := s.passes,
    rngWords := words, rngStops := stops, epoch := s.epoch + 1 }

/-- Byte `j` of a word: bits 8j+7 to 8j (R65). -/
def byteOf (w : Word) (j : Fin 8) : BitVec 8 := w.extractLsb' (8 * j.val) 8

/-- The number a byte string stands for, byte 0 least significant (R75). -/
def bytesValue : List (BitVec 8) → Nat
  | [] => 0
  | b :: bs => b.toNat + 2 ^ 8 * bytesValue bs

namespace Script

/-! The host actions of spec/30_encoding.md R99, as inputs. `passes` bounds the sequencer's step (log 5). -/

/-- `WR loc, v`. -/
def wr (loc : Loc) (v : Word) : List Input := (loc.offset.map fun off => .write off v).toList

/-- `RD loc`. -/
def rd (loc : Loc) : List Input := (loc.offset.map .read).toList

/-- A bare command line: write CMD, then let the sequencer take its step. -/
def command (passes : Nat) (i : Instr) : List Input := wr .cmd (encode i) ++ [.run passes]

/-- `LI Bd, v`. -/
def li (d : RegNum) (v : Word) : List Input := wr .arg v ++ command 0 (.ldi d)

/-- `LBIG Bd, v`: 17 raw words, then NORM (R74, R75). -/
def lbig (d : RegNum) (v : Nat) : List Input :=
  (List.finRange 17).flatMap (fun i => wr (.word d i) (BitVec.ofNat 64 (v / 2 ^ (64 * i.val)))) ++ command 0 (.norm d)

/-- Construction from raw bytes (R75). -/
def ofBytes (d : RegNum) (bytes : List (BitVec 8)) : List Input := lbig d (bytesValue bytes)

/-- `ACK`: clear DONE. -/
def ack : List Input := wr .status 2

end Script

end Sys2Proof.Machine
end

