-- ==== Sys2Proof/Machine/Step.lean ====
section
/-! DEFINITION. One step of the machine: the next input is presented, or, when none is pending, a busy
sequencer takes its step (spec/00_scope.md R8, spec/20_memory.md R70; log 1). -/

namespace Sys2Proof.Machine

/-- The sequencer's step (spec/30_encoding.md R93): enabled when BUSY = 1. -/
def runSequencer (s : State) : Host.Outcome State Fault Refusal :=
  if s.busy then
    match s.command with
    | .ok i => exec i s
    | .error _ => illegalCommand s
  else .next s

/-- Present one input. -/
def present (input : Input) (s : State) : Host.Outcome State Fault Refusal :=
  match input with
  | .read off => atPort off s.hostRead
  | .write off v => atPort off fun loc => s.hostWrite loc v
  | .run passes => runSequencer { s with passes := passes }
  | .rst words stops => .next (s.restart words stops)

/-- One step. -/
def step (s : State) : Host.Outcome State Fault Refusal :=
  match s.inputs with
  | [] => runSequencer s
  | input :: rest => present input { s with inputs := rest }

/-- The command word `w` accepted, and the sequencer's step next (log 1): the state in which the next step
runs exactly the command `w`. -/
def State.withFetchWord (s : State) (_nbits w : Nat) : State :=
  let t := s.accept (BitVec.ofNat 64 w)
  { t with inputs := .run s.passes :: s.inputs }

end Sys2Proof.Machine
end

