-- ==== Sys2Proof/Machine/Datapath.lean ====
section
/-! DEFINITION. The datapath methods the rules report (spec/00_scope.md R14: "the algorithm is reported in
the rule as the datapath's method, but no intermediate value of it is architecturally visible"). The
meanings compute the stated results; these methods are refinements of them and `exec` does not call them. -/

namespace Sys2Proof.Machine.Datapath

open Sys2Proof.Machine

/-- Ripple-carry addition across words (spec/41_bigint.md R131): the sum words and the carry out. -/
def rippleAdd : List Word → List Word → (carry : Nat) → List Word × Nat
  | x :: xs, y :: ys, carry =>
    let s := x.toNat + y.toNat + carry
    let (ws, c) := rippleAdd xs ys (s / 2 ^ 64)
    (BitVec.ofNat 64 s :: ws, c)
  | _, _, carry => ([], carry)

/-- Bitwise invert and add one (R132). -/
def negate (xs : List Word) : List Word :=
  (rippleAdd (xs.map (~~~ ·)) (xs.map fun _ => 0) 1).1

/-- One shift left across words (R135): bit 63 of each word moves into bit 0 of the next. -/
def shiftLeftOnce : List Word → (carry : Nat) → List Word
  | [], _ => []
  | x :: xs, carry => BitVec.ofNat 64 (2 * x.toNat + carry) :: shiftLeftOnce xs (x.toNat / 2 ^ 63)

/-- Shift-and-add multiplication, bit by bit of the second factor, modulo `m` (R134). -/
def shiftAdd (m : Nat) : (k a b acc : Nat) → Nat
  | 0, _, _, acc => acc % m
  | k + 1, a, b, acc => shiftAdd m k (2 * a) (b / 2) (if b % 2 = 1 then acc + a else acc)

/-- Restoring long division, one dividend bit at a time from bit `k − 1` down (R139): (quotient,
remainder) from the running pair. -/
def restoringDivide (a b : Nat) : (k q r : Nat) → Nat × Nat
  | 0, q, r => (q, r)
  | k + 1, q, r =>
    let r := 2 * r + (a.testBit k).toNat
    if b ≤ r then restoringDivide a b k (2 * q + 1) (r - b) else restoringDivide a b k (2 * q) r

/-- Compare words from the most significant down, the lists given most significant first (R140). -/
def compareWords : List Word → List Word → Ordering
  | x :: xs, y :: ys => if x = y then compareWords xs ys else compare x.toNat y.toNat
  | _, _ => .eq

/-- Compare two valid registers (R140): top indices first, then the words. -/
def compareRegs (x y : BigReg) : Ordering :=
  if x.top = y.top then compareWords x.w.toList.reverse y.w.toList.reverse
  else compare x.top.toNat y.top.toNat

/-- The Montgomery factor by `k` doublings and subtractions (spec/42_montgomery.md R161). -/
def factorLoop (n : Nat) : (k f : Nat) → Nat
  | 0, f => f
  | k + 1, f => factorLoop n k (if 2 * f < n then 2 * f else 2 * f - n)

/-- One iteration of the Montgomery-product loop for bit `i` of `b` (R165). -/
def monProStep (a b n acc i : Nat) : Nat :=
  let acc := if b.testBit i then acc + a else acc
  let acc := if acc % 2 = 1 then acc + n else acc
  acc / 2

/-- The Montgomery-product datapath loop (R165): L + 2 iterations and one conditional subtraction. -/
def monProLoop (L : Level) (a b n : Nat) : Nat :=
  let acc := (List.range (L.bits + Config.guardBits)).foldl (monProStep a b n) 0
  if n ≤ acc then acc - n else acc

/-- MONMUL by four Montgomery products (R163). -/
def monMul (L : Level) (a b n : Nat) : Nat :=
  let f := montFactor L n
  monPro L 1 (monPro L (monPro L a f n) (monPro L b f n) n) n

/-- The walk over the exponent's bits in residue form (R164): `res` squared, `acc` multiplied. -/
def monExpLoop (L : Level) (n : Nat) : (k e res acc : Nat) → Nat
  | 0, _, _, acc => acc
  | k + 1, e, res, acc =>
    monExpLoop L n k (e / 2) (monPro L res res n) (if e % 2 = 1 then monPro L acc res n else acc)

/-- MONEXP by Montgomery products (R164). -/
def monExp (L : Level) (g e n : Nat) : Nat :=
  let f := montFactor L n
  monPro L 1 (monExpLoop L n (bitlen e) e (monPro L g f n) (monPro L 1 f n)) n

end Sys2Proof.Machine.Datapath
end

