-- ==== Sys2Proof/Safety.lean ====
section
/-! DEFINITION. What holds of every state of a run: the register invariant of spec/10_state.md R22, the
context invariant of R43, the pad's width (R39) and what BUSY = 1 implies (spec/30_encoding.md R92,
spec/10_state.md R33, spec/60_exceptions.md R239). -/

namespace Sys2Proof.Machine

/-- The invariant of a valid register under level `L` (R22): words above the buffer word are zero, and
`top` is the index of the highest nonzero word, or 0. -/
def BigReg.Canonical (x : BigReg) (L : Level) : Prop :=
  (∀ i : Fin 17, L.words < i.val → x.word i = 0) ∧
  (∀ i : Fin 17, x.top.toNat < i.val → x.word i = 0) ∧
  (x.top = 0 ∨ ∃ i : Fin 17, i.val = x.top.toNat ∧ x.word i ≠ 0)

/-- The invariant every step keeps. -/
structure State.Inv (s : State) : Prop where
  /-- A valid register is canonical under the active level (R22), which is set (R23). -/
  regs : ∀ r, (s.reg r).valid = true → ∃ L, s.level = some L ∧ (s.reg r).Canonical L
  /-- A valid pad is an L-bit number (R39). -/
  pad : s.xpadValid = true → ∃ L, s.level = some L ∧ s.xpad.toNat < L.settled
  /-- A valid Montgomery context holds an L-bit modulus and its factor (R43). -/
  context : s.mcValid = true →
    ∃ L, s.level = some L ∧ s.mcN.toNat < L.settled ∧ s.mcF.toNat = montFactor L s.mcN.toNat
  /-- While a command runs, DONE and ERRCODE are as its accept left them (spec/30_encoding.md R92). -/
  busyClean : s.busy = true → s.done = false ∧ s.err = none
  /-- An abort request present at the accept is still there (spec/60_exceptions.md R239). -/
  abortKept : s.busy = true → s.abort0 = true → s.abort = true

/-- `a` proves the odd number `n` composite (spec/43_primality.md R180): with n − 1 = 2^t·u, u odd, and
x_i = a^(2^i·u) mod n, the last x is not 1, or some x is 1 after one that is neither 1 nor n − 1. -/
def Witnesses (a n : Nat) : Prop :=
  ∃ t u, n - 1 = 2 ^ t * u ∧ u % 2 = 1 ∧
    (a ^ (2 ^ t * u) % n ≠ 1 ∨ ∃ i < t, a ^ (2 ^ (i + 1) * u) % n = 1 ∧ a ^ (2 ^ i * u) % n ≠ 1 ∧
      a ^ (2 ^ i * u) % n ≠ n - 1)

/-- `as` are the results of as many calls of `Draw(limit)` in turn (spec/10_state.md R42), from `left` passes
and position `pos` to `left'` passes and position `pos'`. -/
def DrawnInTurn (rho : Nat → Option Word) (limit : Nat) : (as : List Nat) → (left pos left' pos' : Nat) → Prop
  | [], left, pos, left', pos' => left' = left ∧ pos' = pos
  | a :: as, left, pos, left', pos' =>
    ∃ l p, draw rho limit left pos = .done a p l ∧ DrawnInTurn rho limit as l p left' pos'

/-- The bases after which at most `k` rounds of `IsPrime(n)` end, and their verdict (spec/43_primality.md R182):
`k` that are no witness, or fewer than `k` such and then a witness. -/
def RoundsEnd (k n : Nat) (bases : List Nat) (verdict : Bool) : Prop :=
  (verdict = true ∧ bases.length = k ∧ ∀ a ∈ bases, ¬ Witnesses a n) ∨
  (verdict = false ∧ ∃ init a, bases = init ++ [a] ∧ init.length < k ∧ (∀ b ∈ init, ¬ Witnesses b n) ∧
    Witnesses a n)

/-! The finished runs of the rules' random functions, from `left` passes and position `pos` to `left'` passes and
position `pos'`, each as its rule words it. -/

/-- `IsPrime(n)` answers `verdict` (spec/43_primality.md R182). -/
def Tested (rho : Nat → Option Word) (n : Nat) (verdict : Bool) (left pos left' pos' : Nat) : Prop :=
  if n < 2 ∨ n % 2 = 0 then verdict = decide (n = 2) ∧ left' = left ∧ pos' = pos
  else ∃ bases, DrawnInTurn rho n bases left pos left' pos' ∧ RoundsEnd 10 n bases verdict

/-- `RandomCoprime(limit)` answers `v`: the first value drawn that is coprime to the limit
(spec/44_number_theory.md R194). -/
def FirstCoprime (rho : Nat → Option Word) (limit v left pos left' pos' : Nat) : Prop :=
  ∃ init, DrawnInTurn rho limit (init ++ [v]) left pos left' pos' ∧ (∀ x ∈ init, Nat.gcd x limit ≠ 1) ∧
    Nat.gcd v limit = 1

/-- A sum modulo `m`, nudged by INC div p for each of the 13 small primes p, in order, that divides it
(spec/44_number_theory.md R195). -/
def nudged (m c : Nat) : Nat :=
  [2, 3, 5, 7, 11, 13, 17, 19, 23, 29, 31, 37, 41].foldl
    (fun c p => if c % p = 0 then (c + 304250263527210 / p) % m else c) c

/-- `Candidate()` answers `c`: 13 values drawn below PI, their sum modulo PI, nudged
(spec/44_number_theory.md R195). -/
def CandidateDrawn (L : Level) (rho : Nat → Option Word) (c left pos left' pos' : Nat) : Prop :=
  ∃ vs, vs.length = 13 ∧ DrawnInTurn rho (Config.pi L) vs left pos left' pos' ∧
    c = nudged (Config.pi L) (vs.sum % Config.pi L)

/-- The loop of `FindPrime()` from candidate `c` answers `p`, the first candidate accepted
(spec/44_number_theory.md R198). -/
inductive Searched (L : Level) (rho : Nat → Option Word) : (c p left pos left' pos' : Nat) → Prop
  | accept {c left pos left' pos' : Nat} : Tested rho c true left pos left' pos' →
      Searched L rho c c left pos left' pos'
  | advance {c p left pos l q left' pos' : Nat} : Tested rho c false left pos l q →
      (c + 304250263527210) % Config.pi L ≠ 1 →
      Searched L rho ((c + 304250263527210) % Config.pi L) p l q left' pos' →
      Searched L rho c p left pos left' pos'
  | regenerate {c c' p left pos l q l2 q2 left' pos' : Nat} : Tested rho c false left pos l q →
      (c + 304250263527210) % Config.pi L = 1 → CandidateDrawn L rho c' l q l2 q2 →
      Searched L rho c' p l2 q2 left' pos' → Searched L rho c p left pos left' pos'

/-- `FindPrime()` answers `p` (spec/44_number_theory.md R198). -/
def PrimeFound (L : Level) (rho : Nat → Option Word) (p left pos left' pos' : Nat) : Prop :=
  ∃ c l q, CandidateDrawn L rho c left pos l q ∧ Searched L rho c p l q left' pos'

/-- The pair loop of `GenKey()` answers `p1`, `p2`: the first pair found whose product exceeds INF
(spec/45_rsa.md R210). -/
inductive PairFound (L : Level) (rho : Nat → Option Word) : (p1 p2 left pos left' pos' : Nat) → Prop
  | keep {p1 p2 left pos l q left' pos' : Nat} : PrimeFound L rho p1 left pos l q →
      PrimeFound L rho p2 l q left' pos' → (2 ^ L.bits - 1) / (2 ^ 64 - 1) < p1 * p2 →
      PairFound L rho p1 p2 left pos left' pos'
  | redraw {a b p1 p2 left pos l q l2 q2 left' pos' : Nat} : PrimeFound L rho a left pos l q →
      PrimeFound L rho b l q l2 q2 → a * b ≤ (2 ^ L.bits - 1) / (2 ^ 64 - 1) →
      PairFound L rho p1 p2 l2 q2 left' pos' → PairFound L rho p1 p2 left pos left' pos'

/-- `GenKey()` answers the key `k`, its primes `p1` and `k.p2` (spec/45_rsa.md R210). -/
def KeyDrawn (L : Level) (rho : Nat → Option Word) (p1 : Nat) (k : KeyPair) (left pos left' pos' : Nat) : Prop :=
  ∃ l q, PairFound L rho p1 k.p2 left pos l q ∧ k.n = p1 * k.p2 ∧
    FirstCoprime rho ((p1 - 1) * (k.p2 - 1)) k.e l q left' pos' ∧
    1 ≤ k.d ∧ k.d < (p1 - 1) * (k.p2 - 1) ∧ k.e * k.d % ((p1 - 1) * (k.p2 - 1)) = 1

/-- The commands that pull RNG words, which are the cancellable ones (spec/10_state.md R41,
spec/60_exceptions.md R239). -/
def Pulls : Instr → Bool
  | .setlvl _ | .ldi _ | .norm _ | .importTop _ | .rstbuf _ _ | .setpad _ => false
  | .add _ _ _ | .neg _ _ | .sub _ _ _ | .mul _ _ _ | .shl1 _ _ | .shr1 _ _ | .shl _ _ _ | .shr _ _ _ => false
  | .div _ _ _ _ | .cmp _ _ | .isodd _ | .abs _ _ | .isneg _ => false
  | .monfac _ _ | .monpro _ _ _ _ | .monmul _ _ _ _ | .monexp _ _ _ _ | .mrwit _ _ => false
  | .isprime _ => true
  | .egcd _ _ _ _ _ | .modinv _ _ _ => false
  | .rndcop _ _ | .gencand _ _ | .findpr _ | .genkey _ _ _ => true
  | .encode _ _ _ _ | .decode _ _ _ _ => false

/-- The commands that write OVF (spec/10_state.md R30). -/
def WritesOvf : Instr → Bool
  | .add _ _ _ | .mul _ _ _ | .shl1 _ _ | .shl _ _ _ => true
  | .setlvl _ | .ldi _ | .norm _ | .importTop _ | .rstbuf _ _ | .setpad _ => false
  | .neg _ _ | .sub _ _ _ | .shr1 _ _ | .shr _ _ _ | .div _ _ _ _ | .cmp _ _ | .isodd _ | .abs _ _ | .isneg _ => false
  | .monfac _ _ | .monpro _ _ _ _ | .monmul _ _ _ _ | .monexp _ _ _ _ | .mrwit _ _ | .isprime _ => false
  | .egcd _ _ _ _ _ | .modinv _ _ _ | .rndcop _ _ | .gencand _ _ | .findpr _ => false
  | .genkey _ _ _ | .encode _ _ _ _ | .decode _ _ _ _ => false

/-- The commands that write RES (spec/10_state.md R36). -/
def WritesRes : Instr → Bool
  | .cmp _ _ | .isodd _ | .isneg _ | .mrwit _ _ | .isprime _ => true
  | .setlvl _ | .ldi _ | .norm _ | .importTop _ | .rstbuf _ _ | .setpad _ => false
  | .add _ _ _ | .neg _ _ | .sub _ _ _ | .mul _ _ _ | .shl1 _ _ | .shr1 _ _ | .shl _ _ _ | .shr _ _ _ => false
  | .div _ _ _ _ | .abs _ _ => false
  | .monfac _ _ | .monpro _ _ _ _ | .monmul _ _ _ _ | .monexp _ _ _ _ => false
  | .egcd _ _ _ _ _ | .modinv _ _ _ | .rndcop _ _ | .gencand _ _ | .findpr _ => false
  | .genkey _ _ _ | .encode _ _ _ _ | .decode _ _ _ _ => false

/-- SETLVL, the one command that writes LEVEL (spec/10_state.md R34). -/
def IsSetlvl : Instr → Prop := fun i => ∃ imm16, i = .setlvl imm16

/-- SETPAD, the one command that writes XPAD (spec/10_state.md R39). -/
def IsSetpad : Instr → Prop := fun i => ∃ rs, i = .setpad rs

end Sys2Proof.Machine
end

