-- ==== Sys2Proof/Certificates/Slice0/Obligations.lean ====
section
/-! DEFINITION. The statements about the model, each a numbered rule of spec/ or derived from several. A result
statement is also a completion statement: its conclusion is the next state `exec` answers. `t.complete` is
`{ t with abort := false, busy := false, done := true }` (spec/30_encoding.md R93). -/

open Sys2Proof Sys2Proof.Machine

/-! ## Encoding -/

/-- R90, R91, R95: no bit of a command's encoding is dropped, for every command and every operand value. -/
def Obligations.DecodeOfEncodeIsTheCommand : Prop :=
  ∀ i : Instr, decode (encode i) = .ok i

/-- R90, R96: a word that decodes is exactly the encoding of its command: no two words are one command. -/
def Obligations.DecodedWordIsTheEncoding : Prop :=
  ∀ (w : Word) (i : Instr), decode w = .ok i → encode i = w

/-- R98: the command words of the assembler examples. -/
def Obligations.AssemblerExamplesDecode : Prop :=
  decode 0x01000080 = .ok (.setlvl 128) ∧
  decode 0x02000000 = .ok (.ldi 0) ∧
  decode 0x10201000 = .ok (.add 2 0 1) ∧
  decode 0x13201000 = .ok (.mul 2 0 1) ∧
  decode 0x16320041 = .ok (.shl 3 2 65) ∧
  decode 0x18452100 = .ok (.div 4 5 2 1) ∧
  decode 0x19010000 = .ok (.cmp 0 1) ∧
  decode 0x23301200 = .ok (.monexp 3 0 1 2) ∧
  decode 0x40234010 = .ok (.egcd 2 3 4 0 1) ∧
  decode 0x51501200 = .ok (.encode 5 0 1 2)

/-- The 33 rows of spec/30_encoding.md R91: the opcode, and the bits below it that the row shows as 0 (`z` among
them), as the lowest bit and the number of bits. SHL and SHR have none. -/
def Sys2Proof.zeroBits : List (Nat × Nat × Nat) :=
  [(0x01, 16, 8), (0x02, 0, 20), (0x03, 0, 20), (0x04, 0, 20), (0x05, 0, 16), (0x06, 0, 20), (0x10, 0, 12),
   (0x11, 0, 16), (0x12, 0, 12), (0x13, 0, 12), (0x14, 0, 16), (0x15, 0, 16), (0x16, 0, 0), (0x17, 0, 0),
   (0x18, 0, 8), (0x19, 0, 16), (0x1A, 0, 20), (0x1B, 0, 16), (0x1C, 0, 20), (0x20, 0, 16), (0x21, 0, 8),
   (0x22, 0, 8), (0x23, 0, 8), (0x30, 0, 16), (0x31, 0, 20), (0x40, 0, 4), (0x41, 0, 12), (0x42, 0, 16),
   (0x43, 0, 16), (0x44, 0, 20), (0x50, 0, 12), (0x51, 0, 8), (0x52, 0, 8)]

/-- The 33 opcodes of spec/30_encoding.md R91. -/
def Sys2Proof.opcodes : List Nat := zeroBits.map Prod.fst

/-- R90, R91, R96: decoding is total. A nonzero upper half, an opcode outside the map, and a listed opcode with a
nonzero bit in a field its row shows as 0 (an unused register field, SETLVL's f0 and f1, or `z`) are rejected,
each by its name; every other word decodes. -/
def Obligations.WordsOutsideTheMapAreRejected : Prop :=
  ∀ w : Word,
    (2 ^ 32 ≤ w.toNat → decode w = .error .upperHalf) ∧
    (w.toNat < 2 ^ 32 → w.toNat / 2 ^ 24 ∉ opcodes → decode w = .error .unknownOpcode) ∧
    (w.toNat < 2 ^ 32 → ∀ op lo width, (op, lo, width) ∈ zeroBits → w.toNat / 2 ^ 24 = op →
      (w.toNat / 2 ^ lo % 2 ^ width ≠ 0 → decode w = .error .reservedField) ∧
      (w.toNat / 2 ^ lo % 2 ^ width = 0 → ∃ i, decode w = .ok i))

/-! ## Steps, the accept and the port -/

/-- R93: a busy core with no input pending, or whose next input lets the sequencer take its step, runs the
command in CMDREG; the input is consumed and sets the granted passes (log 1, log 5). -/
def Obligations.StepRunsTheAcceptedCommand : Prop :=
  ∀ (s : State) (i : Instr), s.busy = true → decode s.cmdreg = .ok i →
    (s.inputs = [] → step s = exec i s) ∧
    (∀ passes rest, s.inputs = .run passes :: rest →
      step s = exec i { s with inputs := rest, passes := passes })

/-- R93, R96: a busy core whose CMDREG holds a word outside the map completes with E_ILLEGAL; an idle core
with nothing presented keeps all its state. -/
def Obligations.IllegalWordCompletesAndIdleCoreWaits : Prop :=
  (∀ (s : State) (e : DecodeError), s.busy = true → decode s.cmdreg = .error e → s.inputs = [] →
    step s = .next (s.raise .illegal)) ∧
  (∀ s : State, s.busy = false → s.inputs = [] → step s = .next s)

/-- R60, R62, R63, R66: a host access at a multiple of 8 below 0x2000 is performed at its location; any other
stops with its fault (log 7). -/
def Obligations.HostAccessReachesItsLocation : Prop :=
  ∀ (s : State) (off : Nat) (v : Word) (rest : List Input),
    (s.inputs = .read off :: rest → off % 8 = 0 → off < 0x2000 →
      step s = .next (({ s with inputs := rest } : State).hostRead (locate off))) ∧
    (s.inputs = .write off v :: rest → off % 8 = 0 → off < 0x2000 →
      step s = .next (({ s with inputs := rest } : State).hostWrite (locate off) v)) ∧
    (s.inputs = .read off :: rest ∨ s.inputs = .write off v :: rest → off % 8 ≠ 0 →
      step s = .fault .misalignedAccess) ∧
    (s.inputs = .read off :: rest ∨ s.inputs = .write off v :: rest → off % 8 = 0 → 0x2000 ≤ off →
      step s = .fault .outsideRegisterSpace)

/-- R92: a write to CMD (offset 0) while idle latches the word and ABORT, sets BUSY, clears DONE and ERRCODE,
and changes nothing else, whatever the word; while busy it is refused. -/
def Obligations.WriteToCommandRegisterAccepts : Prop :=
  locate 0x0000 = .cmd ∧ ∀ (s : State) (c : Word),
    (s.busy = false → s.hostWrite .cmd c =
      { s with cmdreg := c, abort0 := s.abort, busy := true, done := false, err := none }) ∧
    (s.busy = true → s.hostWrite .cmd c = { s with haz := true })

/-- R68: while busy any access but to STATUS and CTRL is refused and sets HAZ, a read returning 0 (at the
port's output `rdata`, log 3); any other read returns the content and changes no state of the core. -/
def Obligations.BusyAccessIsRefused : Prop :=
  ∀ (s : State) (loc : Loc) (v : Word),
    (s.busy = true → loc ≠ .status → loc ≠ .ctrl →
      s.hostRead loc = { s with haz := true, rdata := 0 } ∧ s.hostWrite loc v = { s with haz := true }) ∧
    (s.busy = false ∨ loc = .status ∨ loc = .ctrl → s.hostRead loc = { s with rdata := s.content loc })

/-- R61, R64: the offset of every location by its number (only `reserved` has none), each an aligned one inside
the 8 KiB space at which an access finds that location. -/
def Obligations.AddressMapNamesEveryLocation : Prop :=
  Loc.cmd.offset = some 0x0000 ∧ Loc.status.offset = some 0x0008 ∧ Loc.ctrl.offset = some 0x0010 ∧
  Loc.level.offset = some 0x0018 ∧ Loc.arg.offset = some 0x0020 ∧ Loc.res.offset = some 0x0028 ∧
  Loc.rngcnt.offset = some 0x0030 ∧
  (∀ (r : RegNum) (i : Fin 17), (Loc.word r i).offset = some (0x1000 + 0x100 * r.val + 8 * i.val)) ∧
  (∀ r : RegNum, (Loc.top r).offset = some (0x1000 + 0x100 * r.val + 0x88) ∧
    (Loc.valid r).offset = some (0x1000 + 0x100 * r.val + 0x90)) ∧
  Loc.reserved.offset = none ∧
  ∀ (loc : Loc) (off : Nat), loc.offset = some off → off % 8 = 0 ∧ off < 0x2000 ∧ locate off = loc

/-- R69: an offset the map of R61 does not name reads as 0 and ignores writes while idle, and sets no flag. -/
def Obligations.ReservedOffsetsReadZeroAndIgnoreWrites : Prop :=
  ∀ off : Nat, off % 8 = 0 → off < 0x2000 → (∀ loc : Loc, loc.offset ≠ some off) →
    ∀ (s : State) (v : Word), s.busy = false →
      s.hostRead (locate off) = { s with rdata := 0 } ∧ s.hostWrite (locate off) v = s

/-- R27: a raw host write while idle stores the word (or top), clears `valid`, and changes no other field of
the register and no other register. -/
def Obligations.RawWriteClearsValid : Prop :=
  ∀ (s : State) (r : RegNum) (i : Fin 17) (v : Word), s.busy = false →
    (∃ x : BigReg, s.hostWrite (.word r i) v = s.setReg r x ∧ x.valid = false ∧ x.top = (s.reg r).top ∧
      x.word i = v ∧ ∀ j, j ≠ i → x.word j = (s.reg r).word j) ∧
    (∃ x : BigReg, s.hostWrite (.top r) v = s.setReg r x ∧ x.valid = false ∧ x.top = v ∧
      ∀ j, x.word j = (s.reg r).word j) ∧
    (∀ q x, q ≠ r → (s.setReg r x).reg q = s.reg q)

/-- R32 to R37, R62, R231: what every location holds for the host: the bits of STATUS and CTRL, ERRCODE by the
number of each error, LEVEL in bits or 0, ARG, RES, the pulls modulo 2^64, and the fields of a register. -/
def Obligations.ContentOfEveryLocation : Prop :=
  ∀ (s : State) (r : RegNum) (i : Fin 17),
    (s.content .status).getLsbD 0 = s.busy ∧ (s.content .status).getLsbD 1 = s.done ∧
    (s.content .status).getLsbD 2 = s.err.isSome ∧ (s.content .status).getLsbD 3 = s.ovf ∧
    (s.content .status).getLsbD 4 = s.haz ∧ (s.content .status).toNat / 32 % 8 = 0 ∧
    ((s.content .status).toNat / 256 = match s.err with
      | none => 0
      | some .illegal => 1
      | some .config => 2
      | some .uninit => 3
      | some .divzero => 4
      | some .precond => 5
      | some .noinv => 6
      | some .capacity => 7
      | some .format => 8
      | some .abort => 9) ∧
    (s.content .ctrl).getLsbD 0 = s.ie ∧ (s.content .ctrl).getLsbD 1 = s.abort ∧
    (s.content .ctrl).toNat < 4 ∧
    ((s.content .level).toNat = match s.level with
      | none => 0
      | some .l128 => 128
      | some .l256 => 256
      | some .l512 => 512
      | some .l1024 => 1024) ∧
    s.content .arg = s.arg ∧ s.content .res = s.res ∧ (s.content .rngcnt).toNat = s.rngTotal % 2 ^ 64 ∧
    s.content (.word r i) = (s.reg r).word i ∧ s.content (.top r) = (s.reg r).top ∧
    (s.content (.valid r) = if (s.reg r).valid then 1 else 0) ∧ s.content .cmd = 0

/-- R32, R33, R63: a write to STATUS clears DONE and HAZ where bits 1 and 4 are 1; a write to CTRL stores IE,
and stores ABORT while idle but only sets it while busy; while idle a write to ARG stores it, and one to LEVEL,
RES, RNGCNT or `valid` is ignored. Nothing else changes. -/
def Obligations.HostWritesByLocation : Prop :=
  ∀ (s : State) (v : Word) (r : RegNum),
    s.hostWrite .status v =
      { s with done := if v.getLsbD 1 then false else s.done, haz := if v.getLsbD 4 then false else s.haz } ∧
    (s.busy = false → s.hostWrite .ctrl v = { s with ie := v.getLsbD 0, abort := v.getLsbD 1 }) ∧
    (s.busy = true → s.hostWrite .ctrl v = { s with ie := v.getLsbD 0, abort := s.abort || v.getLsbD 1 }) ∧
    (s.busy = false → s.hostWrite .arg v = { s with arg := v } ∧ s.hostWrite .level v = s ∧
      s.hostWrite .res v = s ∧ s.hostWrite .rngcnt v = s ∧ s.hostWrite (.valid r) v = s)

/-- The values of the table of spec/10_state.md R46. -/
def Sys2Proof.ResetValues (t : State) : Prop :=
  t.busy = false ∧ t.status = 0 ∧ t.ctrl = 0 ∧ t.level = none ∧ t.arg = 0 ∧ t.res = 0 ∧ t.rngTotal = 0 ∧
  t.xpadValid = false ∧ t.mcValid = false ∧ t.irq = false ∧
  ∀ r, (t.reg r).valid = false ∧ (t.reg r).top = 0 ∧ ∀ i, (t.reg r).word i = 0

/-- R46: the state after reset, and the state after the reset input, idle or busy, has every value the table
gives. -/
def Obligations.ResetGivesTheValuesOfTheTable : Prop :=
  ResetValues State.reset ∧
  ∀ (s : State) (words : List Word) (stops : Bool) (rest : List Input), s.inputs = .rst words stops :: rest →
    ∃ t, step s = .next t ∧ t.inputs = rest ∧ ResetValues t

/-! ## Completion, errors and priority -/

/-- R93, R96: `exec` answers a next state for every command in every state: no command stops the core. Where a
run that pulls RNG words is not finished, the spec never enables the step (R240): that there is a next state
then, in which the core is still busy, is the model's choice of log 5. -/
def Obligations.NoCommandStopsTheCore : Prop :=
  ∀ (i : Instr) (s : State), ∃ t, exec i s = .next t

/-- R93, R235, R240: a step of the sequencer either completes (BUSY and ABORT cleared, DONE set, the interrupt
output equal to IE, which is unchanged), or, for a command that pulls RNG words with no abort requested,
leaves everything but the model's own `passes` as it was (log 5). -/
def Obligations.SequencerCompletesOrStaysBusy : Prop :=
  ∀ (i : Instr) (s t : State), exec i s = .next t →
    (t.busy = false ∧ t.done = true ∧ t.abort = false ∧ t.ie = s.ie ∧ t.irq = s.ie) ∨
    (Pulls i = true ∧ s.abort = false ∧ s.abort0 = false ∧ t = { s with passes := s.passes + 1 })

/-- R232: a command that ends with an error makes exactly the writes of `raise`; E_ABORT, which only commands
that pull can raise, also moves RNGCNT (of the hidden context this statement says nothing then: log 12). -/
def Obligations.ErrorMakesNoOtherWrite : Prop :=
  ∀ (i : Instr) (s t : State) (e : Err), s.err = none → exec i s = .next t → t.err = some e →
    (e ≠ .abort → t = { s with err := some e, abort := false, busy := false, done := true }) ∧
    (e = .abort → Pulls i = true ∧
      t = { s with err := some .abort, abort := false, busy := false, done := true, rngTotal := t.rngTotal,
                   mcValid := t.mcValid, mcN := t.mcN, mcF := t.mcF })

/-- R94: the checks common to every command, in order, each deciding the outcome whatever the later ones would:
the word does not decode, two destinations are one register, the level is unset (not for SETLVL), a source
register is not valid. -/
def Obligations.CommonChecksInOrder : Prop :=
  ∀ (i : Instr) (s : State),
    (∀ e, s.busy = true → decode s.cmdreg = .error e → runSequencer s = .next (s.raise .illegal)) ∧
    (¬ i.WellFormed → exec i s = .next (s.raise .illegal)) ∧
    (i.WellFormed → ¬ IsSetlvl i → s.level = none → exec i s = .next (s.raise .config)) ∧
    (∀ L r, i.WellFormed → s.level = some L → r ∈ i.srcs → (s.reg r).valid = false →
      exec i s = .next (s.raise .uninit))

/-! ## Frames -/

/-- R26, R97: a command leaves every register but its destinations unchanged; SETLVL keeps words and top of
every register. -/
def Obligations.OnlyDestinationsAreWritten : Prop :=
  ∀ (i : Instr) (s t : State) (r : RegNum), exec i s = .next t →
    (¬ IsSetlvl i → r ∉ i.dests → t.reg r = s.reg r) ∧
    (IsSetlvl i → (t.reg r).w = (s.reg r).w ∧ (t.reg r).top = (s.reg r).top)

/-- R30, R31, R36: only ADD, MUL, SHL1 and SHL write OVF; no command writes HAZ; only CMP, ISODD, ISNEG, MRWIT
and ISPRIME write RES. -/
def Obligations.FlagAndResultFrames : Prop :=
  ∀ (i : Instr) (s t : State), exec i s = .next t →
    t.haz = s.haz ∧ (WritesOvf i = false → t.ovf = s.ovf) ∧ (WritesRes i = false → t.res = s.res)

/-- R33, R34, R35, R37, R39, R41: LEVEL is written by SETLVL only, XPAD by SETPAD only (its tag also by
SETLVL), RNGCNT by commands that pull only; ARG, IE, CMDREG, ABORT0 by none; of the model's own fields only
`passes` can change. -/
def Obligations.SpecialRegisterFrames : Prop :=
  ∀ (i : Instr) (s t : State), exec i s = .next t →
    (¬ IsSetlvl i → t.level = s.level) ∧ (¬ IsSetpad i → t.xpad = s.xpad) ∧
    (¬ IsSetlvl i → ¬ IsSetpad i → t.xpadValid = s.xpadValid) ∧
    (Pulls i = false → t.rngTotal = s.rngTotal) ∧ t.arg = s.arg ∧ t.ie = s.ie ∧ t.cmdreg = s.cmdreg ∧
    t.abort0 = s.abort0 ∧ t.rdata = s.rdata ∧ t.inputs = s.inputs ∧ t.rngWords = s.rngWords ∧
    t.rngStops = s.rngStops ∧ t.epoch = s.epoch

/-- R61, R26: what the host reads after a command is what it read before at every location but STATUS, CTRL,
RES (of a command that writes it), RNGCNT (of one that pulls), and the slots of the destinations; for every
command but SETLVL. -/
def Obligations.HostSeesNothingElseChange : Prop :=
  ∀ (i : Instr) (s t : State) (loc : Loc), exec i s = .next t → ¬ IsSetlvl i →
    loc ≠ .status → loc ≠ .ctrl → (loc = .res → WritesRes i = false) → (loc = .rngcnt → Pulls i = false) →
    (∀ r ∈ i.dests, loc ≠ .top r ∧ loc ≠ .valid r ∧ ∀ j, loc ≠ .word r j) →
    t.content loc = s.content loc

/-! ## Register writes -/

/-- R24: writing v < V to a register: its words up to the buffer word are those of v and the words above are 0,
`top` is the index of the highest nonzero word or 0, `valid` is set, and no other register changes; the
register then holds v. -/
def Obligations.WrittenRegisterHoldsItsValue : Prop :=
  ∀ (s : State) (L : Level) (rd : RegNum) (v : Nat), v < L.modulus →
    (∀ i : Fin 17, ((s.writeReg L rd v).reg rd).word i =
      if i.val ≤ L.words then BitVec.ofNat 64 (v / 2 ^ (64 * i.val)) else 0) ∧
    ((s.writeReg L rd v).reg rd).Canonical L ∧ ((s.writeReg L rd v).reg rd).valid = true ∧
    ((s.writeReg L rd v).reg rd).val L = v ∧ ∀ q, q ≠ rd → (s.writeReg L rd v).reg q = s.reg q

/-! ## Configuration and data movement -/

/-- R110: SETLVL with a legal level sets it, clears every valid tag, XPAD_VALID and MC_VALID and nothing else;
with any other immediate it ends with E_CONFIG. -/
def Obligations.SetlvlSetsTheLevel : Prop :=
  ∀ (s : State) (imm16 : BitVec 16),
    (∀ L : Level, imm16.toNat = L.bits → ∃ t : State,
      exec (.setlvl imm16) s = .next t ∧ (∀ r, t.reg r = { s.reg r with valid := false }) ∧
      t = { s with b := t.b, level := some L, xpadValid := false, mcValid := false }.complete) ∧
    ((∀ L : Level, imm16.toNat ≠ L.bits) → exec (.setlvl imm16) s = .next (s.raise .config))

/-- R111, R114: LDI writes ARG; RSTBUF writes the source modulo 2^L. -/
def Obligations.LdiAndRstbufResults : Prop :=
  ∀ (s : State) (L : Level) (rd rs : RegNum), s.level = some L →
    exec (.ldi rd) s = .next (s.writeReg L rd s.arg.toNat).complete ∧
    ((s.reg rs).valid = true →
      exec (.rstbuf rd rs) s = .next (s.writeReg L rd ((s.reg rs).val L % 2 ^ L.bits)).complete)

/-- R112: NORM makes the register valid with the top index of its words, which it keeps, if every word above
the buffer word is zero; else it ends with E_FORMAT. -/
def Obligations.NormComputesTheTopIndex : Prop :=
  ∀ (s : State) (L : Level) (rd : RegNum), s.level = some L →
    ((∀ i : Fin 17, L.words < i.val → (s.reg rd).word i = 0) → ∃ x : BigReg,
      exec (.norm rd) s = .next (s.setReg rd x).complete ∧ x.w = (s.reg rd).w ∧ x.valid = true ∧
      x.Canonical L) ∧
    (∀ i : Fin 17, L.words < i.val → (s.reg rd).word i ≠ 0 → exec (.norm rd) s = .next (s.raise .format))

/-- R113: IMPORT makes the register valid exactly when its words and top satisfy the invariant of R22; else it
ends with E_FORMAT. -/
def Obligations.ImportAcceptsExactlyCanonicalRegisters : Prop :=
  ∀ (s : State) (L : Level) (rd : RegNum), s.level = some L →
    ((s.reg rd).Canonical L →
      exec (.importTop rd) s = .next (s.setReg rd { s.reg rd with valid := true }).complete) ∧
    (¬ (s.reg rd).Canonical L → exec (.importTop rd) s = .next (s.raise .format))

/-- R115: SETPAD loads a settled value into XPAD; an unsettled one ends with E_PRECOND. -/
def Obligations.SetpadLoadsThePad : Prop :=
  ∀ (s : State) (L : Level) (rs : RegNum), s.level = some L → (s.reg rs).valid = true →
    ((s.reg rs).val L < 2 ^ L.bits → ∃ p : BitVec 1024, p.toNat = (s.reg rs).val L ∧
      exec (.setpad rs) s = .next { s with xpad := p, xpadValid := true }.complete) ∧
    (2 ^ L.bits ≤ (s.reg rs).val L → exec (.setpad rs) s = .next (s.raise .precond))

/-! ## BigInt arithmetic -/

/-- R30, R131, R134, R135, R137: ADD, MUL, SHL1 and SHL write the exact result modulo V and set OVF exactly
when the exact result is not below V. -/
def Obligations.WrappingResultsAndOverflow : Prop :=
  ∀ (s : State) (L : Level) (rd ra rb : RegNum) (n : BitVec 16) (a b : Nat), s.level = some L →
    (s.reg ra).valid = true → (s.reg ra).val L = a → (s.reg rb).valid = true → (s.reg rb).val L = b →
    exec (.add rd ra rb) s =
      .next { s.writeReg L rd ((a + b) % L.modulus) with ovf := decide (a + b ≥ L.modulus) }.complete ∧
    exec (.mul rd ra rb) s =
      .next { s.writeReg L rd (a * b % L.modulus) with ovf := decide (a * b ≥ L.modulus) }.complete ∧
    exec (.shl1 rd ra) s =
      .next { s.writeReg L rd (2 * a % L.modulus) with ovf := decide (2 * a ≥ L.modulus) }.complete ∧
    exec (.shl rd ra n) s =
      .next { s.writeReg L rd (a * 2 ^ n.toNat % L.modulus) with
        ovf := decide (a * 2 ^ n.toNat ≥ L.modulus) }.complete

/-- R132: NEG writes (V − a) mod V; OVF is untouched. -/
def Obligations.NegResult : Prop :=
  ∀ (s : State) (L : Level) (rd ra : RegNum), s.level = some L → (s.reg ra).valid = true →
    exec (.neg rd ra) s =
      .next (s.writeReg L rd ((L.modulus - (s.reg ra).val L) % L.modulus)).complete

/-- R133: SUB writes (a − b) mod 2^L, which is settled; OVF is untouched. -/
def Obligations.SubResult : Prop :=
  ∀ (s : State) (L : Level) (rd ra rb : RegNum), s.level = some L →
    (s.reg ra).valid = true → (s.reg rb).valid = true → ∃ d : Nat,
      (d : Int) = (((s.reg ra).val L : Int) - (s.reg rb).val L) % 2 ^ L.bits ∧
      exec (.sub rd ra rb) s = .next (s.writeReg L rd d).complete

/-- R136, R138: SHR1 and SHR write the floor quotients by 2 and by 2^n; OVF is untouched. -/
def Obligations.ShiftRightResults : Prop :=
  ∀ (s : State) (L : Level) (rd ra : RegNum) (n : BitVec 16), s.level = some L → (s.reg ra).valid = true →
    exec (.shr1 rd ra) s = .next (s.writeReg L rd ((s.reg ra).val L / 2)).complete ∧
    exec (.shr rd ra n) s = .next (s.writeReg L rd ((s.reg ra).val L / 2 ^ n.toNat)).complete

/-- R139: DIV writes quotient and remainder, with a = q·b + r and r < b; b = 0 ends with E_DIVZERO. -/
def Obligations.DivResult : Prop :=
  ∀ (s : State) (L : Level) (rq rr ra rb : RegNum), rq ≠ rr → s.level = some L →
    (s.reg ra).valid = true → (s.reg rb).valid = true →
    ((s.reg rb).val L = 0 → exec (.div rq rr ra rb) s = .next (s.raise .divzero)) ∧
    ((s.reg rb).val L ≠ 0 → ∃ q r, (s.reg ra).val L = q * (s.reg rb).val L + r ∧ r < (s.reg rb).val L ∧
      exec (.div rq rr ra rb) s = .next ((s.writeReg L rq q).writeReg L rr r).complete)

/-- R36, R140, R141, R143: CMP, ISODD and ISNEG write RES. -/
def Obligations.CompareAndPredicateResults : Prop :=
  ∀ (s : State) (L : Level) (ra rb : RegNum) (a b : Nat), s.level = some L →
    (s.reg ra).valid = true → (s.reg ra).val L = a → (s.reg rb).valid = true → (s.reg rb).val L = b →
    exec (.cmp ra rb) s = .next { s with res := if a < b then 0 else if a = b then 1 else 2 }.complete ∧
    exec (.isodd ra) s = .next { s with res := if a % 2 = 1 then 1 else 0 }.complete ∧
    exec (.isneg ra) s = .next { s with res := if a.testBit (L.bits - 1) then 1 else 0 }.complete

/-- R142, R13: ABS copies a value whose sign bit is clear, and writes the magnitude of the L-bit two's
complement number otherwise, except for −2^(L−1), whose result is 2^(L−1). -/
def Obligations.AbsResult : Prop :=
  ∀ (s : State) (L : Level) (rd ra : RegNum), s.level = some L → (s.reg ra).valid = true →
    (((s.reg ra).val L).testBit (L.bits - 1) = false →
      exec (.abs rd ra) s = .next (s.writeReg L rd ((s.reg ra).val L)).complete) ∧
    (((s.reg ra).val L).testBit (L.bits - 1) = true → ∃ m : Nat,
      (m : Int) = - decSigned L ((s.reg ra).val L % 2 ^ L.bits) ∧ 1 ≤ m ∧ m ≤ 2 ^ (L.bits - 1) ∧
      exec (.abs rd ra) s = .next (s.writeReg L rd m).complete)

/-! ## Montgomery engine -/

/-- R43, R160, R161: in a state whose context holds its factor, MONFAC writes 2^(2(L+2)) mod n and leaves the
context holding n and that value; a modulus that is even, below 3 or not settled ends with E_PRECOND. -/
def Obligations.MonfacResult : Prop :=
  ∀ (s : State) (L : Level) (rd rn : RegNum) (n : Nat), s.Inv → s.level = some L →
    (s.reg rn).valid = true → (s.reg rn).val L = n →
    (n < 2 ^ L.bits ∧ n % 2 = 1 ∧ 3 ≤ n → ∃ t : State, exec (.monfac rd rn) s = .next t ∧
      t.mcValid = true ∧ t.mcN.toNat = n ∧ t.mcF.toNat = 2 ^ (2 * (L.bits + 2)) % n ∧
      t = { s.writeReg L rd (2 ^ (2 * (L.bits + 2)) % n) with
        mcValid := true, mcN := t.mcN, mcF := t.mcF }.complete) ∧
    (¬ (n < 2 ^ L.bits ∧ n % 2 = 1 ∧ 3 ≤ n) → exec (.monfac rd rn) s = .next (s.raise .precond))

/-- R160, R162: MONPRO writes the unique p in [0, n) with p·2^(L+2) ≡ a·b (mod n), and does not touch the
context; a bad modulus or an unreduced operand ends with E_PRECOND. -/
def Obligations.MonproResult : Prop :=
  ∀ (s : State) (L : Level) (rd ra rb rn : RegNum) (a b n : Nat), s.level = some L →
    (s.reg ra).valid = true → (s.reg ra).val L = a → (s.reg rb).valid = true → (s.reg rb).val L = b →
    (s.reg rn).valid = true → (s.reg rn).val L = n →
    (n < 2 ^ L.bits ∧ n % 2 = 1 ∧ 3 ≤ n ∧ a < n ∧ b < n → ∃ p, p < n ∧
      p * 2 ^ (L.bits + 2) % n = a * b % n ∧ (∀ q, q < n → q * 2 ^ (L.bits + 2) % n = a * b % n → q = p) ∧
      exec (.monpro rd ra rb rn) s = .next (s.writeReg L rd p).complete) ∧
    (¬ (n < 2 ^ L.bits ∧ n % 2 = 1 ∧ 3 ≤ n ∧ a < n ∧ b < n) →
      exec (.monpro rd ra rb rn) s = .next (s.raise .precond))

/-- R160, R163, R164: MONMUL writes a·b mod n and MONEXP a^b mod n (a^0 = 1), the context holding n
afterwards; a bad modulus, an unreduced operand or an exponent that is not settled ends with E_PRECOND. -/
def Obligations.MonmulAndMonexpResults : Prop :=
  ∀ (s : State) (L : Level) (rd ra rb rn : RegNum) (a b n : Nat), s.level = some L →
    (s.reg ra).valid = true → (s.reg ra).val L = a → (s.reg rb).valid = true → (s.reg rb).val L = b →
    (s.reg rn).valid = true → (s.reg rn).val L = n →
    (ModOK L n ∧ a < n ∧ b < n →
      exec (.monmul rd ra rb rn) s = .next ((s.withContext L n).writeReg L rd (a * b % n)).complete) ∧
    (¬ (ModOK L n ∧ a < n ∧ b < n) → exec (.monmul rd ra rb rn) s = .next (s.raise .precond)) ∧
    (ModOK L n ∧ a < n ∧ b < 2 ^ L.bits →
      exec (.monexp rd ra rb rn) s = .next ((s.withContext L n).writeReg L rd (a ^ b % n)).complete) ∧
    (¬ (ModOK L n ∧ a < n ∧ b < 2 ^ L.bits) → exec (.monexp rd ra rb rn) s = .next (s.raise .precond)) ∧
    (ModOK L n → (s.withContext L n).mcValid = true ∧ (s.withContext L n).mcN.toNat = n)

/-! ## Primality -/

/-- R180, R181: MRWIT's verdict, its checks in order. With n − 1 = 2^t·u, u odd, and x_i = a^(2^i·u) mod n, an
odd n ≥ 3 is reported composite exactly when x_t ≠ 1 or some x_(i+1) = 1 with x_i neither 1 nor n − 1. -/
def Obligations.MrwitResult : Prop :=
  ∀ (s : State) (L : Level) (ra rn : RegNum) (a n : Nat), s.level = some L →
    (s.reg ra).valid = true → (s.reg ra).val L = a → (s.reg rn).valid = true → (s.reg rn).val L = n →
    (2 ^ L.bits ≤ n → exec (.mrwit ra rn) s = .next (s.raise .precond)) ∧
    (n < 2 ^ L.bits → n % 2 = 0 → exec (.mrwit ra rn) s = .next { s with res := 1 }.complete) ∧
    (n < 2 ^ L.bits → n % 2 = 1 → (n < 3 ∨ a = 0 ∨ n ≤ a) →
      exec (.mrwit ra rn) s = .next (s.raise .precond)) ∧
    (n < 2 ^ L.bits → n % 2 = 1 → 3 ≤ n → 1 ≤ a → a < n → ∀ t u, n - 1 = 2 ^ t * u → u % 2 = 1 →
      ((a ^ (2 ^ t * u) % n ≠ 1 ∨ ∃ i < t, a ^ (2 ^ (i + 1) * u) % n = 1 ∧ a ^ (2 ^ i * u) % n ≠ 1 ∧
          a ^ (2 ^ i * u) % n ≠ n - 1) →
        exec (.mrwit ra rn) s = .next { s.withContext L n with res := 1 }.complete) ∧
      (¬ (a ^ (2 ^ t * u) % n ≠ 1 ∨ ∃ i < t, a ^ (2 ^ (i + 1) * u) % n = 1 ∧ a ^ (2 ^ i * u) % n ≠ 1 ∧
          a ^ (2 ^ i * u) % n ≠ n - 1) →
        exec (.mrwit ra rn) s = .next { s.withContext L n with res := 0 }.complete))

/-- R180: for an odd prime n no base in [1, n) is a witness: MRWIT writes RES = 0. -/
def Obligations.MrwitNeverAccusesAPrime : Prop :=
  ∀ (s : State) (L : Level) (ra rn : RegNum), s.level = some L → (s.reg ra).valid = true →
    (s.reg rn).valid = true → (s.reg rn).val L < 2 ^ L.bits → ((s.reg rn).val L).Prime →
    3 ≤ (s.reg rn).val L → 1 ≤ (s.reg ra).val L → (s.reg ra).val L < (s.reg rn).val L →
    exec (.mrwit ra rn) s = .next { s.withContext L ((s.reg rn).val L) with res := 0 }.complete

/-- R182: ISPRIME writes RES = 0 for n < 2 and even n > 2 and 1 for n = 2, pulling no word; for an odd n ≥ 3
the finite runs (log 5) are those in which ten bases drawn in turn are no witness, with RES = 1, or fewer
than ten are none and the next one is, with RES = 0. For a prime n RES = 1, whatever the RNG words. -/
def Obligations.IsprimeResult : Prop :=
  ∀ (s : State) (L : Level) (rn : RegNum) (n : Nat), s.level = some L → (s.reg rn).valid = true →
    (s.reg rn).val L = n →
    (2 ^ L.bits ≤ n → exec (.isprime rn) s = .next (s.raise .precond)) ∧
    (n < 2 → exec (.isprime rn) s = .next { s with res := 0 }.complete) ∧
    (n = 2 → exec (.isprime rn) s = .next { s with res := 1 }.complete) ∧
    (n < 2 ^ L.bits → 2 < n → n % 2 = 0 → exec (.isprime rn) s = .next { s with res := 0 }.complete) ∧
    (n < 2 ^ L.bits → 3 ≤ n → n % 2 = 1 → ∀ verdict pos left,
      (isPrime s.stream n s.granted s.rngTotal = .done verdict pos left ↔
        ∃ bases, DrawnInTurn s.stream n bases s.granted s.rngTotal left pos ∧ RoundsEnd 10 n bases verdict) ∧
      (∀ bases, DrawnInTurn s.stream n bases s.granted s.rngTotal left pos → RoundsEnd 10 n bases verdict →
        exec (.isprime rn) s =
          .next { s.withContext L n with res := if verdict then 1 else 0, rngTotal := pos }.complete ∧
        (n.Prime → verdict = true)))

/-! ## Number theory -/

/-- R190, R191: EGCD writes the gcd and the coefficients of XGcd in L-bit two's complement, whose signed
readings satisfy Bézout's identity over the integers; an operand that is not settled ends with E_PRECOND. -/
def Obligations.EgcdResult : Prop :=
  ∀ (s : State) (L : Level) (rg rx ry ra rb : RegNum) (a b : Nat), [rg, rx, ry].Nodup → s.level = some L →
    (s.reg ra).valid = true → (s.reg ra).val L = a → (s.reg rb).valid = true → (s.reg rb).val L = b →
    (a < 2 ^ L.bits ∧ b < 2 ^ L.bits → ∃ x y : Nat, x < 2 ^ L.bits ∧ y < 2 ^ L.bits ∧
      (decSigned L x, decSigned L y) = (xgcd a b).2 ∧
      (a : Int) * decSigned L x + b * decSigned L y = Nat.gcd a b ∧
      exec (.egcd rg rx ry ra rb) s =
        .next (((s.writeReg L rg (Nat.gcd a b)).writeReg L rx x).writeReg L ry y).complete) ∧
    (¬ (a < 2 ^ L.bits ∧ b < 2 ^ L.bits) → exec (.egcd rg rx ry ra rb) s = .next (s.raise .precond))

/-- R192: MODINV writes the unique d in [1, m) with v·d mod m = 1, or ends with E_NOINV if gcd(v, m) ≠ 1, or
with E_PRECOND if m is not settled or v is not in (0, m). -/
def Obligations.ModinvResult : Prop :=
  ∀ (s : State) (L : Level) (rd rv rm : RegNum) (v m : Nat), s.level = some L →
    (s.reg rv).valid = true → (s.reg rv).val L = v → (s.reg rm).valid = true → (s.reg rm).val L = m →
    (¬ (m < 2 ^ L.bits ∧ 0 < v ∧ v < m) → exec (.modinv rd rv rm) s = .next (s.raise .precond)) ∧
    (m < 2 ^ L.bits ∧ 0 < v ∧ v < m → Nat.gcd v m ≠ 1 → exec (.modinv rd rv rm) s = .next (s.raise .noinv)) ∧
    (m < 2 ^ L.bits ∧ 0 < v ∧ v < m → Nat.gcd v m = 1 → ∃ d, 1 ≤ d ∧ d < m ∧ v * d % m = 1 ∧
      exec (.modinv rd rv rm) s = .next (s.writeReg L rd d).complete)

/-- R194: the finite runs (log 5) of RNDCOP are those in which the last of the values drawn in turn is the first
one coprime to the limit; it is a number in [1, limit) and it is written. A limit that is not settled or is
below 2 ends with E_PRECOND. -/
def Obligations.RndcopResult : Prop :=
  ∀ (s : State) (L : Level) (rd rl : RegNum) (limit : Nat), s.level = some L → (s.reg rl).valid = true →
    (s.reg rl).val L = limit →
    (¬ (limit < 2 ^ L.bits ∧ 2 ≤ limit) → exec (.rndcop rd rl) s = .next (s.raise .precond)) ∧
    (limit < 2 ^ L.bits ∧ 2 ≤ limit → ∀ v pos left,
      (randomCoprime s.stream limit s.granted s.rngTotal = .done v pos left ↔
        FirstCoprime s.stream limit v s.granted s.rngTotal left pos) ∧
      (FirstCoprime s.stream limit v s.granted s.rngTotal left pos →
        1 ≤ v ∧ v < limit ∧ Nat.gcd v limit = 1 ∧ s.rngTotal < pos ∧
        exec (.rndcop rd rl) s = .next { s.writeReg L rd v with rngTotal := pos }.complete))

/-- R195, R196, R197: the finite runs (log 5) of GENCAND are those in which 13 values are drawn below PI; the
candidate is their sum modulo PI, nudged by INC div p for each small prime p that divides it. It is in [1, PI)
and none of the 13 small primes divides it, whatever the RNG words; it is written, and INC. PI is the number of
the table. -/
def Obligations.GencandResult : Prop :=
  (∀ (s : State) (L : Level) (rc ri : RegNum) (c pos left : Nat), rc ≠ ri → s.level = some L →
    (candidate L s.stream s.granted s.rngTotal = .done c pos left ↔
      CandidateDrawn L s.stream c s.granted s.rngTotal left pos) ∧
    (CandidateDrawn L s.stream c s.granted s.rngTotal left pos →
      1 ≤ c ∧ c < Config.pi L ∧ (∀ p ∈ [2, 3, 5, 7, 11, 13, 17, 19, 23, 29, 31, 37, 41], c % p ≠ 0) ∧
      exec (.gencand rc ri) s =
        .next { (s.writeReg L rc c).writeReg L ri 304250263527210 with rngTotal := pos }.complete)) ∧
  Config.pi .l128 = 0xFD97B3006A526198 ∧
  Config.pi .l256 = 0xBA6F92A03B461536D000C11CE875A820 ∧
  Config.pi .l512 = 0xAD16F684A94019F3C312C25213B6B119BD9ECEE5E13EBB26EDF99DB4BDED90C0 ∧
  Config.pi .l1024 =
    0xADB629C0DBF45B4232F0661EA83B5227D4DE379A93DF697EF4B01570E7350E9B77195121851EA4AC500F966BC76BE50B902F8187D2CEB1C9281F44E5EB9A1000

/-- R198, R199: the finite runs (log 5) of FINDPR are those in which a candidate is drawn and then p is the first
number accepted by the test on the way from it in steps of INC modulo PI, a new candidate drawn at 1. It is a
number with 43 ≤ p < PI < 2^(L/2) that no small prime divides; it is written, the context holding it afterwards
(the model's reading of the last `Factor` call, log 11). -/
def Obligations.FindprResult : Prop :=
  ∀ (s : State) (L : Level) (rd : RegNum) (p pos left : Nat), s.level = some L →
    (findPrime L s.stream s.granted s.rngTotal = .done p pos left ↔
      PrimeFound L s.stream p s.granted s.rngTotal left pos) ∧
    (PrimeFound L s.stream p s.granted s.rngTotal left pos →
      43 ≤ p ∧ p < Config.pi L ∧ Config.pi L < 2 ^ (L.bits / 2) ∧
      (∀ q ∈ [2, 3, 5, 7, 11, 13, 17, 19, 23, 29, 31, 37, 41], p % q ≠ 0) ∧
      (∃ bases l q, DrawnInTurn s.stream p bases l q left pos ∧ RoundsEnd 10 p bases true) ∧
      exec (.findpr rd) s = .next { (s.withContext L p).writeReg L rd p with rngTotal := pos }.complete)

/-! ## RSA -/

/-- R210, R211: the finite runs (log 5) of GENKEY are those in which two primes p1, p2 are found in turn, again
until n = p1·p2 exceeds INF, and then e is the first value drawn coprime to phi = (p1 − 1)(p2 − 1), d its inverse.
n is below 2^L, both primes are odd, at least 43 and have passed the test, e and d are in [1, phi); n, e, d are
written, the context holding p2 afterwards (the model's reading of the last `Factor` call, log 11). -/
def Obligations.GenkeyResult : Prop :=
  ∀ (s : State) (L : Level) (rn re rd : RegNum) (k : KeyPair) (pos left : Nat), [rn, re, rd].Nodup →
    s.level = some L →
    (genKey L s.stream s.granted s.rngTotal = .done k pos left ↔
      ∃ p1, KeyDrawn L s.stream p1 k s.granted s.rngTotal left pos) ∧
    (∀ p1, KeyDrawn L s.stream p1 k s.granted s.rngTotal left pos →
      (k.n = p1 * k.p2 ∧ p1 % 2 = 1 ∧ k.p2 % 2 = 1 ∧ 43 ≤ p1 ∧ 43 ≤ k.p2 ∧
        (2 ^ L.bits - 1) / (2 ^ 64 - 1) < k.n ∧ k.n < 2 ^ L.bits ∧
        1 ≤ k.e ∧ k.e < (p1 - 1) * (k.p2 - 1) ∧ 1 ≤ k.d ∧ k.d < (p1 - 1) * (k.p2 - 1) ∧
        k.e * k.d % ((p1 - 1) * (k.p2 - 1)) = 1) ∧
      (∀ p ∈ [p1, k.p2], ∃ bases l q l' q',
        DrawnInTurn s.stream p bases l q l' q' ∧ RoundsEnd 10 p bases true) ∧
      exec (.genkey rn re rd) s =
        .next { (((s.withContext L k.p2).writeReg L rn k.n).writeReg L re k.e).writeReg L rd k.d with
          rngTotal := pos }.complete)

/-- R212, R213: ENCODE's checks in order, the escape, and the normal ciphertext (the hidden context: log 11). -/
def Obligations.EncodeResult : Prop :=
  ∀ (s : State) (L : Level) (rd rdata rexp rn : RegNum) (data exp n : Nat), s.level = some L →
    (s.reg rdata).valid = true → (s.reg rdata).val L = data → (s.reg rexp).valid = true →
    (s.reg rexp).val L = exp → (s.reg rn).valid = true → (s.reg rn).val L = n →
    (¬ (ModOK L n ∧ data < 2 ^ L.bits ∧ exp < 2 ^ L.bits) →
      exec (.encode rd rdata rexp rn) s = .next (s.raise .precond)) ∧
    (ModOK L n ∧ data < 2 ^ L.bits ∧ exp < 2 ^ L.bits →
      (2 ^ 64 - 1 ≤ data / n → exec (.encode rd rdata rexp rn) s = .next (s.raise .capacity)) ∧
      (data / n < 2 ^ 64 - 1 → data % n ≤ 1 → s.xpadValid = false →
        exec (.encode rd rdata rexp rn) s = .next (s.raise .uninit)) ∧
      (data / n < 2 ^ 64 - 1 → data % n ≤ 1 → s.xpadValid = true →
        exec (.encode rd rdata rexp rn) s =
          .next (s.writeReg L rd ((data ^^^ s.xpad.toNat) + (2 ^ 64 - 1) * 2 ^ L.bits)).complete) ∧
      (data / n < 2 ^ 64 - 1 → 2 ≤ data % n →
        exec (.encode rd rdata rexp rn) s =
          .next ((s.withContext L n).writeReg L rd
            ((data % n) ^ exp % n + data / n * 2 ^ L.bits)).complete))

/-- R212, R214: DECODE's checks in order, the escape, and the normal plaintext (the hidden context: log 11). -/
def Obligations.DecodeResult : Prop :=
  ∀ (s : State) (L : Level) (rd rc rexp rn : RegNum) (c exp n : Nat), s.level = some L →
    (s.reg rc).valid = true → (s.reg rc).val L = c → (s.reg rexp).valid = true →
    (s.reg rexp).val L = exp → (s.reg rn).valid = true → (s.reg rn).val L = n →
    (¬ (ModOK L n ∧ exp < 2 ^ L.bits) → exec (.decode rd rc rexp rn) s = .next (s.raise .precond)) ∧
    (ModOK L n ∧ exp < 2 ^ L.bits →
      (c / 2 ^ L.bits = 2 ^ 64 - 1 → s.xpadValid = false →
        exec (.decode rd rc rexp rn) s = .next (s.raise .uninit)) ∧
      (c / 2 ^ L.bits = 2 ^ 64 - 1 → s.xpadValid = true →
        exec (.decode rd rc rexp rn) s =
          .next (s.writeReg L rd ((c % 2 ^ L.bits) ^^^ s.xpad.toNat)).complete) ∧
      (c / 2 ^ L.bits ≠ 2 ^ 64 - 1 → n ≤ c % 2 ^ L.bits →
        exec (.decode rd rc rexp rn) s = .next (s.raise .precond)) ∧
      (c / 2 ^ L.bits ≠ 2 ^ 64 - 1 → c % 2 ^ L.bits < n →
        2 ^ L.bits ≤ c / 2 ^ L.bits * n + (c % 2 ^ L.bits) ^ exp % n →
        exec (.decode rd rc rexp rn) s = .next (s.raise .capacity)) ∧
      (c / 2 ^ L.bits ≠ 2 ^ 64 - 1 → c % 2 ^ L.bits < n →
        c / 2 ^ L.bits * n + (c % 2 ^ L.bits) ^ exp % n < 2 ^ L.bits →
        exec (.decode rd rc rexp rn) s =
          .next ((s.withContext L n).writeReg L rd
            (c / 2 ^ L.bits * n + (c % 2 ^ L.bits) ^ exp % n)).complete))

/-- R215: for a valid key pair, data below 2^L whose quotient fits (which it always does when n exceeds INF),
and an XPAD that is valid and the same at both commands, DECODE of what ENCODE wrote is the data, on the
normal and on the escape path. -/
def Obligations.EncodeThenDecodeIsTheData : Prop :=
  ∀ (s : State) (L : Level) (rc rdata re rn : RegNum) (p q e d n data : Nat),
    p.Prime → q.Prime → p ≠ q → p % 2 = 1 → q % 2 = 1 → n = p * q → n < 2 ^ L.bits →
    e < 2 ^ L.bits → d < 2 ^ L.bits → e * d % ((p - 1) * (q - 1)) = 1 →
    data < 2 ^ L.bits → (data / n ≤ 2 ^ 64 - 2 ∨ (2 ^ L.bits - 1) / (2 ^ 64 - 1) < n) →
    s.level = some L → s.xpadValid = true →
    s.xpad.toNat < 2 ^ L.bits → s.err = none →
    (s.reg rdata).valid = true → (s.reg rdata).val L = data → (s.reg re).valid = true →
    (s.reg re).val L = e → (s.reg rn).valid = true → (s.reg rn).val L = n →
    ∃ t, exec (.encode rc rdata re rn) s = .next t ∧ t.err = none ∧ (t.reg rc).valid = true ∧
      ∀ (s2 : State) (rd rc2 rd2 rn2 : RegNum), s2.level = some L → s2.xpadValid = true →
        s2.xpad = s.xpad → s2.err = none → s2.reg rc2 = t.reg rc → (s2.reg rd2).valid = true →
        (s2.reg rd2).val L = d → (s2.reg rn2).valid = true → (s2.reg rn2).val L = n →
        ∃ t2, exec (.decode rd rc2 rd2 rn2) s2 = .next t2 ∧ t2.err = none ∧ (t2.reg rd).valid = true ∧
          (t2.reg rd).val L = data

/-! ## Cancellation -/

/-- R239: a request already present at the accept ends a cancellable command at its first cancellation point,
with RNGCNT unchanged, whenever its run has one: each of the five commands, its own checks passed. -/
def Obligations.AbortAtTheAcceptEndsAtTheFirstPoint : Prop :=
  ∀ (s : State) (L : Level) (r1 r2 r3 : RegNum), s.abort0 = true → s.abort = true → s.level = some L →
    ((s.reg r1).valid = true → (s.reg r1).val L < 2 ^ L.bits → (s.reg r1).val L % 2 = 1 →
      3 ≤ (s.reg r1).val L → exec (.isprime r1) s = .next (s.raise .abort)) ∧
    ((s.reg r1).valid = true → (s.reg r1).val L < 2 ^ L.bits → 2 ≤ (s.reg r1).val L →
      exec (.rndcop r2 r1) s = .next (s.raise .abort)) ∧
    (r1 ≠ r2 → exec (.gencand r1 r2) s = .next (s.raise .abort)) ∧
    exec (.findpr r1) s = .next (s.raise .abort) ∧
    ([r1, r2, r3].Nodup → exec (.genkey r1 r2 r3) s = .next (s.raise .abort))

/-- R239: no command ends with E_ABORT unless CTRL.ABORT is set when its completion step is taken or was set
at its accept. -/
def Obligations.NoAbortWithoutARequest : Prop :=
  ∀ (i : Instr) (s t : State), s.err = none → s.abort = false → s.abort0 = false → exec i s = .next t →
    t.err ≠ some .abort

/-- Derived from R14, R93, R239 (the model's choice of log 5): once a command completes, granting its run
more passes changes nothing of the outcome. -/
def Obligations.MorePassesDoNotChangeTheOutcome : Prop :=
  ∀ (i : Instr) (s t : State) (more : Nat), s.busy = true → exec i s = .next t → t.busy = false →
    t.err ≠ some .abort →
    exec i { s with passes := s.passes + more } = .next { t with passes := t.passes + more }

/-! ## Serialization -/

/-- R74: exporting a valid register (its 17 words and top) and importing it into any register of the same
idle core under the same level reproduces it exactly. -/
def Obligations.ExportThenImportReproducesTheRegister : Prop :=
  ∀ (s : State) (L : Level) (r q : RegNum), s.Inv → s.busy = false → s.level = some L →
    (s.reg r).valid = true →
    ∃ t, exec (.importTop q)
        ((((List.finRange 17).foldl (fun u i => u.hostWrite (.word q i) (s.content (.word r i))) s).hostWrite
          (.top q) (s.content (.top r)))) = .next t ∧ t.reg q = s.reg r ∧ t.err = s.err

/-! ## Datapath methods -/

/-- R161, R163, R164, R165: the datapath methods of the Montgomery engine compute the stated results: the
bit-serial loop the Montgomery product, four products the modular product, the walk in residue form the
modular power, doubling and subtracting the factor. -/
def Obligations.MontgomeryDatapathRefinesTheResults : Prop :=
  ∀ (L : Level) (a b e n : Nat), ModOK L n → a < n → b < n →
    Datapath.monProLoop L a b n = monPro L a b n ∧
    Datapath.monMul L a b n = a * b % n ∧
    Datapath.monExp L a e n = a ^ e % n ∧
    Datapath.factorLoop n (2 * (L.bits + 2)) 1 = 2 ^ (2 * (L.bits + 2)) % n

/-- R131, R132, R134, R135, R139, R140: the word-level methods of the BigInt datapath compute the stated results:
ripple carry, invert and add one, shift-and-add multiplication, the word shift, restoring division, and
comparison by top index and then words of canonical registers. -/
def Obligations.WordDatapathRefinesTheResults : Prop :=
  (∀ xs ys : List Word, xs.length = ys.length →
    wordsValue (Datapath.rippleAdd xs ys 0).1 + 2 ^ (64 * xs.length) * (Datapath.rippleAdd xs ys 0).2 =
      wordsValue xs + wordsValue ys ∧
    wordsValue (Datapath.negate xs) = (2 ^ (64 * xs.length) - wordsValue xs) % 2 ^ (64 * xs.length) ∧
    wordsValue (Datapath.shiftLeftOnce xs 0) = 2 * wordsValue xs % 2 ^ (64 * xs.length)) ∧
  (∀ m a b k : Nat, b < 2 ^ k → Datapath.shiftAdd m k a b 0 = a * b % m) ∧
  (∀ a b k : Nat, 0 < b → a < 2 ^ k → Datapath.restoringDivide a b k 0 0 = (a / b, a % b)) ∧
  (∀ (L : Level) (x y : BigReg), x.Canonical L → y.Canonical L →
    Datapath.compareRegs x y = compare (x.val L) (y.val L))

/-! ## Invariant -/

/-- R46: the state after reset meets the invariant. -/
def Obligations.ResetStateMeetsTheInvariant : Prop := State.reset.Inv

/-- R22, R23, R39, R43, R92: every step from a state that meets the invariant, whatever the outside world
presents, gives a state that meets it. -/
def Obligations.StepKeepsTheInvariant : Prop :=
  ∀ s t : State, s.Inv → step s = .next t → t.Inv

/-! ## RNG port -/

/-- R41, R42: one pass of `Draw(limit)` pulls ceil(k/64) words, k the bit length of limit − 1, the first word least
significant; their value modulo 2^k is the result if it is in [1, limit), and else the next pass follows. A pass
that is not granted (log 5) or that the source does not serve (log 13) leaves the run at the point before it. -/
def Obligations.DrawMasksAndRejects : Prop :=
  ∀ (s : State) (limit k nw left pos : Nat), 2 ≤ limit → 2 ^ (k - 1) ≤ limit - 1 → limit - 1 < 2 ^ k →
    64 * (nw - 1) < k → k ≤ 64 * nw →
    (∀ ws : List Word, ws.length = nw → (∀ j < nw, s.stream (pos + j) = ws[j]?) →
      (1 ≤ wordsValue ws % 2 ^ k → wordsValue ws % 2 ^ k < limit →
        draw s.stream limit (left + 1) pos = .done (wordsValue ws % 2 ^ k) (pos + nw) left) ∧
      (¬ (1 ≤ wordsValue ws % 2 ^ k ∧ wordsValue ws % 2 ^ k < limit) →
        draw s.stream limit (left + 1) pos = draw s.stream limit left (pos + nw))) ∧
    (∀ j < nw, s.stream (pos + j) = none → draw s.stream limit (left + 1) pos = .atPoint pos) ∧
    draw s.stream limit 0 pos = .atPoint pos
end

