-- ==== Sys2Proof/Laws/Arithmetic.lean ====
section
/-! SUPPORT. What the mathematical functions of the rules compute: the modular power, extended Euclid and the
inverse, the Montgomery product, and the witness function. -/

namespace Sys2Proof.Machine

/-! ### Modular power -/

theorem powLoop_eq (n : Nat) : ∀ (k b e acc : Nat), e < 2 ^ k → powLoop n k b e acc % n = acc * b ^ e % n := by
  intro k
  induction k with
  | zero => intro b e acc h; simp at h; simp [powLoop, h]
  | succ k ih =>
    intro b e acc h
    rw [powLoop, ih _ _ _ (by omega)]
    have hb : (b * b % n) ^ (e / 2) ≡ (b * b) ^ (e / 2) [MOD n] := (Nat.mod_modEq _ _).pow _
    split
    · have he : e = 2 * (e / 2) + 1 := by omega
      have : acc * b % n * (b * b % n) ^ (e / 2) ≡ acc * b * (b * b) ^ (e / 2) [MOD n] :=
        (Nat.mod_modEq _ _).mul hb
      rw [this]
      conv_rhs => rw [he, pow_succ, pow_mul, pow_two]
      congr 1; ring
    · have he : e = 2 * (e / 2) := by omega
      rw [hb.mul_left acc]
      conv_rhs => rw [he, pow_mul, pow_two]

theorem powLoop_lt (n : Nat) (hn : 0 < n) : ∀ (k b e acc : Nat), acc < n → powLoop n k b e acc < n := by
  intro k
  induction k with
  | zero => intro b e acc h; exact h
  | succ k ih =>
    intro b e acc h
    rw [powLoop]
    apply ih
    split
    · exact Nat.mod_lt _ hn
    · exact h

theorem lt_two_pow_bitlen (v : Nat) : v < 2 ^ bitlen v := by
  unfold bitlen
  split
  · simp [*]
  · exact Nat.lt_log2_self

/-- `powMod` is the modular power (spec/00_scope.md R10). -/
theorem powMod_eq (b e n : Nat) (hn : 0 < n) : powMod b e n = b ^ e % n := by
  have h1 := powLoop_lt n hn (bitlen e) (b % n) e (1 % n) (Nat.mod_lt _ hn)
  have h2 := powLoop_eq n (bitlen e) (b % n) e (1 % n) (lt_two_pow_bitlen e)
  rw [Nat.mod_eq_of_lt h1] at h2
  rw [powMod, h2]
  have : 1 % n * (b % n) ^ e ≡ 1 * b ^ e [MOD n] := (Nat.mod_modEq _ _).mul ((Nat.mod_modEq _ _).pow _)
  rw [this, one_mul]

/-! ### Extended Euclid -/

/-- What the loop of XGcd keeps, from the pair (a, b): both rows are combinations of a and b, and the
coefficients grow with alternating signs towards b/g and a/g. -/
structure XInv (a b r0 r1 : Nat) (s0 s1 t0 t1 : Int) (odd : Bool) : Prop where
  row0 : (r0 : Int) = a * s0 + b * t0
  row1 : (r1 : Int) = a * s1 + b * t1
  gcd : Nat.gcd r0 r1 = Nat.gcd a b
  bs : s1.natAbs * r0 + s0.natAbs * r1 = b
  at_ : t1.natAbs * r0 + t0.natAbs * r1 = a
  ss : if odd then 0 ≤ s0 ∧ s1 ≤ 0 else s0 ≤ 0 ∧ 0 ≤ s1
  ts : if odd then t0 ≤ 0 ∧ 0 ≤ t1 else 0 ≤ t0 ∧ t1 ≤ 0

theorem XInv.step {a b r0 r1 : Nat} {s0 s1 t0 t1 : Int} {odd : Bool} (h : XInv a b r0 r1 s0 s1 t0 t1 odd) :
    XInv a b r1 (r0 % r1) s1 (s0 - ((r0 / r1 : Nat) : Int) * s1) t1 (t0 - ((r0 / r1 : Nat) : Int) * t1) (!odd) := by
  have hq : (r0 : Int) = r1 * ((r0 / r1 : Nat) : Int) + (r0 % r1 : Nat) := by exact_mod_cast (Nat.div_add_mod r0 r1).symm
  have hqn := Nat.div_add_mod r0 r1
  have hg : Nat.gcd r1 (r0 % r1) = Nat.gcd r0 r1 := by rw [Nat.gcd_comm, ← Nat.gcd_rec, Nat.gcd_comm]
  obtain ⟨h0, h1, hgg, hbs, hat, hss, hts⟩ := h
  have ht0 : ((r0 % r1 : Nat) : Int) = r0 - r1 * ((r0 / r1 : Nat) : Int) := by omega
  generalize r0 / r1 = q at *
  generalize r0 % r1 = m at *
  have q0 : (0 : Int) ≤ q := Int.natCast_nonneg _
  have abs_s : ∀ {x y : Int}, (0 ≤ x ∧ y ≤ 0) ∨ (x ≤ 0 ∧ 0 ≤ y) →
      (x - (q : Int) * y).natAbs = x.natAbs + q * y.natAbs := by
    intro x y hxy
    zify
    rcases hxy with ⟨h1, h2⟩ | ⟨h1, h2⟩
    · rw [abs_of_nonneg (by nlinarith), abs_of_nonneg h1, abs_of_nonpos h2]; ring
    · rw [abs_of_nonpos (by nlinarith), abs_of_nonpos h1, abs_of_nonneg h2]; ring
  refine ⟨h1, ?_, by rw [hg, hgg], ?_, ?_, ?_, ?_⟩
  · rw [ht0, h0, h1]; ring
  · rw [abs_s (by cases odd <;> simp at hss <;> tauto), ← hbs, ← hqn]; ring
  · rw [abs_s (by cases odd <;> simp at hts <;> tauto), ← hat, ← hqn]; ring
  · cases odd <;> simp at hss ⊢ <;> constructor <;> nlinarith
  · cases odd <;> simp at hts ⊢ <;> constructor <;> nlinarith

/-- The loop's answer: the gcd, Bézout's identity, and coefficients at most half of the other operand over
the gcd (or at most 1). -/
theorem xgcdLoop_spec (a b : Nat) : ∀ (fuel r0 r1 : Nat) (s0 s1 t0 t1 : Int) (odd : Bool), r1 < fuel → r1 < r0 ∨ r0 = r1 ∧ s0 = 1 ∧ s1 = 0 ∧ t0 = 0 ∧ t1 = 1 →
    (2 * s0.natAbs ≤ max b 2 ∧ 2 * t0.natAbs ≤ max a 2) →
    XInv a b r0 r1 s0 s1 t0 t1 odd →
    (xgcdLoop fuel r0 r1 s0 s1 t0 t1).1 = Nat.gcd a b ∧
    (a : Int) * (xgcdLoop fuel r0 r1 s0 s1 t0 t1).2.1 + b * (xgcdLoop fuel r0 r1 s0 s1 t0 t1).2.2 = Nat.gcd a b ∧
    2 * (xgcdLoop fuel r0 r1 s0 s1 t0 t1).2.1.natAbs ≤ max b 2 ∧
    2 * (xgcdLoop fuel r0 r1 s0 s1 t0 t1).2.2.natAbs ≤ max a 2 := by
  intro fuel
  induction fuel with
  | zero => intro r0 r1 _ _ _ _ _ h; omega
  | succ fuel ih =>
    intro r0 r1 s0 s1 t0 t1 odd hf hlt hb h
    rw [xgcdLoop]
    by_cases h1 : r1 = 0
    · simp only [h1, if_true]
      have hg := h.gcd
      rw [h1, Nat.gcd_zero_right] at hg
      refine ⟨hg, ?_, hb.1, hb.2⟩
      rw [← hg, h.row0]
    · simp only [h1, if_false]
      have hm : r0 % r1 < r1 := Nat.mod_lt _ (by omega)
      refine ih r1 (r0 % r1) _ _ _ _ (!odd) (by omega) (.inl hm) ?_ h.step
      have e1 := h.bs
      have e2 := h.at_
      rcases hlt with hlt | ⟨rfl, rfl, rfl, rfl, rfl⟩
      · constructor
        · by_cases hs : s1 = 0
          · simp [hs]
          · have : 1 ≤ s1.natAbs := by omega
            by_cases h2 : 2 ≤ r0
            · have : s1.natAbs * 2 ≤ s1.natAbs * r0 := Nat.mul_le_mul_left _ h2
              have := le_max_left b 2
              omega
            · omega
        · by_cases hs : t1 = 0
          · simp [hs]
          · have : 1 ≤ t1.natAbs := by omega
            by_cases h2 : 2 ≤ r0
            · have : t1.natAbs * 2 ≤ t1.natAbs * r0 := Nat.mul_le_mul_left _ h2
              have := le_max_left a 2
              omega
            · omega
      · simp

/-- XGcd (spec/44_number_theory.md R190): the gcd, Bézout's identity over the integers, and the size of the
coefficients. -/
theorem xgcd_spec (a b : Nat) :
    (xgcd a b).1 = Nat.gcd a b ∧ (a : Int) * (xgcd a b).2.1 + b * (xgcd a b).2.2 = Nat.gcd a b ∧
    2 * (xgcd a b).2.1.natAbs ≤ max b 2 ∧ 2 * (xgcd a b).2.2.natAbs ≤ max a 2 := by
  have start : ∀ c d : Nat, XInv c d c d 1 0 0 1 true := fun c d =>
    ⟨by ring, by ring, rfl, by simp, by simp, by simp, by simp⟩
  unfold xgcd
  split
  · have := xgcdLoop_spec b a (a + 1) b a 1 0 0 1 true (by omega) (.inl (by omega)) (by simp) (start b a)
    rw [Nat.gcd_comm a b]
    obtain ⟨h1, h2, h3, h4⟩ := this
    refine ⟨h1, ?_, h4, h3⟩
    simp only
    linarith
  · exact xgcdLoop_spec a b (b + 1) a b 1 0 0 1 true (by omega) (by simp; omega) (by simp) (start a b)

/-- Gcd (spec/44_number_theory.md R193). -/
theorem gcdOf_eq (a b : Nat) : gcdOf a b = Nat.gcd a b := (xgcd_spec a b).1

/-- MODINV's result (spec/44_number_theory.md R192). -/
theorem inverseOf_spec {v m : Nat} (hv : 0 < v) (hm : v < m) (hg : Nat.gcd v m = 1) :
    1 ≤ inverseOf v m ∧ inverseOf v m < m ∧ v * inverseOf v m % m = 1 := by
  obtain ⟨_, h2, _, h4⟩ := xgcd_spec m v
  unfold inverseOf
  generalize hy : (xgcd m v).2.2 = y at *
  generalize (xgcd m v).2.1 = x at *
  rw [Nat.gcd_comm, hg] at h2
  have hm2 : 2 ≤ m := by omega
  rw [max_eq_left hm2] at h4
  have hy0 : y ≠ 0 := by
    rintro rfl
    have : (m : Int) ∣ 1 := ⟨x, by push_cast at h2; linarith⟩
    have := Int.le_of_dvd (by norm_num) this
    omega
  obtain ⟨d, hd⟩ : ∃ d : Int, d = if y < 0 then y + m else y := ⟨_, rfl⟩
  simp only [← hd]
  have hd1 : 1 ≤ d := by rw [hd]; split <;> omega
  have hd2 : d < m := by rw [hd]; split <;> omega
  have hmod : (v : Int) * d ≡ 1 [ZMOD m] := by
    have : (v : Int) * y ≡ 1 [ZMOD m] := by
      rw [Int.modEq_iff_dvd]
      exact ⟨x, by push_cast at h2; linarith⟩
    rw [hd]; split
    · rw [mul_add]
      simpa using this.add (show (v : Int) * m ≡ 0 [ZMOD m] from by simp [Int.ModEq])
    · exact this
  obtain ⟨k, rfl⟩ := Int.eq_ofNat_of_zero_le (show 0 ≤ d by omega)
  rw [Int.toNat_natCast]
  refine ⟨by exact_mod_cast hd1, by exact_mod_cast hd2, ?_⟩
  have h5 : v * k ≡ 1 [MOD m] := by exact_mod_cast (Int.natCast_modEq_iff.mp (by push_cast; exact hmod))
  rw [h5, Nat.mod_eq_of_lt (by omega)]

/-! ### Montgomery -/

theorem radix_coprime (L : Level) {n : Nat} (hn : n % 2 = 1) : Nat.Coprime (Config.radix L) n := by
  unfold Config.radix
  apply Nat.Coprime.pow_left
  rw [Nat.coprime_two_left, Nat.odd_iff]; exact hn

/-- The Montgomery product (spec/42_montgomery.md R162): below n, and times R congruent to a·b. -/
theorem monPro_spec (L : Level) (a b : Nat) {n : Nat} (h2 : n % 2 = 1) (h3 : 3 ≤ n) :
    monPro L a b n < n ∧ monPro L a b n * Config.radix L % n = a * b % n := by
  have hc := radix_coprime L h2
  have hg : Nat.gcd (Config.radix L % n) n = 1 := by rw [← Nat.gcd_rec, Nat.gcd_comm]; exact hc
  have hp : 0 < Config.radix L % n := by
    rcases Nat.eq_zero_or_pos (Config.radix L % n) with h | h
    · rw [h, Nat.gcd_zero_left] at hg; omega
    · exact h
  obtain ⟨_, _, hi⟩ := inverseOf_spec hp (Nat.mod_lt _ (by omega)) hg
  refine ⟨Nat.mod_lt _ (by omega), ?_⟩
  unfold monPro
  generalize inverseOf (Config.radix L % n) n = d at *
  have h1 : d * Config.radix L ≡ 1 [MOD n] := by
    have : Config.radix L % n * d ≡ Config.radix L * d [MOD n] := (Nat.mod_modEq _ _).mul_right _
    rw [mul_comm]
    refine this.symm.trans ?_
    rw [Nat.ModEq, hi, Nat.mod_eq_of_lt (by omega)]
  have h2 : a * b * d % n * Config.radix L ≡ a * b * (d * Config.radix L) [MOD n] := by
    rw [← mul_assoc]; exact (Nat.mod_modEq _ _).mul_right _
  exact (h2.trans (h1.mul_left (a * b))).trans (by rw [mul_one])

/-- The Montgomery product is the only number below n that times R is congruent to a·b. -/
theorem monPro_unique (L : Level) (a b : Nat) {n p : Nat} (h2 : n % 2 = 1) (h3 : 3 ≤ n) (hp : p < n)
    (h : p * Config.radix L % n = a * b % n) : p = monPro L a b n := by
  obtain ⟨hl, he⟩ := monPro_spec L a b h2 h3
  have : p * Config.radix L ≡ monPro L a b n * Config.radix L [MOD n] := h.trans he.symm
  have := Nat.ModEq.cancel_right_of_coprime (by rw [Nat.gcd_comm]; exact radix_coprime L h2) this
  exact this.eq_of_lt_of_lt hp hl

/-! ### The witness function -/

theorem splitTwos_spec : ∀ (fuel u : Nat), 0 < u → u ≤ fuel →
    u = 2 ^ (splitTwos fuel u).1 * (splitTwos fuel u).2 ∧ (splitTwos fuel u).2 % 2 = 1 := by
  intro fuel
  induction fuel with
  | zero => intro u h1 h2; omega
  | succ fuel ih =>
    intro u h1 h2
    rw [splitTwos]
    split
    · obtain ⟨h3, h4⟩ := ih (u / 2) (by omega) (by omega)
      refine ⟨?_, h4⟩
      simp only
      rw [pow_succ, mul_assoc, mul_left_comm, ← h3]; omega
    · simp; omega

theorem two_pow_mul_odd_unique {t u t' u' : Nat} (hu : u % 2 = 1) (hu' : u' % 2 = 1)
    (h : 2 ^ t * u = 2 ^ t' * u') : t = t' ∧ u = u' := by
  induction t generalizing t' with
  | zero =>
    cases t' with
    | zero => simpa using h
    | succ t' => rw [pow_succ] at h; simp at h; rw [h, mul_right_comm, Nat.mul_mod_left] at hu; omega
  | succ t ih =>
    cases t' with
    | zero => rw [pow_succ] at h; simp at h; rw [← h, mul_right_comm, Nat.mul_mod_left] at hu'; omega
    | succ t' =>
      rw [pow_succ, pow_succ, mul_right_comm, mul_right_comm (2 ^ t')] at h
      obtain ⟨h1, h2⟩ := ih (Nat.eq_of_mul_eq_mul_right (by norm_num) h)
      exact ⟨by rw [h1], h2⟩

theorem witnessLoop_eq (a n : Nat) (t : Nat) : ∀ u, witnessLoop n t (a ^ u % n) = true ↔
    a ^ (2 ^ t * u) % n ≠ 1 ∨ ∃ i < t, a ^ (2 ^ (i + 1) * u) % n = 1 ∧ a ^ (2 ^ i * u) % n ≠ 1 ∧
      a ^ (2 ^ i * u) % n ≠ n - 1 := by
  induction t with
  | zero => intro u; simp [witnessLoop]
  | succ t ih =>
    intro u
    have hx : a ^ u % n * (a ^ u % n) % n = a ^ (2 * u) % n := by
      rw [← Nat.mul_mod, ← pow_add, two_mul]
    have e : ∀ i, 2 ^ i * (2 * u) = 2 ^ (i + 1) * u := fun i => by ring
    rw [witnessLoop]
    simp only [hx]
    split
    · rename_i h
      simp only [true_iff]
      exact .inr ⟨0, by omega, by simpa using h.1, by simpa using h.2.1, by simpa using h.2.2⟩
    · rename_i h
      rw [ih (2 * u)]
      simp only [e]
      constructor
      · rintro (h1 | ⟨i, hi, h2⟩)
        · exact .inl h1
        · exact .inr ⟨i + 1, by omega, h2⟩
      · rintro (h1 | ⟨i, hi, h2⟩)
        · exact .inl h1
        · cases i with
          | zero => exact absurd (by simpa using h2) h
          | succ i => exact .inr ⟨i, by omega, h2⟩

/-- The witness function (spec/43_primality.md R180), from any split n − 1 = 2^t·u with u odd. -/
theorem witness_iff {a n t u : Nat} (hn : 2 ≤ n) (hu : u % 2 = 1) (h : n - 1 = 2 ^ t * u) :
    witness a n = true ↔
      a ^ (2 ^ t * u) % n ≠ 1 ∨ ∃ i < t, a ^ (2 ^ (i + 1) * u) % n = 1 ∧ a ^ (2 ^ i * u) % n ≠ 1 ∧
        a ^ (2 ^ i * u) % n ≠ n - 1 := by
  obtain ⟨h1, h2⟩ := splitTwos_spec n (n - 1) (by omega) (by omega)
  obtain ⟨ht, hu'⟩ := two_pow_mul_odd_unique h2 hu (h1.symm.trans h)
  have : witness a n = witnessLoop n (splitTwos n (n - 1)).1 (powMod a (splitTwos n (n - 1)).2 n) := rfl
  rw [this, ht, hu', powMod_eq _ _ _ (by omega), witnessLoop_eq]

/-- No base below a prime is a witness. -/
theorem witness_prime {a n : Nat} (hp : n.Prime) (ha : 1 ≤ a) (han : a < n) : witness a n = false := by
  have h2 := hp.two_le
  obtain ⟨h1, hodd⟩ := splitTwos_spec n (n - 1) (by omega) (by omega)
  rw [← Bool.not_eq_true, witness_iff h2 hodd h1]
  rw [← h1]
  have hdvd : ¬ n ∣ a := Nat.not_dvd_of_pos_of_lt ha han
  have hfermat : a ^ (n - 1) % n = 1 := by
    have := Nat.ModEq.pow_totient ((Nat.Prime.coprime_iff_not_dvd hp).mpr hdvd).symm
    rw [Nat.totient_prime hp] at this
    rw [this, Nat.mod_eq_of_lt (by omega)]
  rintro (h | ⟨i, _, h3, h4, h5⟩)
  · exact h hfermat
  · have hk : a ^ (2 ^ (i + 1) * (splitTwos n (n - 1)).2) =
        a ^ (2 ^ i * (splitTwos n (n - 1)).2) * a ^ (2 ^ i * (splitTwos n (n - 1)).2) := by
      rw [← pow_add]; congr 1; ring
    rw [hk, Nat.mul_mod] at h3
    have hx := Nat.mod_lt (a ^ (2 ^ i * (splitTwos n (n - 1)).2)) (show 0 < n by omega)
    generalize a ^ (2 ^ i * (splitTwos n (n - 1)).2) % n = x at *
    have hx0 : 1 ≤ x := by
      rcases Nat.eq_zero_or_pos x with rfl | h
      · simp at h3
      · exact h
    have hd : n ∣ (x - 1) * (x + 1) := by
      have h6 : x * x ≡ 1 [MOD n] := by rw [Nat.ModEq, h3, Nat.mod_eq_of_lt (by omega)]
      have h7 := (Nat.modEq_iff_dvd' (by nlinarith)).mp h6.symm
      have : (x - 1) * (x + 1) = x * x - 1 := by
        rw [mul_comm, ← Nat.sq_sub_sq]; simp [pow_two]
      rwa [this]
    rcases (Nat.Prime.dvd_mul hp).mp hd with h | h
    · have := Nat.eq_zero_of_dvd_of_lt h (by omega); omega
    · have := Nat.le_of_dvd (by omega) h; omega
end Sys2Proof.Machine
end

