-- ==== Sys2Proof/Laws/Encoding.lean ====
section
/-! SUPPORT. The fields of the words `wordR` and `wordI` build (spec/30_encoding.md R90). -/

namespace Sys2Proof

theorem wordR_toNat {op : Nat} (h : op < 256) (f0 f1 f2 f3 f4 : RegNum) :
    (wordR op f0 f1 f2 f3 f4).toNat =
      op * 2 ^ 24 + f0.val * 2 ^ 20 + f1.val * 2 ^ 16 + f2.val * 2 ^ 12 + f3.val * 2 ^ 8 + f4.val * 2 ^ 4 := by
  simp only [wordR, BitVec.toNat_ofNat]
  omega

theorem wordI_toNat {op : Nat} (h : op < 256) (f0 f1 : RegNum) (n : BitVec 16) :
    (wordI op f0 f1 n).toNat = op * 2 ^ 24 + f0.val * 2 ^ 20 + f1.val * 2 ^ 16 + n.toNat := by
  have := n.isLt
  simp only [wordI, BitVec.toNat_ofNat]
  omega

section fields

variable {op : Nat} (h : op < 256) (f0 f1 f2 f3 f4 : RegNum) (n : BitVec 16)
include h

theorem wordR_upper : bitField (wordR op f0 f1 f2 f3 f4) 32 32 = 0 := by
  rw [bitField, wordR_toNat h]; omega

theorem wordR_op : bitField (wordR op f0 f1 f2 f3 f4) 24 8 = op := by
  rw [bitField, wordR_toNat h]; omega

theorem wordR_f0 : regField (wordR op f0 f1 f2 f3 f4) 20 = f0 := by
  apply Fin.ext; simp only [regField, bitField]; rw [wordR_toNat h]; omega

theorem wordR_f1 : regField (wordR op f0 f1 f2 f3 f4) 16 = f1 := by
  apply Fin.ext; simp only [regField, bitField]; rw [wordR_toNat h]; omega

theorem wordR_f2 : regField (wordR op f0 f1 f2 f3 f4) 12 = f2 := by
  apply Fin.ext; simp only [regField, bitField]; rw [wordR_toNat h]; omega

theorem wordR_f3 : regField (wordR op f0 f1 f2 f3 f4) 8 = f3 := by
  apply Fin.ext; simp only [regField, bitField]; rw [wordR_toNat h]; omega

theorem wordR_f4 : regField (wordR op f0 f1 f2 f3 f4) 4 = f4 := by
  apply Fin.ext; simp only [regField, bitField]; rw [wordR_toNat h]; omega

theorem wordR_z : bitField (wordR op f0 f1 f2 f3 f4) 0 4 = 0 := by
  rw [bitField, wordR_toNat h]; omega

theorem wordR_unused8 : bitField (wordR op f0 f1 f2 f3 0) 0 8 = 0 := by
  rw [bitField, wordR_toNat h, Fin.val_zero]; omega

theorem wordR_unused12 : bitField (wordR op f0 f1 f2 0 0) 0 12 = 0 := by
  rw [bitField, wordR_toNat h, Fin.val_zero]; omega

theorem wordR_unused16 : bitField (wordR op f0 f1 0 0 0) 0 16 = 0 := by
  rw [bitField, wordR_toNat h, Fin.val_zero]; omega

theorem wordR_unused20 : bitField (wordR op f0 0 0 0 0) 0 20 = 0 := by
  rw [bitField, wordR_toNat h, Fin.val_zero]; omega

theorem wordI_upper : bitField (wordI op f0 f1 n) 32 32 = 0 := by
  have := n.isLt
  rw [bitField, wordI_toNat h]; omega

theorem wordI_op : bitField (wordI op f0 f1 n) 24 8 = op := by
  have := n.isLt
  rw [bitField, wordI_toNat h]; omega

theorem wordI_f0 : regField (wordI op f0 f1 n) 20 = f0 := by
  have := n.isLt
  apply Fin.ext; simp only [regField, bitField]; rw [wordI_toNat h]; omega

theorem wordI_f1 : regField (wordI op f0 f1 n) 16 = f1 := by
  have := n.isLt
  apply Fin.ext; simp only [regField, bitField]; rw [wordI_toNat h]; omega

theorem wordI_imm : immField (wordI op f0 f1 n) = n := by
  have := n.isLt
  apply BitVec.eq_of_toNat_eq
  simp only [immField, bitField, BitVec.toNat_ofNat]; rw [wordI_toNat h]; omega

theorem wordI_unused : bitField (wordI op 0 0 n) 16 8 = 0 := by
  have := n.isLt
  rw [bitField, wordI_toNat h, Fin.val_zero]; omega

end fields

end Sys2Proof
end

