-- ==== Sys2Proof/Laws/State.lean ====
section
/-! SUPPORT. One lemma per field per named update of the state, each true by rfl, so that no proof unfolds a
record update. -/

namespace Sys2Proof.Machine.State

variable (s : State)

/-! ### `setReg` -/

@[simp] theorem setReg_b (r : RegNum) (x : BigReg) : (s.setReg r x).b = s.b.set r.val x r.isLt := rfl
@[simp] theorem setReg_busy (r : RegNum) (x : BigReg) : (s.setReg r x).busy = s.busy := rfl
@[simp] theorem setReg_cmdreg (r : RegNum) (x : BigReg) : (s.setReg r x).cmdreg = s.cmdreg := rfl
@[simp] theorem setReg_abort0 (r : RegNum) (x : BigReg) : (s.setReg r x).abort0 = s.abort0 := rfl
@[simp] theorem setReg_done (r : RegNum) (x : BigReg) : (s.setReg r x).done = s.done := rfl
@[simp] theorem setReg_ovf (r : RegNum) (x : BigReg) : (s.setReg r x).ovf = s.ovf := rfl
@[simp] theorem setReg_haz (r : RegNum) (x : BigReg) : (s.setReg r x).haz = s.haz := rfl
@[simp] theorem setReg_err (r : RegNum) (x : BigReg) : (s.setReg r x).err = s.err := rfl
@[simp] theorem setReg_ie (r : RegNum) (x : BigReg) : (s.setReg r x).ie = s.ie := rfl
@[simp] theorem setReg_abort (r : RegNum) (x : BigReg) : (s.setReg r x).abort = s.abort := rfl
@[simp] theorem setReg_level (r : RegNum) (x : BigReg) : (s.setReg r x).level = s.level := rfl
@[simp] theorem setReg_arg (r : RegNum) (x : BigReg) : (s.setReg r x).arg = s.arg := rfl
@[simp] theorem setReg_res (r : RegNum) (x : BigReg) : (s.setReg r x).res = s.res := rfl
@[simp] theorem setReg_rngTotal (r : RegNum) (x : BigReg) : (s.setReg r x).rngTotal = s.rngTotal := rfl
@[simp] theorem setReg_xpad (r : RegNum) (x : BigReg) : (s.setReg r x).xpad = s.xpad := rfl
@[simp] theorem setReg_xpadValid (r : RegNum) (x : BigReg) : (s.setReg r x).xpadValid = s.xpadValid := rfl
@[simp] theorem setReg_mcValid (r : RegNum) (x : BigReg) : (s.setReg r x).mcValid = s.mcValid := rfl
@[simp] theorem setReg_mcN (r : RegNum) (x : BigReg) : (s.setReg r x).mcN = s.mcN := rfl
@[simp] theorem setReg_mcF (r : RegNum) (x : BigReg) : (s.setReg r x).mcF = s.mcF := rfl
@[simp] theorem setReg_rdata (r : RegNum) (x : BigReg) : (s.setReg r x).rdata = s.rdata := rfl
@[simp] theorem setReg_inputs (r : RegNum) (x : BigReg) : (s.setReg r x).inputs = s.inputs := rfl
@[simp] theorem setReg_passes (r : RegNum) (x : BigReg) : (s.setReg r x).passes = s.passes := rfl
@[simp] theorem setReg_rngWords (r : RegNum) (x : BigReg) : (s.setReg r x).rngWords = s.rngWords := rfl
@[simp] theorem setReg_rngStops (r : RegNum) (x : BigReg) : (s.setReg r x).rngStops = s.rngStops := rfl
@[simp] theorem setReg_epoch (r : RegNum) (x : BigReg) : (s.setReg r x).epoch = s.epoch := rfl
@[simp] theorem setReg_granted (r : RegNum) (x : BigReg) : (s.setReg r x).granted = s.granted := rfl
@[simp] theorem setReg_stream (r : RegNum) (x : BigReg) : (s.setReg r x).stream = s.stream := rfl

/-! ### `writeReg` -/

@[simp] theorem writeReg_b (L : Level) (r : RegNum) (v : Nat) : (s.writeReg L r v).b = s.b.set r.val (BigReg.ofNat L v) r.isLt := rfl
@[simp] theorem writeReg_busy (L : Level) (r : RegNum) (v : Nat) : (s.writeReg L r v).busy = s.busy := rfl
@[simp] theorem writeReg_cmdreg (L : Level) (r : RegNum) (v : Nat) : (s.writeReg L r v).cmdreg = s.cmdreg := rfl
@[simp] theorem writeReg_abort0 (L : Level) (r : RegNum) (v : Nat) : (s.writeReg L r v).abort0 = s.abort0 := rfl
@[simp] theorem writeReg_done (L : Level) (r : RegNum) (v : Nat) : (s.writeReg L r v).done = s.done := rfl
@[simp] theorem writeReg_ovf (L : Level) (r : RegNum) (v : Nat) : (s.writeReg L r v).ovf = s.ovf := rfl
@[simp] theorem writeReg_haz (L : Level) (r : RegNum) (v : Nat) : (s.writeReg L r v).haz = s.haz := rfl
@[simp] theorem writeReg_err (L : Level) (r : RegNum) (v : Nat) : (s.writeReg L r v).err = s.err := rfl
@[simp] theorem writeReg_ie (L : Level) (r : RegNum) (v : Nat) : (s.writeReg L r v).ie = s.ie := rfl
@[simp] theorem writeReg_abort (L : Level) (r : RegNum) (v : Nat) : (s.writeReg L r v).abort = s.abort := rfl
@[simp] theorem writeReg_level (L : Level) (r : RegNum) (v : Nat) : (s.writeReg L r v).level = s.level := rfl
@[simp] theorem writeReg_arg (L : Level) (r : RegNum) (v : Nat) : (s.writeReg L r v).arg = s.arg := rfl
@[simp] theorem writeReg_res (L : Level) (r : RegNum) (v : Nat) : (s.writeReg L r v).res = s.res := rfl
@[simp] theorem writeReg_rngTotal (L : Level) (r : RegNum) (v : Nat) : (s.writeReg L r v).rngTotal = s.rngTotal := rfl
@[simp] theorem writeReg_xpad (L : Level) (r : RegNum) (v : Nat) : (s.writeReg L r v).xpad = s.xpad := rfl
@[simp] theorem writeReg_xpadValid (L : Level) (r : RegNum) (v : Nat) : (s.writeReg L r v).xpadValid = s.xpadValid := rfl
@[simp] theorem writeReg_mcValid (L : Level) (r : RegNum) (v : Nat) : (s.writeReg L r v).mcValid = s.mcValid := rfl
@[simp] theorem writeReg_mcN (L : Level) (r : RegNum) (v : Nat) : (s.writeReg L r v).mcN = s.mcN := rfl
@[simp] theorem writeReg_mcF (L : Level) (r : RegNum) (v : Nat) : (s.writeReg L r v).mcF = s.mcF := rfl
@[simp] theorem writeReg_rdata (L : Level) (r : RegNum) (v : Nat) : (s.writeReg L r v).rdata = s.rdata := rfl
@[simp] theorem writeReg_inputs (L : Level) (r : RegNum) (v : Nat) : (s.writeReg L r v).inputs = s.inputs := rfl
@[simp] theorem writeReg_passes (L : Level) (r : RegNum) (v : Nat) : (s.writeReg L r v).passes = s.passes := rfl
@[simp] theorem writeReg_rngWords (L : Level) (r : RegNum) (v : Nat) : (s.writeReg L r v).rngWords = s.rngWords := rfl
@[simp] theorem writeReg_rngStops (L : Level) (r : RegNum) (v : Nat) : (s.writeReg L r v).rngStops = s.rngStops := rfl
@[simp] theorem writeReg_epoch (L : Level) (r : RegNum) (v : Nat) : (s.writeReg L r v).epoch = s.epoch := rfl
@[simp] theorem writeReg_granted (L : Level) (r : RegNum) (v : Nat) : (s.writeReg L r v).granted = s.granted := rfl
@[simp] theorem writeReg_stream (L : Level) (r : RegNum) (v : Nat) : (s.writeReg L r v).stream = s.stream := rfl

/-! ### `invalidateAll` -/

@[simp] theorem invalidateAll_b : (s.invalidateAll).b = Vector.ofFn fun r => { s.b.get r with valid := false } := rfl
@[simp] theorem invalidateAll_busy : (s.invalidateAll).busy = s.busy := rfl
@[simp] theorem invalidateAll_cmdreg : (s.invalidateAll).cmdreg = s.cmdreg := rfl
@[simp] theorem invalidateAll_abort0 : (s.invalidateAll).abort0 = s.abort0 := rfl
@[simp] theorem invalidateAll_done : (s.invalidateAll).done = s.done := rfl
@[simp] theorem invalidateAll_ovf : (s.invalidateAll).ovf = s.ovf := rfl
@[simp] theorem invalidateAll_haz : (s.invalidateAll).haz = s.haz := rfl
@[simp] theorem invalidateAll_err : (s.invalidateAll).err = s.err := rfl
@[simp] theorem invalidateAll_ie : (s.invalidateAll).ie = s.ie := rfl
@[simp] theorem invalidateAll_abort : (s.invalidateAll).abort = s.abort := rfl
@[simp] theorem invalidateAll_level : (s.invalidateAll).level = s.level := rfl
@[simp] theorem invalidateAll_arg : (s.invalidateAll).arg = s.arg := rfl
@[simp] theorem invalidateAll_res : (s.invalidateAll).res = s.res := rfl
@[simp] theorem invalidateAll_rngTotal : (s.invalidateAll).rngTotal = s.rngTotal := rfl
@[simp] theorem invalidateAll_xpad : (s.invalidateAll).xpad = s.xpad := rfl
@[simp] theorem invalidateAll_xpadValid : (s.invalidateAll).xpadValid = s.xpadValid := rfl
@[simp] theorem invalidateAll_mcValid : (s.invalidateAll).mcValid = s.mcValid := rfl
@[simp] theorem invalidateAll_mcN : (s.invalidateAll).mcN = s.mcN := rfl
@[simp] theorem invalidateAll_mcF : (s.invalidateAll).mcF = s.mcF := rfl
@[simp] theorem invalidateAll_rdata : (s.invalidateAll).rdata = s.rdata := rfl
@[simp] theorem invalidateAll_inputs : (s.invalidateAll).inputs = s.inputs := rfl
@[simp] theorem invalidateAll_passes : (s.invalidateAll).passes = s.passes := rfl
@[simp] theorem invalidateAll_rngWords : (s.invalidateAll).rngWords = s.rngWords := rfl
@[simp] theorem invalidateAll_rngStops : (s.invalidateAll).rngStops = s.rngStops := rfl
@[simp] theorem invalidateAll_epoch : (s.invalidateAll).epoch = s.epoch := rfl
@[simp] theorem invalidateAll_granted : (s.invalidateAll).granted = s.granted := rfl
@[simp] theorem invalidateAll_stream : (s.invalidateAll).stream = s.stream := rfl

/-! ### `setRes` -/

@[simp] theorem setRes_b (v : Nat) : (s.setRes v).b = s.b := rfl
@[simp] theorem setRes_busy (v : Nat) : (s.setRes v).busy = s.busy := rfl
@[simp] theorem setRes_cmdreg (v : Nat) : (s.setRes v).cmdreg = s.cmdreg := rfl
@[simp] theorem setRes_abort0 (v : Nat) : (s.setRes v).abort0 = s.abort0 := rfl
@[simp] theorem setRes_done (v : Nat) : (s.setRes v).done = s.done := rfl
@[simp] theorem setRes_ovf (v : Nat) : (s.setRes v).ovf = s.ovf := rfl
@[simp] theorem setRes_haz (v : Nat) : (s.setRes v).haz = s.haz := rfl
@[simp] theorem setRes_err (v : Nat) : (s.setRes v).err = s.err := rfl
@[simp] theorem setRes_ie (v : Nat) : (s.setRes v).ie = s.ie := rfl
@[simp] theorem setRes_abort (v : Nat) : (s.setRes v).abort = s.abort := rfl
@[simp] theorem setRes_level (v : Nat) : (s.setRes v).level = s.level := rfl
@[simp] theorem setRes_arg (v : Nat) : (s.setRes v).arg = s.arg := rfl
@[simp] theorem setRes_res (v : Nat) : (s.setRes v).res = BitVec.ofNat 64 v := rfl
@[simp] theorem setRes_rngTotal (v : Nat) : (s.setRes v).rngTotal = s.rngTotal := rfl
@[simp] theorem setRes_xpad (v : Nat) : (s.setRes v).xpad = s.xpad := rfl
@[simp] theorem setRes_xpadValid (v : Nat) : (s.setRes v).xpadValid = s.xpadValid := rfl
@[simp] theorem setRes_mcValid (v : Nat) : (s.setRes v).mcValid = s.mcValid := rfl
@[simp] theorem setRes_mcN (v : Nat) : (s.setRes v).mcN = s.mcN := rfl
@[simp] theorem setRes_mcF (v : Nat) : (s.setRes v).mcF = s.mcF := rfl
@[simp] theorem setRes_rdata (v : Nat) : (s.setRes v).rdata = s.rdata := rfl
@[simp] theorem setRes_inputs (v : Nat) : (s.setRes v).inputs = s.inputs := rfl
@[simp] theorem setRes_passes (v : Nat) : (s.setRes v).passes = s.passes := rfl
@[simp] theorem setRes_rngWords (v : Nat) : (s.setRes v).rngWords = s.rngWords := rfl
@[simp] theorem setRes_rngStops (v : Nat) : (s.setRes v).rngStops = s.rngStops := rfl
@[simp] theorem setRes_epoch (v : Nat) : (s.setRes v).epoch = s.epoch := rfl
@[simp] theorem setRes_reg (v : Nat) (q : RegNum) : (s.setRes v).reg q = s.reg q := rfl
@[simp] theorem setRes_granted (v : Nat) : (s.setRes v).granted = s.granted := rfl
@[simp] theorem setRes_stream (v : Nat) : (s.setRes v).stream = s.stream := rfl

/-! ### `setPulls` -/

@[simp] theorem setPulls_b (pos : Nat) : (s.setPulls pos).b = s.b := rfl
@[simp] theorem setPulls_busy (pos : Nat) : (s.setPulls pos).busy = s.busy := rfl
@[simp] theorem setPulls_cmdreg (pos : Nat) : (s.setPulls pos).cmdreg = s.cmdreg := rfl
@[simp] theorem setPulls_abort0 (pos : Nat) : (s.setPulls pos).abort0 = s.abort0 := rfl
@[simp] theorem setPulls_done (pos : Nat) : (s.setPulls pos).done = s.done := rfl
@[simp] theorem setPulls_ovf (pos : Nat) : (s.setPulls pos).ovf = s.ovf := rfl
@[simp] theorem setPulls_haz (pos : Nat) : (s.setPulls pos).haz = s.haz := rfl
@[simp] theorem setPulls_err (pos : Nat) : (s.setPulls pos).err = s.err := rfl
@[simp] theorem setPulls_ie (pos : Nat) : (s.setPulls pos).ie = s.ie := rfl
@[simp] theorem setPulls_abort (pos : Nat) : (s.setPulls pos).abort = s.abort := rfl
@[simp] theorem setPulls_level (pos : Nat) : (s.setPulls pos).level = s.level := rfl
@[simp] theorem setPulls_arg (pos : Nat) : (s.setPulls pos).arg = s.arg := rfl
@[simp] theorem setPulls_res (pos : Nat) : (s.setPulls pos).res = s.res := rfl
@[simp] theorem setPulls_rngTotal (pos : Nat) : (s.setPulls pos).rngTotal = pos := rfl
@[simp] theorem setPulls_xpad (pos : Nat) : (s.setPulls pos).xpad = s.xpad := rfl
@[simp] theorem setPulls_xpadValid (pos : Nat) : (s.setPulls pos).xpadValid = s.xpadValid := rfl
@[simp] theorem setPulls_mcValid (pos : Nat) : (s.setPulls pos).mcValid = s.mcValid := rfl
@[simp] theorem setPulls_mcN (pos : Nat) : (s.setPulls pos).mcN = s.mcN := rfl
@[simp] theorem setPulls_mcF (pos : Nat) : (s.setPulls pos).mcF = s.mcF := rfl
@[simp] theorem setPulls_rdata (pos : Nat) : (s.setPulls pos).rdata = s.rdata := rfl
@[simp] theorem setPulls_inputs (pos : Nat) : (s.setPulls pos).inputs = s.inputs := rfl
@[simp] theorem setPulls_passes (pos : Nat) : (s.setPulls pos).passes = s.passes := rfl
@[simp] theorem setPulls_rngWords (pos : Nat) : (s.setPulls pos).rngWords = s.rngWords := rfl
@[simp] theorem setPulls_rngStops (pos : Nat) : (s.setPulls pos).rngStops = s.rngStops := rfl
@[simp] theorem setPulls_epoch (pos : Nat) : (s.setPulls pos).epoch = s.epoch := rfl
@[simp] theorem setPulls_reg (pos : Nat) (q : RegNum) : (s.setPulls pos).reg q = s.reg q := rfl
@[simp] theorem setPulls_stream (pos : Nat) : (s.setPulls pos).stream = s.stream := rfl

/-! ### `noteOverflow` -/

@[simp] theorem noteOverflow_b (L : Level) (x : Nat) : (s.noteOverflow L x).b = s.b := rfl
@[simp] theorem noteOverflow_busy (L : Level) (x : Nat) : (s.noteOverflow L x).busy = s.busy := rfl
@[simp] theorem noteOverflow_cmdreg (L : Level) (x : Nat) : (s.noteOverflow L x).cmdreg = s.cmdreg := rfl
@[simp] theorem noteOverflow_abort0 (L : Level) (x : Nat) : (s.noteOverflow L x).abort0 = s.abort0 := rfl
@[simp] theorem noteOverflow_done (L : Level) (x : Nat) : (s.noteOverflow L x).done = s.done := rfl
@[simp] theorem noteOverflow_ovf (L : Level) (x : Nat) : (s.noteOverflow L x).ovf = decide (L.modulus ≤ x) := rfl
@[simp] theorem noteOverflow_haz (L : Level) (x : Nat) : (s.noteOverflow L x).haz = s.haz := rfl
@[simp] theorem noteOverflow_err (L : Level) (x : Nat) : (s.noteOverflow L x).err = s.err := rfl
@[simp] theorem noteOverflow_ie (L : Level) (x : Nat) : (s.noteOverflow L x).ie = s.ie := rfl
@[simp] theorem noteOverflow_abort (L : Level) (x : Nat) : (s.noteOverflow L x).abort = s.abort := rfl
@[simp] theorem noteOverflow_level (L : Level) (x : Nat) : (s.noteOverflow L x).level = s.level := rfl
@[simp] theorem noteOverflow_arg (L : Level) (x : Nat) : (s.noteOverflow L x).arg = s.arg := rfl
@[simp] theorem noteOverflow_res (L : Level) (x : Nat) : (s.noteOverflow L x).res = s.res := rfl
@[simp] theorem noteOverflow_rngTotal (L : Level) (x : Nat) : (s.noteOverflow L x).rngTotal = s.rngTotal := rfl
@[simp] theorem noteOverflow_xpad (L : Level) (x : Nat) : (s.noteOverflow L x).xpad = s.xpad := rfl
@[simp] theorem noteOverflow_xpadValid (L : Level) (x : Nat) : (s.noteOverflow L x).xpadValid = s.xpadValid := rfl
@[simp] theorem noteOverflow_mcValid (L : Level) (x : Nat) : (s.noteOverflow L x).mcValid = s.mcValid := rfl
@[simp] theorem noteOverflow_mcN (L : Level) (x : Nat) : (s.noteOverflow L x).mcN = s.mcN := rfl
@[simp] theorem noteOverflow_mcF (L : Level) (x : Nat) : (s.noteOverflow L x).mcF = s.mcF := rfl
@[simp] theorem noteOverflow_rdata (L : Level) (x : Nat) : (s.noteOverflow L x).rdata = s.rdata := rfl
@[simp] theorem noteOverflow_inputs (L : Level) (x : Nat) : (s.noteOverflow L x).inputs = s.inputs := rfl
@[simp] theorem noteOverflow_passes (L : Level) (x : Nat) : (s.noteOverflow L x).passes = s.passes := rfl
@[simp] theorem noteOverflow_rngWords (L : Level) (x : Nat) : (s.noteOverflow L x).rngWords = s.rngWords := rfl
@[simp] theorem noteOverflow_rngStops (L : Level) (x : Nat) : (s.noteOverflow L x).rngStops = s.rngStops := rfl
@[simp] theorem noteOverflow_epoch (L : Level) (x : Nat) : (s.noteOverflow L x).epoch = s.epoch := rfl
@[simp] theorem noteOverflow_reg (L : Level) (x : Nat) (q : RegNum) : (s.noteOverflow L x).reg q = s.reg q := rfl
@[simp] theorem noteOverflow_granted (L : Level) (x : Nat) : (s.noteOverflow L x).granted = s.granted := rfl
@[simp] theorem noteOverflow_stream (L : Level) (x : Nat) : (s.noteOverflow L x).stream = s.stream := rfl

/-! ### `accept` -/

@[simp] theorem accept_b (c : Word) : (s.accept c).b = s.b := rfl
@[simp] theorem accept_busy (c : Word) : (s.accept c).busy = true := rfl
@[simp] theorem accept_cmdreg (c : Word) : (s.accept c).cmdreg = c := rfl
@[simp] theorem accept_abort0 (c : Word) : (s.accept c).abort0 = s.abort := rfl
@[simp] theorem accept_done (c : Word) : (s.accept c).done = false := rfl
@[simp] theorem accept_ovf (c : Word) : (s.accept c).ovf = s.ovf := rfl
@[simp] theorem accept_haz (c : Word) : (s.accept c).haz = s.haz := rfl
@[simp] theorem accept_err (c : Word) : (s.accept c).err = none := rfl
@[simp] theorem accept_ie (c : Word) : (s.accept c).ie = s.ie := rfl
@[simp] theorem accept_abort (c : Word) : (s.accept c).abort = s.abort := rfl
@[simp] theorem accept_level (c : Word) : (s.accept c).level = s.level := rfl
@[simp] theorem accept_arg (c : Word) : (s.accept c).arg = s.arg := rfl
@[simp] theorem accept_res (c : Word) : (s.accept c).res = s.res := rfl
@[simp] theorem accept_rngTotal (c : Word) : (s.accept c).rngTotal = s.rngTotal := rfl
@[simp] theorem accept_xpad (c : Word) : (s.accept c).xpad = s.xpad := rfl
@[simp] theorem accept_xpadValid (c : Word) : (s.accept c).xpadValid = s.xpadValid := rfl
@[simp] theorem accept_mcValid (c : Word) : (s.accept c).mcValid = s.mcValid := rfl
@[simp] theorem accept_mcN (c : Word) : (s.accept c).mcN = s.mcN := rfl
@[simp] theorem accept_mcF (c : Word) : (s.accept c).mcF = s.mcF := rfl
@[simp] theorem accept_rdata (c : Word) : (s.accept c).rdata = s.rdata := rfl
@[simp] theorem accept_inputs (c : Word) : (s.accept c).inputs = s.inputs := rfl
@[simp] theorem accept_passes (c : Word) : (s.accept c).passes = s.passes := rfl
@[simp] theorem accept_rngWords (c : Word) : (s.accept c).rngWords = s.rngWords := rfl
@[simp] theorem accept_rngStops (c : Word) : (s.accept c).rngStops = s.rngStops := rfl
@[simp] theorem accept_epoch (c : Word) : (s.accept c).epoch = s.epoch := rfl
@[simp] theorem accept_reg (c : Word) (q : RegNum) : (s.accept c).reg q = s.reg q := rfl
@[simp] theorem accept_stream (c : Word) : (s.accept c).stream = s.stream := rfl

/-! ### `complete` -/

@[simp] theorem complete_b : (s.complete).b = s.b := rfl
@[simp] theorem complete_busy : (s.complete).busy = false := rfl
@[simp] theorem complete_cmdreg : (s.complete).cmdreg = s.cmdreg := rfl
@[simp] theorem complete_abort0 : (s.complete).abort0 = s.abort0 := rfl
@[simp] theorem complete_done : (s.complete).done = true := rfl
@[simp] theorem complete_ovf : (s.complete).ovf = s.ovf := rfl
@[simp] theorem complete_haz : (s.complete).haz = s.haz := rfl
@[simp] theorem complete_err : (s.complete).err = s.err := rfl
@[simp] theorem complete_ie : (s.complete).ie = s.ie := rfl
@[simp] theorem complete_abort : (s.complete).abort = false := rfl
@[simp] theorem complete_level : (s.complete).level = s.level := rfl
@[simp] theorem complete_arg : (s.complete).arg = s.arg := rfl
@[simp] theorem complete_res : (s.complete).res = s.res := rfl
@[simp] theorem complete_rngTotal : (s.complete).rngTotal = s.rngTotal := rfl
@[simp] theorem complete_xpad : (s.complete).xpad = s.xpad := rfl
@[simp] theorem complete_xpadValid : (s.complete).xpadValid = s.xpadValid := rfl
@[simp] theorem complete_mcValid : (s.complete).mcValid = s.mcValid := rfl
@[simp] theorem complete_mcN : (s.complete).mcN = s.mcN := rfl
@[simp] theorem complete_mcF : (s.complete).mcF = s.mcF := rfl
@[simp] theorem complete_rdata : (s.complete).rdata = s.rdata := rfl
@[simp] theorem complete_inputs : (s.complete).inputs = s.inputs := rfl
@[simp] theorem complete_passes : (s.complete).passes = s.passes := rfl
@[simp] theorem complete_rngWords : (s.complete).rngWords = s.rngWords := rfl
@[simp] theorem complete_rngStops : (s.complete).rngStops = s.rngStops := rfl
@[simp] theorem complete_epoch : (s.complete).epoch = s.epoch := rfl
@[simp] theorem complete_reg (q : RegNum) : (s.complete).reg q = s.reg q := rfl
@[simp] theorem complete_granted : (s.complete).granted = s.granted := rfl
@[simp] theorem complete_stream : (s.complete).stream = s.stream := rfl

/-! ### `raise` -/

@[simp] theorem raise_b (e : Err) : (s.raise e).b = s.b := rfl
@[simp] theorem raise_busy (e : Err) : (s.raise e).busy = false := rfl
@[simp] theorem raise_cmdreg (e : Err) : (s.raise e).cmdreg = s.cmdreg := rfl
@[simp] theorem raise_abort0 (e : Err) : (s.raise e).abort0 = s.abort0 := rfl
@[simp] theorem raise_done (e : Err) : (s.raise e).done = true := rfl
@[simp] theorem raise_ovf (e : Err) : (s.raise e).ovf = s.ovf := rfl
@[simp] theorem raise_haz (e : Err) : (s.raise e).haz = s.haz := rfl
@[simp] theorem raise_err (e : Err) : (s.raise e).err = some e := rfl
@[simp] theorem raise_ie (e : Err) : (s.raise e).ie = s.ie := rfl
@[simp] theorem raise_abort (e : Err) : (s.raise e).abort = false := rfl
@[simp] theorem raise_level (e : Err) : (s.raise e).level = s.level := rfl
@[simp] theorem raise_arg (e : Err) : (s.raise e).arg = s.arg := rfl
@[simp] theorem raise_res (e : Err) : (s.raise e).res = s.res := rfl
@[simp] theorem raise_rngTotal (e : Err) : (s.raise e).rngTotal = s.rngTotal := rfl
@[simp] theorem raise_xpad (e : Err) : (s.raise e).xpad = s.xpad := rfl
@[simp] theorem raise_xpadValid (e : Err) : (s.raise e).xpadValid = s.xpadValid := rfl
@[simp] theorem raise_mcValid (e : Err) : (s.raise e).mcValid = s.mcValid := rfl
@[simp] theorem raise_mcN (e : Err) : (s.raise e).mcN = s.mcN := rfl
@[simp] theorem raise_mcF (e : Err) : (s.raise e).mcF = s.mcF := rfl
@[simp] theorem raise_rdata (e : Err) : (s.raise e).rdata = s.rdata := rfl
@[simp] theorem raise_inputs (e : Err) : (s.raise e).inputs = s.inputs := rfl
@[simp] theorem raise_passes (e : Err) : (s.raise e).passes = s.passes := rfl
@[simp] theorem raise_rngWords (e : Err) : (s.raise e).rngWords = s.rngWords := rfl
@[simp] theorem raise_rngStops (e : Err) : (s.raise e).rngStops = s.rngStops := rfl
@[simp] theorem raise_epoch (e : Err) : (s.raise e).epoch = s.epoch := rfl
@[simp] theorem raise_reg (e : Err) (q : RegNum) : (s.raise e).reg q = s.reg q := rfl
@[simp] theorem raise_granted (e : Err) : (s.raise e).granted = s.granted := rfl
@[simp] theorem raise_stream (e : Err) : (s.raise e).stream = s.stream := rfl

/-! ### `stillBusy` -/

@[simp] theorem stillBusy_b : (s.stillBusy).b = s.b := rfl
@[simp] theorem stillBusy_busy : (s.stillBusy).busy = s.busy := rfl
@[simp] theorem stillBusy_cmdreg : (s.stillBusy).cmdreg = s.cmdreg := rfl
@[simp] theorem stillBusy_abort0 : (s.stillBusy).abort0 = s.abort0 := rfl
@[simp] theorem stillBusy_done : (s.stillBusy).done = s.done := rfl
@[simp] theorem stillBusy_ovf : (s.stillBusy).ovf = s.ovf := rfl
@[simp] theorem stillBusy_haz : (s.stillBusy).haz = s.haz := rfl
@[simp] theorem stillBusy_err : (s.stillBusy).err = s.err := rfl
@[simp] theorem stillBusy_ie : (s.stillBusy).ie = s.ie := rfl
@[simp] theorem stillBusy_abort : (s.stillBusy).abort = s.abort := rfl
@[simp] theorem stillBusy_level : (s.stillBusy).level = s.level := rfl
@[simp] theorem stillBusy_arg : (s.stillBusy).arg = s.arg := rfl
@[simp] theorem stillBusy_res : (s.stillBusy).res = s.res := rfl
@[simp] theorem stillBusy_rngTotal : (s.stillBusy).rngTotal = s.rngTotal := rfl
@[simp] theorem stillBusy_xpad : (s.stillBusy).xpad = s.xpad := rfl
@[simp] theorem stillBusy_xpadValid : (s.stillBusy).xpadValid = s.xpadValid := rfl
@[simp] theorem stillBusy_mcValid : (s.stillBusy).mcValid = s.mcValid := rfl
@[simp] theorem stillBusy_mcN : (s.stillBusy).mcN = s.mcN := rfl
@[simp] theorem stillBusy_mcF : (s.stillBusy).mcF = s.mcF := rfl
@[simp] theorem stillBusy_rdata : (s.stillBusy).rdata = s.rdata := rfl
@[simp] theorem stillBusy_inputs : (s.stillBusy).inputs = s.inputs := rfl
@[simp] theorem stillBusy_passes : (s.stillBusy).passes = s.passes + 1 := rfl
@[simp] theorem stillBusy_rngWords : (s.stillBusy).rngWords = s.rngWords := rfl
@[simp] theorem stillBusy_rngStops : (s.stillBusy).rngStops = s.rngStops := rfl
@[simp] theorem stillBusy_epoch : (s.stillBusy).epoch = s.epoch := rfl
@[simp] theorem stillBusy_reg (q : RegNum) : (s.stillBusy).reg q = s.reg q := rfl
@[simp] theorem stillBusy_stream : (s.stillBusy).stream = s.stream := rfl

/-! ### `writeStatus` -/

@[simp] theorem writeStatus_b (v : Word) : (s.writeStatus v).b = s.b := rfl
@[simp] theorem writeStatus_busy (v : Word) : (s.writeStatus v).busy = s.busy := rfl
@[simp] theorem writeStatus_cmdreg (v : Word) : (s.writeStatus v).cmdreg = s.cmdreg := rfl
@[simp] theorem writeStatus_abort0 (v : Word) : (s.writeStatus v).abort0 = s.abort0 := rfl
@[simp] theorem writeStatus_done (v : Word) : (s.writeStatus v).done = (s.done && !v.getLsbD 1) := rfl
@[simp] theorem writeStatus_ovf (v : Word) : (s.writeStatus v).ovf = s.ovf := rfl
@[simp] theorem writeStatus_haz (v : Word) : (s.writeStatus v).haz = (s.haz && !v.getLsbD 4) := rfl
@[simp] theorem writeStatus_err (v : Word) : (s.writeStatus v).err = s.err := rfl
@[simp] theorem writeStatus_ie (v : Word) : (s.writeStatus v).ie = s.ie := rfl
@[simp] theorem writeStatus_abort (v : Word) : (s.writeStatus v).abort = s.abort := rfl
@[simp] theorem writeStatus_level (v : Word) : (s.writeStatus v).level = s.level := rfl
@[simp] theorem writeStatus_arg (v : Word) : (s.writeStatus v).arg = s.arg := rfl
@[simp] theorem writeStatus_res (v : Word) : (s.writeStatus v).res = s.res := rfl
@[simp] theorem writeStatus_rngTotal (v : Word) : (s.writeStatus v).rngTotal = s.rngTotal := rfl
@[simp] theorem writeStatus_xpad (v : Word) : (s.writeStatus v).xpad = s.xpad := rfl
@[simp] theorem writeStatus_xpadValid (v : Word) : (s.writeStatus v).xpadValid = s.xpadValid := rfl
@[simp] theorem writeStatus_mcValid (v : Word) : (s.writeStatus v).mcValid = s.mcValid := rfl
@[simp] theorem writeStatus_mcN (v : Word) : (s.writeStatus v).mcN = s.mcN := rfl
@[simp] theorem writeStatus_mcF (v : Word) : (s.writeStatus v).mcF = s.mcF := rfl
@[simp] theorem writeStatus_rdata (v : Word) : (s.writeStatus v).rdata = s.rdata := rfl
@[simp] theorem writeStatus_inputs (v : Word) : (s.writeStatus v).inputs = s.inputs := rfl
@[simp] theorem writeStatus_passes (v : Word) : (s.writeStatus v).passes = s.passes := rfl
@[simp] theorem writeStatus_rngWords (v : Word) : (s.writeStatus v).rngWords = s.rngWords := rfl
@[simp] theorem writeStatus_rngStops (v : Word) : (s.writeStatus v).rngStops = s.rngStops := rfl
@[simp] theorem writeStatus_epoch (v : Word) : (s.writeStatus v).epoch = s.epoch := rfl
@[simp] theorem writeStatus_reg (v : Word) (q : RegNum) : (s.writeStatus v).reg q = s.reg q := rfl
@[simp] theorem writeStatus_granted (v : Word) : (s.writeStatus v).granted = s.granted := rfl
@[simp] theorem writeStatus_stream (v : Word) : (s.writeStatus v).stream = s.stream := rfl

/-! ### `writeCtrl` -/

@[simp] theorem writeCtrl_b (v : Word) : (s.writeCtrl v).b = s.b := rfl
@[simp] theorem writeCtrl_busy (v : Word) : (s.writeCtrl v).busy = s.busy := rfl
@[simp] theorem writeCtrl_cmdreg (v : Word) : (s.writeCtrl v).cmdreg = s.cmdreg := rfl
@[simp] theorem writeCtrl_abort0 (v : Word) : (s.writeCtrl v).abort0 = s.abort0 := rfl
@[simp] theorem writeCtrl_done (v : Word) : (s.writeCtrl v).done = s.done := rfl
@[simp] theorem writeCtrl_ovf (v : Word) : (s.writeCtrl v).ovf = s.ovf := rfl
@[simp] theorem writeCtrl_haz (v : Word) : (s.writeCtrl v).haz = s.haz := rfl
@[simp] theorem writeCtrl_err (v : Word) : (s.writeCtrl v).err = s.err := rfl
@[simp] theorem writeCtrl_ie (v : Word) : (s.writeCtrl v).ie = v.getLsbD 0 := rfl
@[simp] theorem writeCtrl_abort (v : Word) : (s.writeCtrl v).abort = ((s.busy && s.abort) || v.getLsbD 1) := rfl
@[simp] theorem writeCtrl_level (v : Word) : (s.writeCtrl v).level = s.level := rfl
@[simp] theorem writeCtrl_arg (v : Word) : (s.writeCtrl v).arg = s.arg := rfl
@[simp] theorem writeCtrl_res (v : Word) : (s.writeCtrl v).res = s.res := rfl
@[simp] theorem writeCtrl_rngTotal (v : Word) : (s.writeCtrl v).rngTotal = s.rngTotal := rfl
@[simp] theorem writeCtrl_xpad (v : Word) : (s.writeCtrl v).xpad = s.xpad := rfl
@[simp] theorem writeCtrl_xpadValid (v : Word) : (s.writeCtrl v).xpadValid = s.xpadValid := rfl
@[simp] theorem writeCtrl_mcValid (v : Word) : (s.writeCtrl v).mcValid = s.mcValid := rfl
@[simp] theorem writeCtrl_mcN (v : Word) : (s.writeCtrl v).mcN = s.mcN := rfl
@[simp] theorem writeCtrl_mcF (v : Word) : (s.writeCtrl v).mcF = s.mcF := rfl
@[simp] theorem writeCtrl_rdata (v : Word) : (s.writeCtrl v).rdata = s.rdata := rfl
@[simp] theorem writeCtrl_inputs (v : Word) : (s.writeCtrl v).inputs = s.inputs := rfl
@[simp] theorem writeCtrl_passes (v : Word) : (s.writeCtrl v).passes = s.passes := rfl
@[simp] theorem writeCtrl_rngWords (v : Word) : (s.writeCtrl v).rngWords = s.rngWords := rfl
@[simp] theorem writeCtrl_rngStops (v : Word) : (s.writeCtrl v).rngStops = s.rngStops := rfl
@[simp] theorem writeCtrl_epoch (v : Word) : (s.writeCtrl v).epoch = s.epoch := rfl
@[simp] theorem writeCtrl_reg (v : Word) (q : RegNum) : (s.writeCtrl v).reg q = s.reg q := rfl
@[simp] theorem writeCtrl_granted (v : Word) : (s.writeCtrl v).granted = s.granted := rfl
@[simp] theorem writeCtrl_stream (v : Word) : (s.writeCtrl v).stream = s.stream := rfl

end Sys2Proof.Machine.State
end

