-- ==== Sys2Proof/Laws/Outcome.lean ====
section
/-! SUPPORT. What a check, a chain of checks and a completion step can answer; said once, so that no proof
unfolds them. -/

namespace Sys2Proof.Machine

/-- A chain of checks succeeds exactly when each part does. -/
@[simp] theorem bind_eq_ok {α β : Type} (x : Except Err α) (f : α → Except Err β) (b : β) :
    (x >>= f) = .ok b ↔ ∃ a, x = .ok a ∧ f a = .ok b := by
  cases x <;> simp [bind, Except.bind]

/-- A chain of checks ends with the error of its first failing part. -/
@[simp] theorem bind_eq_error {α β : Type} (x : Except Err α) (f : α → Except Err β) (e : Err) :
    (x >>= f) = .error e ↔ x = .error e ∨ ∃ a, x = .ok a ∧ f a = .error e := by
  cases x <;> simp [bind, Except.bind]

@[simp] theorem ok_bind {α β : Type} (a : α) (f : α → Except Err β) : ((.ok a : Except Err α) >>= f) = f a := rfl

@[simp] theorem error_bind {α β : Type} (e : Err) (f : α → Except Err β) :
    ((.error e : Except Err α) >>= f) = .error e := rfl

@[simp] theorem pure_eq_ok {α : Type} (a : α) : (pure a : Except Err α) = .ok a := rfl

@[simp] theorem require_eq_ok (p : Prop) [Decidable p] (e : Err) (u : Unit) : require p e = .ok u ↔ p := by
  unfold require; split <;> simp [*]

@[simp] theorem require_eq_error (p : Prop) [Decidable p] (e e' : Err) :
    require p e = .error e' ↔ ¬ p ∧ e = e' := by
  unfold require; split <;> simp [*]

theorem require_pos {p : Prop} [Decidable p] (e : Err) (h : p) : require p e = .ok () := if_pos h

theorem require_neg {p : Prop} [Decidable p] (e : Err) (h : ¬ p) : require p e = .error e := if_neg h

@[simp] theorem needLevel_eq_ok (s : State) (L : Level) : s.needLevel = .ok L ↔ s.level = some L := by
  unfold State.needLevel; split <;> simp [*]

@[simp] theorem needLevel_eq_error (s : State) (e : Err) :
    s.needLevel = .error e ↔ s.level = none ∧ e = .config := by
  unfold State.needLevel; split <;> simp [*, eq_comm]

theorem needLevel_of {s : State} {L : Level} (h : s.level = some L) : s.needLevel = .ok L := by simp [h]

@[simp] theorem source_eq_ok (s : State) (L : Level) (r : RegNum) (a : Nat) :
    s.source L r = .ok a ↔ (s.reg r).valid = true ∧ (s.reg r).val L = a := by
  unfold State.source; split <;> simp [*]

@[simp] theorem source_eq_error (s : State) (L : Level) (r : RegNum) (e : Err) :
    s.source L r = .error e ↔ (s.reg r).valid = false ∧ e = .uninit := by
  unfold State.source; split <;> simp [*, @eq_comm _ e]

theorem source_of {s : State} {r : RegNum} (L : Level) (h : (s.reg r).valid = true) :
    s.source L r = .ok ((s.reg r).val L) := by simp [h]

@[simp] theorem finish_ok (s u : State) : finish s (.ok u) = .next u.complete := rfl

@[simp] theorem finish_error (s : State) (e : Err) : finish s (.error e) = .next (s.raise e) := rfl

/-- What a completion step of a command that pulls no word can answer. -/
theorem finish_next {s t : State} {o : Except Err State} (h : finish s o = .next t) :
    (∃ u, o = .ok u ∧ t = u.complete) ∨ ∃ e, o = .error e ∧ t = s.raise e := by
  cases o with
  | ok u => exact .inl ⟨u, rfl, by simpa using h.symm⟩
  | error e => exact .inr ⟨e, rfl, by simpa using h.symm⟩

@[simp] theorem finishRun_error (s : State) (e : Err) : finishRun s (.error e) = .next (s.raise e) := rfl

@[simp] theorem finishRun_done (s u : State) (pos left : Nat) :
    finishRun s (.ok (.done u pos left)) = .next (u.setPulls pos).complete := rfl

/-- What a completion step of a command that draws can answer. -/
theorem finishRun_next {s t : State} {o : Except Err (Run State)} (h : finishRun s o = .next t) :
    (∃ e, o = .error e ∧ t = s.raise e) ∨
    (∃ u pos left, o = .ok (.done u pos left) ∧ t = (u.setPulls pos).complete) ∨
    (∃ pos, o = .ok (.atPoint pos) ∧ (s.abort || s.abort0) = true ∧ t = (s.setPulls pos).raise .abort) ∨
    (∃ pos, o = .ok (.atPoint pos) ∧ (s.abort || s.abort0) = false ∧ t = s.stillBusy) := by
  unfold finishRun at h
  split at h
  · exact .inl ⟨_, rfl, by simpa using h.symm⟩
  · exact .inr (.inl ⟨_, _, _, rfl, by simpa using h.symm⟩)
  · split at h
    · exact .inr (.inr (.inl ⟨_, rfl, ‹_›, by simpa using h.symm⟩))
    · exact .inr (.inr (.inr ⟨_, rfl, eq_false_of_ne_true ‹_›, by simpa using h.symm⟩))

@[simp] theorem andThen_eq_done {α β : Type} (x : Run α) (f : α → Nat → Nat → Run β) (b : β) (pos left : Nat) :
    x.andThen f = .done b pos left ↔ ∃ a p l, x = .done a p l ∧ f a p l = .done b pos left := by
  cases x <;> simp [Run.andThen]

@[simp] theorem andThen_eq_atPoint {α β : Type} (x : Run α) (f : α → Nat → Nat → Run β) (pos : Nat) :
    x.andThen f = .atPoint pos ↔ x = .atPoint pos ∨ ∃ a p l, x = .done a p l ∧ f a p l = .atPoint pos := by
  cases x <;> simp [Run.andThen]

@[simp] theorem map_eq_done {α β : Type} (x : Run α) (f : α → β) (b : β) (pos left : Nat) :
    x.map f = .done b pos left ↔ ∃ a, x = .done a pos left ∧ f a = b := by
  cases x <;> simp [Run.map, Run.andThen, and_comm, and_left_comm]

@[simp] theorem map_eq_atPoint {α β : Type} (x : Run α) (f : α → β) (pos : Nat) :
    x.map f = .atPoint pos ↔ x = .atPoint pos := by
  cases x <;> simp [Run.map, Run.andThen]

/-- Completion and the error end differ, from any states. -/
@[simp] theorem raise_err_ne (s : State) (e : Err) : (s.raise e).err ≠ none := by simp

end Sys2Proof.Machine
end

