-- ==== Sys2Proof/Laws/PerInstr.lean ====
section
/-! SUPPORT. Per-command laws. Family `Opcode`: the upper half and the opcode field of every command's word
(spec/30_encoding.md R90, R91). -/

namespace Sys2Proof.Laws.Opcode

/-- The opcode of a command (R91). -/
def opcode : Instr → Nat
  | .setlvl _ => 0x01
  | .ldi _ => 0x02
  | .norm _ => 0x03
  | .importTop _ => 0x04
  | .rstbuf _ _ => 0x05
  | .setpad _ => 0x06
  | .add _ _ _ => 0x10
  | .neg _ _ => 0x11
  | .sub _ _ _ => 0x12
  | .mul _ _ _ => 0x13
  | .shl1 _ _ => 0x14
  | .shr1 _ _ => 0x15
  | .shl _ _ _ => 0x16
  | .shr _ _ _ => 0x17
  | .div _ _ _ _ => 0x18
  | .cmp _ _ => 0x19
  | .isodd _ => 0x1A
  | .abs _ _ => 0x1B
  | .isneg _ => 0x1C
  | .monfac _ _ => 0x20
  | .monpro _ _ _ _ => 0x21
  | .monmul _ _ _ _ => 0x22
  | .monexp _ _ _ _ => 0x23
  | .mrwit _ _ => 0x30
  | .isprime _ => 0x31
  | .egcd _ _ _ _ _ => 0x40
  | .modinv _ _ _ => 0x41
  | .rndcop _ _ => 0x42
  | .gencand _ _ => 0x43
  | .findpr _ => 0x44
  | .genkey _ _ _ => 0x50
  | .encode _ _ _ _ => 0x51
  | .decode _ _ _ _ => 0x52

/-- The word of a command: bits 63:32 zero, bits 31:24 its opcode. -/
def Statement (i : Instr) : Prop := bitField (encode i) 32 32 = 0 ∧ bitField (encode i) 24 8 = opcode i

theorem setlvl (imm16 : BitVec 16) : Statement (.setlvl imm16) :=
  ⟨wordI_upper (by decide) _ _ _, wordI_op (by decide) _ _ _⟩

theorem ldi (rd : RegNum) : Statement (.ldi rd) :=
  ⟨wordR_upper (by decide) _ _ _ _ _, wordR_op (by decide) _ _ _ _ _⟩

theorem norm (rd : RegNum) : Statement (.norm rd) :=
  ⟨wordR_upper (by decide) _ _ _ _ _, wordR_op (by decide) _ _ _ _ _⟩

theorem importTop (rd : RegNum) : Statement (.importTop rd) :=
  ⟨wordR_upper (by decide) _ _ _ _ _, wordR_op (by decide) _ _ _ _ _⟩

theorem rstbuf (rd rs : RegNum) : Statement (.rstbuf rd rs) :=
  ⟨wordR_upper (by decide) _ _ _ _ _, wordR_op (by decide) _ _ _ _ _⟩

theorem setpad (rs : RegNum) : Statement (.setpad rs) :=
  ⟨wordR_upper (by decide) _ _ _ _ _, wordR_op (by decide) _ _ _ _ _⟩

theorem add (rd ra rb : RegNum) : Statement (.add rd ra rb) :=
  ⟨wordR_upper (by decide) _ _ _ _ _, wordR_op (by decide) _ _ _ _ _⟩

theorem neg (rd ra : RegNum) : Statement (.neg rd ra) :=
  ⟨wordR_upper (by decide) _ _ _ _ _, wordR_op (by decide) _ _ _ _ _⟩

theorem sub (rd ra rb : RegNum) : Statement (.sub rd ra rb) :=
  ⟨wordR_upper (by decide) _ _ _ _ _, wordR_op (by decide) _ _ _ _ _⟩

theorem mul (rd ra rb : RegNum) : Statement (.mul rd ra rb) :=
  ⟨wordR_upper (by decide) _ _ _ _ _, wordR_op (by decide) _ _ _ _ _⟩

theorem shl1 (rd ra : RegNum) : Statement (.shl1 rd ra) :=
  ⟨wordR_upper (by decide) _ _ _ _ _, wordR_op (by decide) _ _ _ _ _⟩

theorem shr1 (rd ra : RegNum) : Statement (.shr1 rd ra) :=
  ⟨wordR_upper (by decide) _ _ _ _ _, wordR_op (by decide) _ _ _ _ _⟩

theorem shl (rd ra : RegNum) (n : BitVec 16) : Statement (.shl rd ra n) :=
  ⟨wordI_upper (by decide) _ _ _, wordI_op (by decide) _ _ _⟩

theorem shr (rd ra : RegNum) (n : BitVec 16) : Statement (.shr rd ra n) :=
  ⟨wordI_upper (by decide) _ _ _, wordI_op (by decide) _ _ _⟩

theorem div (rq rr ra rb : RegNum) : Statement (.div rq rr ra rb) :=
  ⟨wordR_upper (by decide) _ _ _ _ _, wordR_op (by decide) _ _ _ _ _⟩

theorem cmp (ra rb : RegNum) : Statement (.cmp ra rb) :=
  ⟨wordR_upper (by decide) _ _ _ _ _, wordR_op (by decide) _ _ _ _ _⟩

theorem isodd (ra : RegNum) : Statement (.isodd ra) :=
  ⟨wordR_upper (by decide) _ _ _ _ _, wordR_op (by decide) _ _ _ _ _⟩

theorem abs (rd ra : RegNum) : Statement (.abs rd ra) :=
  ⟨wordR_upper (by decide) _ _ _ _ _, wordR_op (by decide) _ _ _ _ _⟩

theorem isneg (ra : RegNum) : Statement (.isneg ra) :=
  ⟨wordR_upper (by decide) _ _ _ _ _, wordR_op (by decide) _ _ _ _ _⟩

theorem monfac (rd rn : RegNum) : Statement (.monfac rd rn) :=
  ⟨wordR_upper (by decide) _ _ _ _ _, wordR_op (by decide) _ _ _ _ _⟩

theorem monpro (rd ra rb rn : RegNum) : Statement (.monpro rd ra rb rn) :=
  ⟨wordR_upper (by decide) _ _ _ _ _, wordR_op (by decide) _ _ _ _ _⟩

theorem monmul (rd ra rb rn : RegNum) : Statement (.monmul rd ra rb rn) :=
  ⟨wordR_upper (by decide) _ _ _ _ _, wordR_op (by decide) _ _ _ _ _⟩

theorem monexp (rd rbase rexp rn : RegNum) : Statement (.monexp rd rbase rexp rn) :=
  ⟨wordR_upper (by decide) _ _ _ _ _, wordR_op (by decide) _ _ _ _ _⟩

theorem mrwit (ra rn : RegNum) : Statement (.mrwit ra rn) :=
  ⟨wordR_upper (by decide) _ _ _ _ _, wordR_op (by decide) _ _ _ _ _⟩

theorem isprime (rn : RegNum) : Statement (.isprime rn) :=
  ⟨wordR_upper (by decide) _ _ _ _ _, wordR_op (by decide) _ _ _ _ _⟩

theorem egcd (rg rx ry ra rb : RegNum) : Statement (.egcd rg rx ry ra rb) :=
  ⟨wordR_upper (by decide) _ _ _ _ _, wordR_op (by decide) _ _ _ _ _⟩

theorem modinv (rd rv rm : RegNum) : Statement (.modinv rd rv rm) :=
  ⟨wordR_upper (by decide) _ _ _ _ _, wordR_op (by decide) _ _ _ _ _⟩

theorem rndcop (rd rl : RegNum) : Statement (.rndcop rd rl) :=
  ⟨wordR_upper (by decide) _ _ _ _ _, wordR_op (by decide) _ _ _ _ _⟩

theorem gencand (rc ri : RegNum) : Statement (.gencand rc ri) :=
  ⟨wordR_upper (by decide) _ _ _ _ _, wordR_op (by decide) _ _ _ _ _⟩

theorem findpr (rd : RegNum) : Statement (.findpr rd) :=
  ⟨wordR_upper (by decide) _ _ _ _ _, wordR_op (by decide) _ _ _ _ _⟩

theorem genkey (rn re rd : RegNum) : Statement (.genkey rn re rd) :=
  ⟨wordR_upper (by decide) _ _ _ _ _, wordR_op (by decide) _ _ _ _ _⟩

theorem encode (rd rdata rexp rn : RegNum) : Statement (.encode rd rdata rexp rn) :=
  ⟨wordR_upper (by decide) _ _ _ _ _, wordR_op (by decide) _ _ _ _ _⟩

theorem decode (rd rc rexp rn : RegNum) : Statement (.decode rd rc rexp rn) :=
  ⟨wordR_upper (by decide) _ _ _ _ _, wordR_op (by decide) _ _ _ _ _⟩

end Sys2Proof.Laws.Opcode
end

