-- ==== Sys2Proof/Laws/Registers.lean ====
section
/-! SUPPORT. Registers: reading one after a write, the value a written register holds (spec/10_state.md
R24), the top index, and the canonical form (R22). -/

namespace Sys2Proof

theorem Level.modulus_eq (L : Level) : L.modulus = 2 ^ (64 * (L.words + 1)) := by
  have h : 64 * (L.words + 1) = 64 + L.bits := by cases L <;> rfl
  rw [h, Nat.pow_add]
  rfl

theorem Level.words_le (L : Level) : L.words ≤ 16 := by cases L <;> decide

theorem Level.bits_pos (L : Level) : 0 < L.bits := by cases L <;> decide

theorem Level.settled_pos (L : Level) : 0 < L.settled := Nat.pos_of_ne_zero (by unfold Level.settled; positivity)

theorem Level.le_settled (L : Level) : 2 ^ 128 ≤ L.settled := by
  cases L <;> exact Nat.pow_le_pow_right (by decide) (by decide)

theorem Level.settled_le (L : Level) : L.settled ≤ 2 ^ 1024 := by
  cases L <;> exact Nat.pow_le_pow_right (by decide) (by decide)

end Sys2Proof

namespace Sys2Proof.Machine

theorem State.reg_eq (s : State) (r : RegNum) : s.reg r = s.b[r.val] := rfl

theorem State.reg_setReg (s : State) (r q : RegNum) (x : BigReg) :
    (s.setReg r x).reg q = if q = r then x else s.reg q := by
  simp only [State.reg_eq, State.setReg, Vector.getElem_set, Fin.ext_iff, eq_comm]

@[simp] theorem State.reg_setReg_same (s : State) (r : RegNum) (x : BigReg) : (s.setReg r x).reg r = x := by
  simp [State.reg_setReg]

theorem State.reg_setReg_other (s : State) {r q : RegNum} (x : BigReg) (h : q ≠ r) :
    (s.setReg r x).reg q = s.reg q := by simp [State.reg_setReg, h]

theorem State.reg_writeReg (s : State) (L : Level) (r q : RegNum) (v : Nat) :
    (s.writeReg L r v).reg q = if q = r then BigReg.ofNat L v else s.reg q := State.reg_setReg s r q _

@[simp] theorem State.reg_writeReg_same (s : State) (L : Level) (r : RegNum) (v : Nat) :
    (s.writeReg L r v).reg r = BigReg.ofNat L v := State.reg_setReg_same s r _

theorem State.reg_writeReg_other (s : State) (L : Level) {r q : RegNum} (v : Nat) (h : q ≠ r) :
    (s.writeReg L r v).reg q = s.reg q := State.reg_setReg_other s _ h

@[simp] theorem State.reg_invalidateAll (s : State) (r : RegNum) :
    s.invalidateAll.reg r = { s.reg r with valid := false } := by
  simp only [State.reg_eq, State.invalidateAll, Vector.getElem_ofFn]
  rfl

@[simp] theorem State.reg_reset (r : RegNum) : State.reset.reg r = BigReg.cleared := by
  simp [State.reg_eq, State.reset]

/-! A named update of another field leaves the registers alone. -/

@[simp] theorem State.reg_complete (s : State) (r : RegNum) : s.complete.reg r = s.reg r := rfl
@[simp] theorem State.reg_raise (s : State) (e : Err) (r : RegNum) : (s.raise e).reg r = s.reg r := rfl
@[simp] theorem State.reg_setRes (s : State) (v : Nat) (r : RegNum) : (s.setRes v).reg r = s.reg r := rfl
@[simp] theorem State.reg_setPulls (s : State) (pos : Nat) (r : RegNum) : (s.setPulls pos).reg r = s.reg r := rfl
@[simp] theorem State.reg_stillBusy (s : State) (r : RegNum) : s.stillBusy.reg r = s.reg r := rfl
@[simp] theorem State.reg_noteOverflow (s : State) (L : Level) (x : Nat) (r : RegNum) :
    (s.noteOverflow L x).reg r = s.reg r := rfl
@[simp] theorem State.reg_accept (s : State) (c : Word) (r : RegNum) : (s.accept c).reg r = s.reg r := rfl

@[simp] theorem State.setReg_setReg (s : State) (r : RegNum) (x y : BigReg) :
    (s.setReg r x).setReg r y = s.setReg r y := by
  simp [State.setReg, Vector.set_set]

@[simp] theorem State.setReg_self (s : State) (r : RegNum) : s.setReg r (s.reg r) = s := by
  simp [State.setReg, State.reg_eq]

theorem wordsValue_lt (ws : List Word) : wordsValue ws < 2 ^ (64 * ws.length) := by
  induction ws with
  | nil => simp [wordsValue]
  | cons w ws ih =>
    have := w.isLt
    rw [wordsValue, List.length_cons, Nat.mul_succ, Nat.add_comm (64 * _), Nat.pow_add]
    have h2 : 2 ^ 64 * (wordsValue ws + 1) ≤ 2 ^ 64 * 2 ^ (64 * ws.length) := Nat.mul_le_mul_left _ ih
    omega

theorem BigReg.val_lt (x : BigReg) (L : Level) : x.val L < L.modulus := by
  have h := wordsValue_lt (x.w.toList.take (L.words + 1))
  have : (x.w.toList.take (L.words + 1)).length = L.words + 1 := by
    have := L.words_le
    simp; omega
  rw [this] at h
  rwa [Level.modulus_eq]

theorem wordsValue_digits (v n : Nat) :
    wordsValue ((List.range n).map fun i => BitVec.ofNat 64 (v / 2 ^ (64 * i))) = v % 2 ^ (64 * n) := by
  induction n generalizing v with
  | zero => simp [wordsValue, Nat.mod_one]
  | succ n ih =>
    rw [List.range_succ_eq_map]
    simp only [List.map_cons, List.map_map, wordsValue, Function.comp_def]
    have h : ∀ i, v / 2 ^ (64 * (i + 1)) = v / 2 ^ 64 / 2 ^ (64 * i) := by
      intro i; rw [Nat.div_div_eq_div_mul, ← Nat.pow_add]; congr 2; omega
    simp only [Nat.succ_eq_add_one, h, ih]
    rw [Nat.mul_succ, Nat.add_comm (64 * n) 64, Nat.pow_add, Nat.mod_mul]
    simp

@[simp] theorem BigReg.ofNat_valid (L : Level) (v : Nat) : (BigReg.ofNat L v).valid = true := rfl

theorem BigReg.word_ofNat (L : Level) (v : Nat) (i : Fin 17) :
    (BigReg.ofNat L v).word i = if i.val ≤ L.words then BitVec.ofNat 64 (v / 2 ^ (64 * i.val)) else 0 := by
  simp [BigReg.word, BigReg.ofNat, Vector.get_ofFn]

theorem BigReg.val_ofNat (L : Level) (v : Nat) : (BigReg.ofNat L v).val L = v % L.modulus := by
  rw [Level.modulus_eq, ← wordsValue_digits, BigReg.val]
  congr 1
  have := L.words_le
  apply List.ext_getElem
  · simp [BigReg.ofNat]; omega
  · intro i h1 h2
    simp at h2
    simp [BigReg.ofNat]
    omega

/-- Above the top index every word is zero. -/
theorem topIndex_above (ws : List Word) (i : Nat) (h : i < ws.length) (hi : topIndex ws < i) : ws[i] = 0 := by
  induction ws generalizing i with
  | nil => simp at h
  | cons w ws ih =>
    obtain ⟨j, rfl⟩ : ∃ j, i = j + 1 := ⟨i - 1, by omega⟩
    simp only [List.getElem_cons_succ]
    simp only [topIndex] at hi
    split at hi
    · rename_i hz
      have hj : j < ws.length := by simpa using h
      simpa using List.all_eq_true.mp hz ws[j] (List.getElem_mem hj)
    · exact ih j (by simpa using h) (by omega)

/-- A nonzero top index names a nonzero word. -/
theorem topIndex_word (ws : List Word) (h0 : topIndex ws ≠ 0) :
    ∃ h : topIndex ws < ws.length, ws[topIndex ws] ≠ 0 := by
  induction ws with
  | nil => simp [topIndex] at h0
  | cons w ws ih =>
    by_cases hz : ws.all (· == 0) = true
    · rw [topIndex, if_pos hz] at h0
      exact absurd rfl h0
    · have ht : topIndex (w :: ws) = topIndex ws + 1 := by rw [topIndex, if_neg hz]
      simp only [ht]
      by_cases h1 : topIndex ws = 0
      · cases ws with
        | nil => simp at hz
        | cons x xs =>
          refine ⟨by simp [h1], ?_⟩
          simp only [h1, List.getElem_cons_succ, List.getElem_cons_zero]
          intro hx
          rw [topIndex] at h1
          split at h1
          · rename_i hall
            exact hz (by rw [List.all_cons, hall, hx]; rfl)
          · exact absurd h1 (Nat.succ_ne_zero _)
      · obtain ⟨h, hw⟩ := ih h1
        exact ⟨by simp; omega, by simpa using hw⟩

theorem topIndex_le_length (ws : List Word) : topIndex ws ≤ ws.length := by
  by_cases h : topIndex ws = 0
  · omega
  · exact (topIndex_word ws h).1.le

/-- The words a top index of the register's own words makes canonical. -/
theorem BigReg.canonical_of_words (L : Level) (w : Vector Word 17) (v : Bool)
    (h : topIndex w.toList ≤ L.words) :
    BigReg.Canonical { w := w, top := BitVec.ofNat 64 (topIndex w.toList), valid := v } L := by
  have hl := topIndex_le_length w.toList
  have hlen : w.toList.length = 17 := by simp
  have ht : (BitVec.ofNat 64 (topIndex w.toList)).toNat = topIndex w.toList := by
    simp; omega
  have above : ∀ i : Fin 17, topIndex w.toList < i.val → w.get i = 0 := by
    intro i hi
    have := topIndex_above w.toList i.val (by rw [hlen]; exact i.isLt) hi
    simpa [Vector.get_eq_getElem] using this
  refine ⟨fun i hi => above i (by omega), fun i hi => above i (by rw [ht] at hi; exact hi), ?_⟩
  by_cases h0 : topIndex w.toList = 0
  · left; simp [h0]
  · right
    obtain ⟨hb, hw⟩ := topIndex_word w.toList h0
    refine ⟨⟨topIndex w.toList, by omega⟩, ht.symm, ?_⟩
    simpa [BigReg.word, Vector.get_eq_getElem] using hw

theorem BigReg.canonical_ofNat (L : Level) (v : Nat) : (BigReg.ofNat L v).Canonical L := by
  apply BigReg.canonical_of_words
  by_contra hc
  obtain ⟨hb, hw⟩ := topIndex_word _ (Nat.ne_of_gt (Nat.zero_lt_of_lt (Nat.lt_of_not_le hc)))
  apply hw
  simp only [Vector.getElem_toList, Vector.getElem_ofFn]
  rw [if_neg hc]

/-- IMPORT's check (spec/40_config_data.md R113) is the invariant of R22. -/
theorem BigReg.formatOk_iff (x : BigReg) (L : Level) : x.formatOk L = true ↔ x.Canonical L := by
  have hW := L.words_le
  simp only [BigReg.formatOk, BigReg.Canonical, Bool.and_eq_true, Bool.or_eq_true, decide_eq_true_eq, List.all_eq_true, beq_iff_eq, bne_iff_ne]
  constructor
  · rintro ⟨⟨h1, h2⟩, h3⟩
    have key : ∀ i : Fin 17, x.top.toNat < i.val → x.word i = 0 := by
      intro i hi
      apply h2
      rw [List.mem_drop_iff_getElem]
      refine ⟨i.val - (x.top.toNat + 1), ?_, ?_⟩
      · simp; omega
      · simp [BigReg.word, Vector.get_eq_getElem]; congr 1; omega
    refine ⟨fun i hi => key i (by omega), key, ?_⟩
    rcases h3 with h3 | h3
    · left; apply BitVec.eq_of_toNat_eq; simpa using h3
    · right
      refine ⟨⟨x.top.toNat, by omega⟩, rfl, ?_⟩
      rw [List.getD_eq_getElem _ _ (by simp; omega)] at h3
      simpa [BigReg.word, Vector.get_eq_getElem] using h3
  · rintro ⟨h1, h2, h3⟩
    have ht : x.top.toNat ≤ L.words := by
      rcases h3 with h3 | ⟨i, hi, h3⟩
      · simp [h3]
      · by_contra hc; exact h3 (h1 i (by omega))
    refine ⟨⟨ht, ?_⟩, ?_⟩
    · intro w hw
      rw [List.mem_drop_iff_getElem] at hw
      obtain ⟨i, hi, rfl⟩ := hw
      simp at hi
      have := h2 ⟨x.top.toNat + 1 + i, by omega⟩ (by simp; omega)
      simpa [BigReg.word, Vector.get_eq_getElem] using this
    · rcases h3 with h3 | ⟨i, hi, h3⟩
      · left; simp [h3]
      · right
        rw [List.getD_eq_getElem _ _ (by simp; omega)]
        simp only [BigReg.word, Vector.get_eq_getElem, hi] at h3
        simpa using h3

/-- The legal immediates of SETLVL (spec/40_config_data.md R110). -/
theorem levelOfBits_eq_some (L : Level) (n : Nat) : levelOfBits n = some L ↔ n = L.bits := by
  constructor
  · intro h
    unfold levelOfBits at h
    repeat' split at h
    all_goals simp at h
    all_goals subst h; simpa [Level.bits]
  · rintro rfl; cases L <;> rfl
theorem levelOfBits_eq_none (n : Nat) : levelOfBits n = none ↔ ∀ L : Level, n ≠ L.bits := by
  constructor
  · intro h L hn; rw [(levelOfBits_eq_some L n).mpr hn] at h; simp at h
  · intro h; cases he : levelOfBits n with
    | none => rfl
    | some L => exact absurd ((levelOfBits_eq_some L n).mp he) (h L)

/-- An L-bit number fits the 1024 bits XPAD, MC_N and MC_F are held in (log 10). -/
theorem toNat_ofNat_1024 {L : Level} {v : Nat} (h : v < L.settled) : (BitVec.ofNat 1024 v).toNat = v := by
  have := L.settled_le
  rw [BitVec.toNat_ofNat, Nat.mod_eq_of_lt]; omega

theorem encSigned_lt (L : Level) (x : Int) : encSigned L x < 2 ^ L.bits := by
  have hp := L.settled_pos
  unfold encSigned
  have h1 := Int.emod_nonneg x (show (L.settled : Int) ≠ 0 by omega)
  have h2 := Int.emod_lt_of_pos x (show (0 : Int) < L.settled by omega)
  have : (x % (L.settled : Int)).toNat < L.settled := by omega
  exact this

/-- A number of fewer than L − 1 bits survives L-bit two's complement (spec/00_scope.md R10). -/
theorem decSigned_encSigned (L : Level) (x : Int) (h : 2 * x.natAbs < L.settled) : decSigned L (encSigned L x) = x := by
  have hp := L.bits_pos
  have h2 : L.settled = 2 * 2 ^ (L.bits - 1) := by unfold Level.settled; rw [← pow_succ']; congr 1; omega
  unfold decSigned encSigned
  by_cases hx : 0 ≤ x
  · rw [Int.emod_eq_of_lt hx (by omega)]
    have : Nat.testBit x.toNat (L.bits - 1) = false := Nat.testBit_lt_two_pow (by omega)
    rw [this]; simp; omega
  · have : x % (L.settled : Int) = x + L.settled := by
      rw [← Int.add_emod_right, Int.emod_eq_of_lt (by omega) (by omega)]
    rw [this]
    have ht : Nat.testBit (x + L.settled).toNat (L.bits - 1) = true := by
      rw [Nat.testBit_eq_decide_div_mod_eq]
      have h3 : (x + L.settled).toNat / 2 ^ (L.bits - 1) = 1 := by
        apply Nat.div_eq_of_lt_le <;> omega
      rw [h3]; rfl
    rw [ht]; simp; omega

/-- `Factor(n)` writes the context and nothing else. -/
theorem State.withContext_cases (s : State) (L : Level) (n : Nat) :
    s.withContext L n = s ∨ ∃ f, s.withContext L n = { s with mcValid := true, mcN := BitVec.ofNat 1024 n, mcF := f } := by
  unfold State.withContext State.factor
  split
  · exact .inl rfl
  · exact .inr ⟨_, rfl⟩

@[simp] theorem State.reg_withContext (s : State) (L : Level) (n : Nat) (r : RegNum) :
    (s.withContext L n).reg r = s.reg r := by
  rcases s.withContext_cases L n with h | ⟨f, h⟩ <;> rw [h]
  rfl

/-- After `Factor(n)` the context holds n (spec/10_state.md R43). -/
theorem State.withContext_spec (s : State) (L n) (h : n < L.settled) : (s.withContext L n).mcValid = true ∧ (s.withContext L n).mcN.toNat = n := by
  unfold State.withContext State.factor
  split
  · rename_i h; simpa using h
  · exact ⟨rfl, toNat_ofNat_1024 h⟩

/-- `Factor(n)` in a state that meets the invariant (spec/10_state.md R43): the factor, and the context that
holds n and it. -/
theorem State.factor_spec {s : State} {L} (hi : s.Inv) (hl : s.level = some L) {n} (hn : n < L.settled) (h0 : 0 < n) :
   (s.factor L n).1 = montFactor L n ∧ (s.factor L n).2.mcValid = true ∧ (s.factor L n).2.mcN.toNat = n ∧ (s.factor L n).2.mcF.toNat = montFactor L n ∧ 
   (s.factor L n).2 = { s with mcValid := true, mcN := (s.factor L n).2.mcN, mcF := (s.factor L n).2.mcF } := by
  unfold State.factor
  split
  · rename_i h
    simp at h
    obtain ⟨L', h1, h2, h3⟩ := hi.context h.1
    rw [hl] at h1; injection h1 with h1; subst h1
    simp only [h.2] at h3 ⊢
    exact ⟨h3, h.1, trivial, h3, by rw [← h.1]⟩
  · simp only [toNat_ofNat_1024 hn]
    have : montFactor L n < L.settled := lt_trans (Nat.mod_lt _ h0) hn
    simp only [toNat_ofNat_1024 this]
    simp

end Sys2Proof.Machine
end

