-- ==== Sys2Proof/Laws/Runs.lean ====
section
/-! SUPPORT. What a finished run of each drawing function holds (`_done`), that more passes do not change a
finished run (`_more`), and that the fuel of a search loop never runs out (`_fuel`). -/

namespace Sys2Proof.Machine

variable {rho : Nat → Option Word}

theorem drawWords_pos {limit : Nat} (h : 2 ≤ limit) : 1 ≤ drawWords limit := by
  have : 1 ≤ bitlen (limit - 1) := by
    unfold bitlen; rw [if_neg (by omega)]; omega
  unfold drawWords; omega

/-- A finished `Draw(limit)` (spec/10_state.md R42): a number in [1, limit), at least one pass used, its
words pulled. -/
theorem draw_done {limit : Nat} : ∀ {left pos v p l : Nat}, draw rho limit left pos = .done v p l →
    1 ≤ v ∧ v < limit ∧ l < left ∧ p = pos + (left - l) * drawWords limit := by
  intro left
  induction left with
  | zero => intro pos v p l h; simp [draw] at h
  | succ left ih =>
    intro pos v p l h
    rw [draw] at h
    split at h
    · simp at h
    · simp only at h
      split at h
      · rename_i hv
        injection h with h1 h2 h3
        subst h1 h2 h3
        exact ⟨hv.1, hv.2, by omega, by rw [Nat.add_sub_cancel_left, one_mul]⟩
      · obtain ⟨h1, h2, h3, h4⟩ := ih h
        refine ⟨h1, h2, by omega, ?_⟩
        rw [h4, show left + 1 - l = left - l + 1 by omega]; ring

/-- More passes do not change a finished draw. -/
theorem draw_more {limit : Nat} (k : Nat) : ∀ {left pos v p l : Nat}, draw rho limit left pos = .done v p l →
    draw rho limit (left + k) pos = .done v p (l + k) := by
  intro left
  induction left with
  | zero => intro pos v p l h; simp [draw] at h
  | succ left ih =>
    intro pos v p l h
    rw [show left + 1 + k = left + k + 1 by omega, draw]
    rw [draw] at h
    split at h
    · simp at h
    · simp only at h ⊢
      split at h
      · rename_i hv
        injection h with h1 h2 h3
        subst h1 h2 h3
        rw [if_pos hv]
      · rename_i hv
        rw [if_neg hv]; exact ih h

/-- The words of a pass: pulled in turn, the first least significant (spec/10_state.md R42). -/
theorem pull_words : ∀ (ws : List Word) (pos : Nat), (∀ j < ws.length, rho (pos + j) = ws[j]?) →
    pull rho ws.length pos = some (wordsValue ws)
  | [], _, _ => rfl
  | w :: ws, pos, h => by
    have h0 : rho pos = some w := by simpa using h 0 (by simp)
    have ih := pull_words ws (pos + 1) fun j hj => by
      have := h (j + 1) (by simpa using hj)
      rwa [← add_assoc, Nat.add_right_comm] at this
    simp [pull, h0, ih, wordsValue]

/-- A pass that meets a word the source does not deliver. -/
theorem pull_none {nw pos j : Nat} (hj : j < nw) (h : rho (pos + j) = none) : pull rho nw pos = none := by
  induction nw generalizing pos j with
  | zero => omega
  | succ nw ih =>
    rw [pull]
    cases j with
    | zero => simp only [add_zero] at h; rw [h]
    | succ j =>
      split
      · rfl
      · rw [ih (j := j) (by omega) (by rwa [Nat.add_right_comm]), Option.map_none]

/-- A draw with no pass granted stands at its first cancellation point. -/
@[simp] theorem draw_zero (limit pos : Nat) : draw rho limit 0 pos = .atPoint pos := rfl

/-! ### ISPRIME -/

/-- `Wit(a, n)` computes whether a proves n composite (spec/43_primality.md R180). -/
theorem witnesses_iff {a n : Nat} (hn : 2 ≤ n) : Witnesses a n ↔ witness a n = true := by
  constructor
  · rintro ⟨t, u, h, hu, hw⟩
    exact (witness_iff hn hu h).mpr hw
  · intro hw
    obtain ⟨h, hu⟩ := splitTwos_spec n (n - 1) (by omega) (by omega)
    exact ⟨_, _, h, hu, (witness_iff hn hu h).mp hw⟩

/-- At most k rounds end as R182 says, on bases drawn in turn. -/
theorem primeRounds_iff {n : Nat} (hn : 2 ≤ n) {v : Bool} {p l : Nat} : ∀ {k left pos : Nat},
    primeRounds rho n k left pos = .done v p l ↔
      ∃ bases, DrawnInTurn rho n bases left pos l p ∧ RoundsEnd k n bases v := by
  intro k
  induction k with
  | zero =>
    intro left pos
    simp only [primeRounds, Run.done.injEq]
    constructor
    · rintro ⟨rfl, rfl, rfl⟩
      exact ⟨[], ⟨rfl, rfl⟩, .inl ⟨rfl, rfl, by simp⟩⟩
    · rintro ⟨bases, hd, ⟨rfl, hk, -⟩ | ⟨-, init, a, -, hk, -⟩⟩
      · obtain rfl := List.length_eq_zero_iff.mp hk
        exact ⟨rfl, hd.2.symm, hd.1.symm⟩
      · omega
  | succ k ih =>
    intro left pos
    rw [primeRounds, andThen_eq_done]
    constructor
    · rintro ⟨a, p1, l1, h1, h2⟩
      by_cases hw : witness a n = true
      · rw [if_pos hw] at h2
        injection h2 with e1 e2 e3; subst e1 e2 e3
        exact ⟨[a], ⟨_, _, h1, rfl, rfl⟩,
          .inr ⟨rfl, [], a, rfl, by simp, by simp, (witnesses_iff hn).mpr hw⟩⟩
      · rw [if_neg hw, ih] at h2
        rw [← witnesses_iff hn] at hw
        obtain ⟨bases, hd, ⟨hv, hk, hall⟩ | ⟨hv, init, b, rfl, hk, hall, hb⟩⟩ := h2
        · exact ⟨a :: bases, ⟨_, _, h1, hd⟩, .inl ⟨hv, by simp [hk], by simpa using ⟨hw, hall⟩⟩⟩
        · exact ⟨a :: (init ++ [b]), ⟨_, _, h1, hd⟩,
            .inr ⟨hv, a :: init, b, rfl, by simpa using hk, by simpa using ⟨hw, hall⟩, hb⟩⟩
    · rintro ⟨bases, hd, ⟨hv, hk, hall⟩ | ⟨hv, init, b, rfl, hk, hall, hb⟩⟩
      · obtain ⟨a, bases, rfl⟩ := List.exists_cons_of_length_eq_add_one hk
        obtain ⟨l1, p1, h1, hd⟩ := hd
        simp only [List.mem_cons, forall_eq_or_imp, witnesses_iff hn] at hall
        refine ⟨a, p1, l1, h1, ?_⟩
        rw [if_neg hall.1, ih]
        exact ⟨bases, hd, .inl ⟨hv, by simpa using hk, by simpa [witnesses_iff hn] using hall.2⟩⟩
      · cases init with
        | nil =>
          obtain ⟨l1, p1, h1, rfl, rfl⟩ := hd
          exact ⟨b, _, _, h1, by rw [if_pos ((witnesses_iff hn).mp hb), hv]⟩
        | cons a init =>
          obtain ⟨l1, p1, h1, hd⟩ := hd
          simp only [List.mem_cons, forall_eq_or_imp] at hall
          refine ⟨a, p1, l1, h1, ?_⟩
          rw [if_neg (fun h => hall.1 ((witnesses_iff hn).mpr h)), ih]
          exact ⟨init ++ [b], hd, .inr ⟨hv, init, b, rfl, by simpa using hk, hall.2, hb⟩⟩

theorem primeRounds_done {n : Nat} : ∀ {k left pos p l : Nat} {b : Bool}, primeRounds rho n k left pos = .done b p l →
    l ≤ left ∧ pos ≤ p ∧ (n.Prime → b = true) ∧ (1 ≤ k → l < left) := by
  intro k
  induction k with
  | zero => intro left pos p l b h; simp [primeRounds] at h; obtain ⟨rfl, rfl, rfl⟩ := h; simp
  | succ k ih =>
    intro left pos p l b h
    rw [primeRounds, andThen_eq_done] at h
    obtain ⟨a, p1, l1, h1, h2⟩ := h
    obtain ⟨d1, d2, d3, d4⟩ := draw_done h1
    split at h2
    · rename_i hw
      injection h2 with e1 e2 e3
      subst e1 e2 e3
      refine ⟨by omega, by omega, fun hp => ?_, fun _ => d3⟩
      rw [witness_prime hp d1 d2] at hw; simp at hw
    · obtain ⟨i1, i2, i3, _⟩ := ih h2
      exact ⟨by omega, by omega, i3, fun _ => by omega⟩

theorem primeRounds_more {n : Nat} (m : Nat) : ∀ {k left pos p l : Nat} {b : Bool},
    primeRounds rho n k left pos = .done b p l → primeRounds rho n k (left + m) pos = .done b p (l + m) := by
  intro k
  induction k with
  | zero => intro left pos p l b h; simp [primeRounds] at h ⊢; exact ⟨h.1, h.2.1, by omega⟩
  | succ k ih =>
    intro left pos p l b h
    rw [primeRounds, andThen_eq_done] at h ⊢
    obtain ⟨a, p1, l1, h1, h2⟩ := h
    refine ⟨a, p1, l1 + m, draw_more m h1, ?_⟩
    split at h2
    · injection h2 with e1 e2 e3
      subst e1 e2 e3
      rw [if_pos ‹_›]
    · rw [if_neg ‹_›]; exact ih h2

/-- A run of `IsPrime(n)` is finished as R182 words it. -/
theorem isPrime_iff {n left pos p l : Nat} {b : Bool} :
    isPrime rho n left pos = .done b p l ↔ Tested rho n b left pos l p := by
  have early : ∀ v : Bool, Run.done v pos left = .done b p l ↔ b = v ∧ l = left ∧ p = pos := fun v => by
    rw [Run.done.injEq]; constructor <;> rintro ⟨rfl, rfl, rfl⟩ <;> exact ⟨rfl, rfl, rfl⟩
  unfold isPrime Tested
  by_cases h1 : n < 2
  · rw [if_pos h1, if_pos (.inl h1), early, decide_eq_false (by omega)]
  rw [if_neg h1]
  by_cases h2 : n = 2
  · rw [if_pos h2, if_pos (by omega), early, decide_eq_true h2]
  rw [if_neg h2]
  by_cases h3 : n % 2 = 0
  · rw [if_pos h3, if_pos (.inr h3), early, decide_eq_false h2]
  · rw [if_neg h3, if_neg (by omega)]
    exact primeRounds_iff (by omega)

/-- The test that accepted an odd number. -/
theorem Tested.bases {n left pos left' pos' : Nat} (h : Tested rho n true left pos left' pos') (hn : n % 2 = 1) :
    ∃ bases, DrawnInTurn rho n bases left pos left' pos' ∧ RoundsEnd 10 n bases true := by
  unfold Tested at h
  split at h
  · have : n = 2 := of_decide_eq_true h.1.symm
    omega
  · exact h

/-- A finished `IsPrime(n)` (spec/43_primality.md R182): a prime is never rejected, and what is accepted is
2 or an odd number above 2. -/
theorem isPrime_done {n left pos p l : Nat} {b : Bool} (h : isPrime rho n left pos = .done b p l) :
    l ≤ left ∧ pos ≤ p ∧ (n.Prime → b = true) ∧ (b = true → n = 2 ∨ 3 ≤ n ∧ n % 2 = 1) ∧
      (3 ≤ n → n % 2 = 1 → l < left) := by
  unfold isPrime at h
  split at h
  · injection h with e1 e2 e3; subst e1 e2 e3
    refine ⟨le_refl _, le_refl _, fun hp => ?_, by simp, by omega⟩
    have := hp.two_le; omega
  split at h
  · injection h with e1 e2 e3; subst e1 e2 e3
    exact ⟨le_refl _, le_refl _, by simp, by omega, by omega⟩
  split at h
  · injection h with e1 e2 e3; subst e1 e2 e3
    refine ⟨le_refl _, le_refl _, fun hp => ?_, by simp, by omega⟩
    rcases hp.eq_two_or_odd with h | h <;> omega
  · obtain ⟨h1, h2, h3, h4⟩ := primeRounds_done h
    exact ⟨h1, h2, h3, fun _ => .inr (by omega), fun _ _ => h4 (by decide)⟩

theorem isPrime_more {n left pos p l : Nat} {b : Bool} (m : Nat) (h : isPrime rho n left pos = .done b p l) :
    isPrime rho n (left + m) pos = .done b p (l + m) := by
  unfold isPrime at h ⊢
  split at h
  · simp_all
  split at h
  · simp_all
  split at h
  · simp_all
  · rw [if_neg ‹_›, if_neg ‹_›, if_neg ‹_›]
    exact primeRounds_more m h

/-! ### RNDCOP -/

theorem coprimeLoop_done {limit : Nat} (hl : 2 ≤ limit) : ∀ {fuel left pos v p l : Nat},
    coprimeLoop rho limit fuel left pos = .done v p l →
    1 ≤ v ∧ v < limit ∧ Nat.gcd v limit = 1 ∧ l < left ∧ pos < p := by
  intro fuel
  induction fuel with
  | zero => intro left pos v p l h; simp [coprimeLoop] at h
  | succ fuel ih =>
    intro left pos v p l h
    rw [coprimeLoop, andThen_eq_done] at h
    obtain ⟨a, p1, l1, h1, h2⟩ := h
    obtain ⟨d1, d2, d3, d4⟩ := draw_done h1
    have : 1 ≤ (left - l1) * drawWords limit := Nat.mul_pos (by omega) (drawWords_pos hl)
    split at h2
    · rename_i hg
      injection h2 with e1 e2 e3; subst e1 e2 e3
      exact ⟨d1, d2, by rw [← gcdOf_eq]; exact hg, d3, by omega⟩
    · obtain ⟨i1, i2, i3, i4, i5⟩ := ih h2
      exact ⟨i1, i2, i3, by omega, by omega⟩

/-- A run of the loop of `RandomCoprime(limit)` is finished as R194 words it; `fuel` above `left` is enough. -/
theorem coprimeLoop_iff {limit v p l : Nat} : ∀ {fuel left pos : Nat}, left < fuel →
    (coprimeLoop rho limit fuel left pos = .done v p l ↔ FirstCoprime rho limit v left pos l p) := by
  intro fuel
  induction fuel with
  | zero => intro left pos h; omega
  | succ fuel ih =>
    intro left pos h
    rw [coprimeLoop, andThen_eq_done]
    constructor
    · rintro ⟨a, p1, l1, h1, h2⟩
      have := (draw_done h1).2.2.1
      rw [gcdOf_eq] at h2
      split at h2
      · rename_i hg
        injection h2 with e1 e2 e3; subst e1 e2 e3
        exact ⟨[], ⟨_, _, h1, rfl, rfl⟩, by simp, hg⟩
      · rename_i hg
        obtain ⟨init, hd, hi, hv⟩ := (ih (by omega)).mp h2
        exact ⟨a :: init, ⟨_, _, h1, hd⟩, by simpa using ⟨hg, hi⟩, hv⟩
    · rintro ⟨init, hd, hi, hv⟩
      cases init with
      | nil =>
        obtain ⟨l1, p1, h1, rfl, rfl⟩ := hd
        exact ⟨v, _, _, h1, by rw [gcdOf_eq, if_pos hv]⟩
      | cons a init =>
        obtain ⟨l1, p1, h1, hd⟩ := hd
        have := (draw_done h1).2.2.1
        simp only [List.mem_cons, forall_eq_or_imp] at hi
        exact ⟨a, p1, l1, h1, by rw [gcdOf_eq, if_neg hi.1, ih (by omega)]; exact ⟨init, hd, hi.2, hv⟩⟩

theorem randomCoprime_iff {limit v p l left pos : Nat} :
    randomCoprime rho limit left pos = .done v p l ↔ FirstCoprime rho limit v left pos l p :=
  coprimeLoop_iff (by omega)

theorem coprimeLoop_more {limit : Nat} (m : Nat) : ∀ {fuel left pos v p l : Nat},
    coprimeLoop rho limit fuel left pos = .done v p l → ∀ fuel' ≥ fuel,
    coprimeLoop rho limit fuel' (left + m) pos = .done v p (l + m) := by
  intro fuel
  induction fuel with
  | zero => intro left pos v p l h; simp [coprimeLoop] at h
  | succ fuel ih =>
    intro left pos v p l h fuel' hf
    obtain ⟨f, rfl⟩ : ∃ f, fuel' = f + 1 := ⟨fuel' - 1, by omega⟩
    rw [coprimeLoop, andThen_eq_done] at h ⊢
    obtain ⟨a, p1, l1, h1, h2⟩ := h
    refine ⟨a, p1, l1 + m, draw_more m h1, ?_⟩
    split at h2
    · injection h2 with e1 e2 e3
      subst e1 e2 e3
      rw [if_pos ‹_›]
    · rw [if_neg ‹_›]; exact ih h2 f (by omega)

/-- A finished `RandomCoprime(limit)` (spec/44_number_theory.md R194). -/
theorem randomCoprime_done {limit left pos v p l : Nat} (hl : 2 ≤ limit)
    (h : randomCoprime rho limit left pos = .done v p l) :
    1 ≤ v ∧ v < limit ∧ Nat.gcd v limit = 1 ∧ l < left ∧ pos < p := coprimeLoop_done hl h

theorem randomCoprime_more {limit left pos v p l : Nat} (m : Nat)
    (h : randomCoprime rho limit left pos = .done v p l) :
    randomCoprime rho limit (left + m) pos = .done v p (l + m) := coprimeLoop_more m h _ (by omega)

/-! ### GENCAND -/

theorem sumDraws_more {limit : Nat} (m : Nat) : ∀ {k acc left pos v p l : Nat},
    sumDraws rho limit k acc left pos = .done v p l →
    sumDraws rho limit k acc (left + m) pos = .done v p (l + m) := by
  intro k
  induction k with
  | zero => intro acc left pos v p l h; simp [sumDraws] at h ⊢; exact ⟨h.1, h.2.1, by omega⟩
  | succ k ih =>
    intro acc left pos v p l h
    rw [sumDraws, andThen_eq_done] at h ⊢
    obtain ⟨a, p1, l1, h1, h2⟩ := h
    exact ⟨a, p1, l1 + m, draw_more m h1, ih h2⟩

/-- A finished sum of draws. -/
theorem sumDraws_iff {limit v p l : Nat} : ∀ {k acc left pos : Nat}, sumDraws rho limit k acc left pos = .done v p l ↔
    ∃ vs, vs.length = k ∧ DrawnInTurn rho limit vs left pos l p ∧ v = acc + vs.sum := by
  intro k
  induction k with
  | zero =>
    intro acc left pos
    simp only [sumDraws, Run.done.injEq, List.length_eq_zero_iff]
    constructor
    · rintro ⟨rfl, rfl, rfl⟩; exact ⟨[], rfl, ⟨rfl, rfl⟩, rfl⟩
    · rintro ⟨vs, rfl, ⟨rfl, rfl⟩, rfl⟩; exact ⟨rfl, rfl, rfl⟩
  | succ k ih =>
    intro acc left pos
    rw [sumDraws, andThen_eq_done]
    constructor
    · rintro ⟨a, p1, l1, h1, h2⟩
      obtain ⟨vs, hk, hd, hv⟩ := ih.mp h2
      exact ⟨a :: vs, by simp [hk], ⟨_, _, h1, hd⟩, by rw [hv, List.sum_cons, add_assoc]⟩
    · rintro ⟨vs, hk, hd, hv⟩
      obtain ⟨a, vs, rfl⟩ := List.exists_cons_of_length_eq_add_one hk
      obtain ⟨l1, p1, h1, hd⟩ := hd
      exact ⟨a, p1, l1, h1, ih.mpr ⟨vs, by simpa using hk, hd, by rw [hv, List.sum_cons, add_assoc]⟩⟩

theorem sumDraws_done {limit : Nat} : ∀ {k acc left pos v p l : Nat},
    sumDraws rho limit k acc left pos = .done v p l → l + k ≤ left ∧ pos ≤ p := by
  intro k
  induction k with
  | zero => intro acc left pos v p l h; simp [sumDraws] at h; omega
  | succ k ih =>
    intro acc left pos v p l h
    rw [sumDraws, andThen_eq_done] at h
    obtain ⟨a, p1, l1, h1, h2⟩ := h
    have := draw_done h1
    have := ih h2
    omega

theorem pi_pos (L : Level) : 0 < Config.pi L := by cases L <;> decide

/-- A product of two candidates is below 2^L. -/
theorem pi_lt (L : Level) : Config.pi L < 2 ^ (L.bits / 2) := by cases L <;> decide +kernel

/-- Every small prime divides PI, and INC times a cofactor. -/
theorem smallPrimes_dvd_pi (L : Level) : ∀ p ∈ Config.smallPrimes, p ∣ Config.pi L := by
  cases L <;> decide +kernel

theorem smallPrimes_dvd_inc : ∀ p ∈ Config.smallPrimes, p ∣ Config.inc ∧ ¬ p ∣ Config.inc / p ∧
    ∀ q ∈ Config.smallPrimes, q ≠ p → q ∣ Config.inc / p := by decide +kernel

/-- One nudge makes `c` indivisible by its prime and keeps the residues modulo the others. -/
theorem nudge_spec (L : Level) (c : Nat) {p : Nat} (hp : p ∈ Config.smallPrimes) :
    nudge L c p % p ≠ 0 ∧ ∀ q ∈ Config.smallPrimes, q ≠ p → nudge L c p % q = c % q := by
  obtain ⟨h1, h2, h3⟩ := smallPrimes_dvd_inc p hp
  unfold nudge
  split
  · rename_i hc
    constructor
    · rw [Nat.mod_mod_of_dvd _ (smallPrimes_dvd_pi L p hp), Nat.add_mod, hc]
      simp only [zero_add, Nat.mod_mod]
      intro h
      exact h2 (Nat.dvd_of_mod_eq_zero h)
    · intro q hq hqp
      rw [Nat.mod_mod_of_dvd _ (smallPrimes_dvd_pi L q hq), Nat.add_mod, Nat.mod_eq_zero_of_dvd (h3 q hq hqp)]
      simp
  · exact ⟨‹_›, fun _ _ _ => rfl⟩

theorem nudge_lt (L : Level) {c : Nat} (p : Nat) (h : c < Config.pi L) : nudge L c p < Config.pi L := by
  unfold nudge
  split
  · exact Nat.mod_lt _ (pi_pos L)
  · exact h

theorem nudges_spec (L : Level) : ∀ (ps : List Nat), (∀ p ∈ ps, p ∈ Config.smallPrimes) → ps.Nodup → ∀ c < Config.pi L,
    ps.foldl (nudge L) c < Config.pi L ∧ (∀ p ∈ ps, ps.foldl (nudge L) c % p ≠ 0) ∧
    ∀ q ∈ Config.smallPrimes, q ∉ ps → ps.foldl (nudge L) c % q = c % q := by
  intro ps
  induction ps with
  | nil => intro _ _ c hc; simp [hc]
  | cons p ps ih =>
    intro hs hn c hc
    have hp := hs p (by simp)
    obtain ⟨hpn, hnd⟩ := List.nodup_cons.mp hn
    obtain ⟨n1, n2⟩ := nudge_spec L c hp
    obtain ⟨i1, i2, i3⟩ := ih (fun q hq => hs q (by simp [hq])) hnd (nudge L c p) (nudge_lt L p hc)
    refine ⟨i1, fun q hq => ?_, fun q hq hqn => ?_⟩
    · rcases List.mem_cons.mp hq with rfl | h
      · rw [List.foldl_cons, i3 q hp hpn]; exact n1
      · exact i2 q h
    · simp only [List.mem_cons, not_or] at hqn
      rw [List.foldl_cons, i3 q hq hqn.2, n2 q hq hqn.1]

/-- What the candidate and prime searches keep: a number in [1, PI) that no small prime divides. -/
structure Sieved (L : Level) (c : Nat) : Prop where
  pos : 1 ≤ c
  lt : c < Config.pi L
  free : ∀ p ∈ Config.smallPrimes, c % p ≠ 0

/-- The candidate made of any sum (spec/44_number_theory.md R195). -/
theorem candidateOf_sieved (L : Level) (sum : Nat) : Sieved L (candidateOf L sum) := by
  obtain ⟨h1, h2, _⟩ := nudges_spec L Config.smallPrimes (fun _ h => h) (by decide) (sum % Config.pi L)
    (Nat.mod_lt _ (pi_pos L))
  refine ⟨?_, h1, h2⟩
  rcases Nat.eq_zero_or_pos (candidateOf L sum) with h | h
  · have := h2 2 (by decide)
    unfold candidateOf at h
    rw [h] at this; simp at this
  · exact h

theorem candidate_done {L : Level} {left pos c p l : Nat} (h : candidate L rho left pos = .done c p l) :
    Sieved L c ∧ l < left ∧ pos ≤ p := by
  unfold candidate at h
  rw [andThen_eq_done] at h
  obtain ⟨a, p1, l1, h1, h2⟩ := h
  injection h2 with e1 e2 e3; subst e1 e2 e3
  have := sumDraws_done h1
  refine ⟨candidateOf_sieved L a, ?_, this.2⟩
  have : Config.smallPrimes.length = 13 := rfl
  omega

theorem inc_eq : Config.inc = 304250263527210 := by decide +kernel

theorem candidateOf_eq (L : Level) (sum : Nat) : candidateOf L sum = nudged (Config.pi L) (sum % Config.pi L) := by
  unfold candidateOf nudged
  rw [show nudge L = fun c p => if c % p = 0 then (c + 304250263527210 / p) % Config.pi L else c by
    funext c p; rw [nudge, inc_eq]]
  rfl

/-- A run of `Candidate()` is finished as R195 words it. -/
theorem candidate_iff {L : Level} {left pos c p l : Nat} :
    candidate L rho left pos = .done c p l ↔ CandidateDrawn L rho c left pos l p := by
  unfold candidate CandidateDrawn
  rw [andThen_eq_done]
  constructor
  · rintro ⟨v, p1, l1, h1, h2⟩
    injection h2 with e1 e2 e3; subst e1 e2 e3
    obtain ⟨vs, hk, hd, hv⟩ := sumDraws_iff.mp h1
    exact ⟨vs, hk, hd, by rw [candidateOf_eq, hv, zero_add]⟩
  · rintro ⟨vs, hk, hd, rfl⟩
    exact ⟨vs.sum, p, l, sumDraws_iff.mpr ⟨vs, hk, hd, (zero_add _).symm⟩, by rw [candidateOf_eq]⟩

theorem candidate_more {L : Level} {left pos c p l : Nat} (m : Nat) (h : candidate L rho left pos = .done c p l) :
    candidate L rho (left + m) pos = .done c p (l + m) := by
  unfold candidate at h ⊢
  rw [andThen_eq_done] at h ⊢
  obtain ⟨a, p1, l1, h1, h2⟩ := h
  injection h2 with e1 e2 e3; subst e1 e2 e3
  exact ⟨a, p1, l1 + m, sumDraws_more m h1, rfl⟩

/-- Stepping by INC keeps a candidate a candidate (spec/44_number_theory.md R198). -/
theorem Sieved.next {L : Level} {c : Nat} (h : Sieved L c) : Sieved L ((c + Config.inc) % Config.pi L) := by
  have hf : ∀ p ∈ Config.smallPrimes, (c + Config.inc) % Config.pi L % p ≠ 0 := by
    intro p hp
    rw [Nat.mod_mod_of_dvd _ (smallPrimes_dvd_pi L p hp), Nat.add_mod,
      Nat.mod_eq_zero_of_dvd (smallPrimes_dvd_inc p hp).1]
    simpa using h.free p hp
  refine ⟨?_, Nat.mod_lt _ (pi_pos L), hf⟩
  rcases Nat.eq_zero_or_pos ((c + Config.inc) % Config.pi L) with h0 | h0
  · have := hf 2 (by decide)
    rw [h0] at this; simp at this
  · exact h0

/-! ### FINDPR -/

/-- A number above 1 that no prime up to 41 divides is at least 43. -/
theorem Sieved.ge {L : Level} {c : Nat} (h : Sieved L c) (h1 : 2 ≤ c) : 43 ≤ c := by
  by_contra hc
  have : ∀ c < 43, 2 ≤ c → ∃ p ∈ Config.smallPrimes, c % p = 0 := by decide
  obtain ⟨p, hp, h0⟩ := this c (by omega) h1
  exact h.free p hp h0

theorem primeLoop_done {L : Level} : ∀ {fuel c left pos q p l : Nat}, Sieved L c →
    primeLoop L rho fuel c left pos = .done q p l → Sieved L q ∧ 43 ≤ q ∧ l ≤ left ∧ pos ≤ p := by
  intro fuel
  induction fuel with
  | zero => intro c left pos q p l _ h; simp [primeLoop] at h
  | succ fuel ih =>
    intro c left pos q p l hs h
    rw [primeLoop, andThen_eq_done] at h
    obtain ⟨b, p1, l1, h1, h2⟩ := h
    obtain ⟨d1, d2, _, d4, _⟩ := isPrime_done h1
    split at h2
    · rename_i hb
      injection h2 with e1 e2 e3; subst e1 e2 e3
      exact ⟨hs, hs.ge (by have := d4 hb; omega), d1, d2⟩
    · simp only at h2
      split at h2
      · rw [andThen_eq_done] at h2
        obtain ⟨c2, p2, l2, h3, h4⟩ := h2
        obtain ⟨k1, k2, k3⟩ := candidate_done h3
        obtain ⟨i1, i2, i3, i4⟩ := ih k1 h4
        exact ⟨i1, i2, by omega, by omega⟩
      · obtain ⟨i1, i2, i3, i4⟩ := ih hs.next h2
        exact ⟨i1, i2, by omega, by omega⟩

theorem primeLoop_more {L : Level} (m : Nat) : ∀ {fuel c left pos q p l : Nat},
    primeLoop L rho fuel c left pos = .done q p l → ∀ fuel' ≥ fuel,
    primeLoop L rho fuel' c (left + m) pos = .done q p (l + m) := by
  intro fuel
  induction fuel with
  | zero => intro c left pos q p l h; simp [primeLoop] at h
  | succ fuel ih =>
    intro c left pos q p l h fuel' hf
    obtain ⟨f, rfl⟩ : ∃ f, fuel' = f + 1 := ⟨fuel' - 1, by omega⟩
    rw [primeLoop, andThen_eq_done] at h ⊢
    obtain ⟨b, p1, l1, h1, h2⟩ := h
    refine ⟨b, p1, l1 + m, isPrime_more m h1, ?_⟩
    split at h2
    · injection h2 with e1 e2 e3; subst e1 e2 e3
      rw [if_pos ‹_›]
    · rw [if_neg ‹_›]
      simp only at h2 ⊢
      split at h2
      · rw [if_pos ‹_›]
        rw [andThen_eq_done] at h2 ⊢
        obtain ⟨c2, p2, l2, h3, h4⟩ := h2
        exact ⟨c2, p2, l2 + m, candidate_more m h3, ih h4 f (by omega)⟩
      · rw [if_neg ‹_›]; exact ih h2 f (by omega)

/-- A finished `FindPrime()` (spec/44_number_theory.md R198). -/
theorem findPrime_done {L : Level} {left pos q p l : Nat} (h : findPrime L rho left pos = .done q p l) :
    Sieved L q ∧ 43 ≤ q ∧ l < left ∧ pos ≤ p := by
  unfold findPrime at h
  rw [andThen_eq_done] at h
  obtain ⟨c, p1, l1, h1, h2⟩ := h
  obtain ⟨k1, k2, k3⟩ := candidate_done h1
  obtain ⟨i1, i2, i3, i4⟩ := primeLoop_done k1 h2
  exact ⟨i1, i2, by omega, by omega⟩

theorem findPrime_more {L : Level} {left pos q p l : Nat} (m : Nat) (h : findPrime L rho left pos = .done q p l) :
    findPrime L rho (left + m) pos = .done q p (l + m) := by
  unfold findPrime at h ⊢
  rw [andThen_eq_done] at h ⊢
  obtain ⟨c, p1, l1, h1, h2⟩ := h
  exact ⟨c, p1, l1 + m, candidate_more m h1, primeLoop_more m h2 _ (by omega)⟩

/-! ### GENKEY -/

theorem pairLoop_done {L : Level} : ∀ {fuel left pos p l : Nat} {q : Nat × Nat},
    pairLoop L rho fuel left pos = .done q p l → Sieved L q.1 ∧ Sieved L q.2 ∧ 43 ≤ q.1 ∧ 43 ≤ q.2 ∧
      Config.infimum L < q.1 * q.2 ∧ l < left ∧ pos ≤ p := by
  intro fuel
  induction fuel with
  | zero => intro left pos p l q h; simp [pairLoop] at h
  | succ fuel ih =>
    intro left pos p l q h
    simp only [pairLoop, andThen_eq_done] at h
    obtain ⟨a, p1, l1, h1, b, p2, l2, h2, h3⟩ := h
    obtain ⟨a1, a2, a3, a4⟩ := findPrime_done h1
    obtain ⟨b1, b2, b3, b4⟩ := findPrime_done h2
    split at h3
    · injection h3 with e1 e2 e3; subst e1 e2 e3
      exact ⟨a1, b1, a2, b2, ‹_›, by omega, by omega⟩
    · obtain ⟨i1, i2, i3, i4, i5, i6, i7⟩ := ih h3
      exact ⟨i1, i2, i3, i4, i5, by omega, by omega⟩

theorem pairLoop_more {L : Level} (m : Nat) : ∀ {fuel left pos p l : Nat} {q : Nat × Nat},
    pairLoop L rho fuel left pos = .done q p l → ∀ fuel' ≥ fuel,
    pairLoop L rho fuel' (left + m) pos = .done q p (l + m) := by
  intro fuel
  induction fuel with
  | zero => intro left pos p l q h; simp [pairLoop] at h
  | succ fuel ih =>
    intro left pos p l q h fuel' hf
    obtain ⟨f, rfl⟩ : ∃ f, fuel' = f + 1 := ⟨fuel' - 1, by omega⟩
    simp only [pairLoop, andThen_eq_done] at h ⊢
    obtain ⟨a, p1, l1, h1, b, p2, l2, h2, h3⟩ := h
    refine ⟨a, p1, l1 + m, findPrime_more m h1, b, p2, l2 + m, findPrime_more m h2, ?_⟩
    split at h3
    · injection h3 with e1 e2 e3; subst e1 e2 e3
      rw [if_pos ‹_›]
    · rw [if_neg ‹_›]; exact ih h3 f (by omega)

/-- A finished `GenKey()` (spec/45_rsa.md R210). -/
theorem genKey_done {L : Level} {left pos p l : Nat} {k : KeyPair} (h : genKey L rho left pos = .done k p l) :
    ∃ p1, Sieved L p1 ∧ Sieved L k.p2 ∧ 43 ≤ p1 ∧ 43 ≤ k.p2 ∧ k.n = p1 * k.p2 ∧ Config.infimum L < k.n ∧
      1 ≤ k.e ∧ k.e < (p1 - 1) * (k.p2 - 1) ∧ 1 ≤ k.d ∧ k.d < (p1 - 1) * (k.p2 - 1) ∧
      k.e * k.d % ((p1 - 1) * (k.p2 - 1)) = 1 := by
  simp only [genKey, andThen_eq_done] at h
  obtain ⟨⟨p1, p2⟩, q1, l1, h1, e, q2, l2, h2, h3⟩ := h
  injection h3 with e1 e2 e3; subst e1 e2 e3
  obtain ⟨s1, s2, g1, g2, gi, _, _⟩ := pairLoop_done h1
  simp only at *
  have h42 : 42 * 42 ≤ (p1 - 1) * (p2 - 1) := Nat.mul_le_mul (by omega) (by omega)
  obtain ⟨r1, r2, r3, _, _⟩ := randomCoprime_done (by omega) h2
  obtain ⟨i1, i2, i3⟩ := inverseOf_spec r1 r2 r3
  exact ⟨p1, s1, s2, g1, g2, rfl, gi, r1, r2, i1, i2, i3⟩

theorem genKey_more {L : Level} {left pos p l : Nat} {k : KeyPair} (m : Nat)
    (h : genKey L rho left pos = .done k p l) : genKey L rho (left + m) pos = .done k p (l + m) := by
  simp only [genKey, andThen_eq_done] at h ⊢
  obtain ⟨q, q1, l1, h1, e, q2, l2, h2, h3⟩ := h
  injection h3 with e1 e2 e3; subst e1 e2 e3
  exact ⟨q, q1, l1 + m, pairLoop_more m h1 _ (by omega), e, q2, l2 + m, randomCoprime_more m h2, rfl⟩

/-! ### Fuel

A search loop draws in every round, so fuel above the passes never runs out: more of it changes nothing. -/

theorem andThen_congr {α β : Type} (x : Run α) {f g : α → Nat → Nat → Run β}
    (h : ∀ a p l, x = .done a p l → f a p l = g a p l) : x.andThen f = x.andThen g := by
  cases x with
  | done a p l => exact h a p l rfl
  | atPoint p => rfl

theorem coprimeLoop_fuel {limit : Nat} : ∀ {fuel fuel' left pos : Nat}, left < fuel → left < fuel' →
    coprimeLoop rho limit fuel left pos = coprimeLoop rho limit fuel' left pos := by
  intro fuel
  induction fuel with
  | zero => intro _ _ _ h; omega
  | succ fuel ih =>
    intro fuel' left pos h h'
    obtain ⟨f, rfl⟩ : ∃ f, fuel' = f + 1 := ⟨fuel' - 1, by omega⟩
    rw [coprimeLoop, coprimeLoop]
    apply andThen_congr
    intro a p l hd
    have := (draw_done hd).2.2.1
    split
    · rfl
    · exact ih (by omega) (by omega)

theorem primeLoop_fuel {L : Level} : ∀ {fuel fuel' c left pos : Nat}, Sieved L c →
    (3 ≤ c ∧ left < fuel ∧ left < fuel' ∨ left + 1 < fuel ∧ left + 1 < fuel') →
    primeLoop L rho fuel c left pos = primeLoop L rho fuel' c left pos := by
  intro fuel
  induction fuel with
  | zero => intro _ _ _ _ _ h; omega
  | succ fuel ih =>
    intro fuel' c left pos hs h
    obtain ⟨f, rfl⟩ : ∃ f, fuel' = f + 1 := ⟨fuel' - 1, by omega⟩
    have hodd : c % 2 = 1 := by have := hs.free 2 (by decide); omega
    rw [primeLoop, primeLoop]
    apply andThen_congr
    intro b p l hd
    obtain ⟨d1, _, _, _, d5⟩ := isPrime_done hd
    simp only
    split
    · rfl
    · have hn := hs.next
      have hodd' := hn.free 2 (by decide)
      split
      · apply andThen_congr
        intro c2 p2 l2 hc
        obtain ⟨k1, k2, _⟩ := candidate_done hc
        apply ih k1
        have h1 : (1 + Config.inc) % Config.pi L ≠ 1 := by
          clear * -
          cases L <;> decide +kernel
        by_cases hc1 : c = 1
        · subst hc1; exact absurd ‹_› h1
        · have := hs.pos
          have := d5 (by omega) hodd
          omega
      · apply ih hn
        have := hn.pos
        by_cases hc1 : c = 1
        · omega
        · have := hs.pos
          have := d5 (by omega) hodd
          omega

theorem pairLoop_fuel {L : Level} : ∀ {fuel fuel' left pos : Nat}, left < fuel → left < fuel' →
    pairLoop L rho fuel left pos = pairLoop L rho fuel' left pos := by
  intro fuel
  induction fuel with
  | zero => intro _ _ _ h; omega
  | succ fuel ih =>
    intro fuel' left pos h h'
    obtain ⟨f, rfl⟩ : ∃ f, fuel' = f + 1 := ⟨fuel' - 1, by omega⟩
    rw [pairLoop, pairLoop]
    apply andThen_congr
    intro a p l h1
    apply andThen_congr
    intro b p2 l2 h2
    have := (findPrime_done h1).2.2.1
    have := (findPrime_done h2).2.2.1
    split
    · rfl
    · exact ih (by omega) (by omega)

/-! ### The searches as their rules word them -/

theorem searched_of_primeLoop {L : Level} {q p l : Nat} : ∀ {fuel c left pos : Nat},
    primeLoop L rho fuel c left pos = .done q p l → Searched L rho c q left pos l p := by
  intro fuel
  induction fuel with
  | zero => intro c left pos h; simp [primeLoop] at h
  | succ fuel ih =>
    intro c left pos h
    rw [primeLoop, andThen_eq_done] at h
    obtain ⟨b, p1, l1, h1, h2⟩ := h
    rw [isPrime_iff] at h1
    cases b with
    | true =>
      rw [if_pos rfl] at h2
      injection h2 with e1 e2 e3; subst e1 e2 e3
      exact .accept h1
    | false =>
      simp only [Bool.false_eq_true, if_false, inc_eq] at h2
      split at h2
      · rw [andThen_eq_done] at h2
        obtain ⟨c', p2, l2, h3, h4⟩ := h2
        exact .regenerate h1 ‹_› (candidate_iff.mp h3) (ih h4)
      · exact .advance h1 ‹_› (ih h2)

theorem primeLoop_of_searched {L : Level} {c q left pos l p : Nat} (h : Searched L rho c q left pos l p) :
    ∃ fuel, primeLoop L rho fuel c left pos = .done q p l := by
  induction h with
  | accept h1 =>
    refine ⟨1, ?_⟩
    rw [primeLoop, andThen_eq_done]
    exact ⟨true, _, _, isPrime_iff.mpr h1, rfl⟩
  | advance h1 h2 _ ih =>
    obtain ⟨fuel, h3⟩ := ih
    refine ⟨fuel + 1, ?_⟩
    rw [primeLoop, andThen_eq_done]
    refine ⟨false, _, _, isPrime_iff.mpr h1, ?_⟩
    simp only [Bool.false_eq_true, if_false, inc_eq, if_neg h2, h3]
  | regenerate h1 h2 h3 _ ih =>
    obtain ⟨fuel, h4⟩ := ih
    refine ⟨fuel + 1, ?_⟩
    rw [primeLoop, andThen_eq_done]
    refine ⟨false, _, _, isPrime_iff.mpr h1, ?_⟩
    simp only [Bool.false_eq_true, if_false, inc_eq, if_pos h2, andThen_eq_done]
    exact ⟨_, _, _, candidate_iff.mpr h3, h4⟩

/-- A run of `FindPrime()` is finished as R198 words it. -/
theorem findPrime_iff {L : Level} {q left pos l p : Nat} :
    findPrime L rho left pos = .done q p l ↔ PrimeFound L rho q left pos l p := by
  unfold findPrime PrimeFound
  rw [andThen_eq_done]
  constructor
  · rintro ⟨c, p1, l1, h1, h2⟩
    exact ⟨c, l1, p1, candidate_iff.mp h1, searched_of_primeLoop h2⟩
  · rintro ⟨c, l1, p1, h1, h2⟩
    have h1 := candidate_iff.mpr h1
    obtain ⟨hs, hl, -⟩ := candidate_done h1
    obtain ⟨fuel, h2⟩ := primeLoop_of_searched h2
    refine ⟨c, p1, l1, h1, ?_⟩
    rw [primeLoop_fuel hs (fuel' := max fuel (left + 2)) (.inr (by omega))]
    simpa using primeLoop_more 0 h2 (max fuel (left + 2)) (le_max_left _ _)

/-- The search ends with the test that accepts its result. -/
theorem Searched.accepted {L : Level} {c q left pos l p : Nat} (h : Searched L rho c q left pos l p) :
    ∃ l1 p1, Tested rho q true l1 p1 l p := by
  induction h with
  | accept h => exact ⟨_, _, h⟩
  | advance _ _ _ ih => exact ih
  | regenerate _ _ _ _ ih => exact ih

theorem PrimeFound.accepted {L : Level} {q left pos l p : Nat} (h : PrimeFound L rho q left pos l p) :
    ∃ l1 p1, Tested rho q true l1 p1 l p := by
  obtain ⟨_, _, _, _, hs⟩ := h
  exact hs.accepted

/-- Both numbers of the pair were found as primes, in turn. -/
theorem PairFound.found {L : Level} {p1 p2 left pos l p : Nat} (h : PairFound L rho p1 p2 left pos l p) :
    ∃ l0 q0 l1 q1, PrimeFound L rho p1 l0 q0 l1 q1 ∧ PrimeFound L rho p2 l1 q1 l p := by
  induction h with
  | keep h1 h2 _ => exact ⟨_, _, _, _, h1, h2⟩
  | redraw _ _ _ _ ih => exact ih

/-- A run of the pair loop is finished as R210 words it; `fuel` above `left` is enough. -/
theorem pairLoop_iff {L : Level} {r : Nat × Nat} {l p : Nat} : ∀ {fuel left pos : Nat}, left < fuel →
    (pairLoop L rho fuel left pos = .done r p l ↔ PairFound L rho r.1 r.2 left pos l p) := by
  intro fuel
  induction fuel with
  | zero => intro left pos h; omega
  | succ fuel ih =>
    intro left pos h
    simp only [pairLoop, andThen_eq_done]
    constructor
    · rintro ⟨a, q1, l1, h1, b, q2, l2, h2, h3⟩
      have := (findPrime_done h1).2.2.1
      have := (findPrime_done h2).2.2.1
      split at h3
      · injection h3 with e1 e2 e3; subst e1 e2 e3
        exact .keep (findPrime_iff.mp h1) (findPrime_iff.mp h2) ‹_›
      · exact .redraw (findPrime_iff.mp h1) (findPrime_iff.mp h2) (Nat.not_lt.mp ‹_›) ((ih (by omega)).mp h3)
    · rintro (⟨h1, h2, h3⟩ | ⟨h1, h2, h3, h4⟩)
      · exact ⟨_, _, _, findPrime_iff.mpr h1, _, _, _, findPrime_iff.mpr h2, if_pos h3⟩
      · have h1 := findPrime_iff.mpr h1
        have h2 := findPrime_iff.mpr h2
        have := (findPrime_done h1).2.2.1
        have := (findPrime_done h2).2.2.1
        refine ⟨_, _, _, h1, _, _, _, h2, ?_⟩
        rw [if_neg (show ¬ Config.infimum L < _ from Nat.not_lt.mpr h3)]
        exact (ih (by omega)).mpr h4

/-- The inverse modulo m is unique. -/
theorem inverse_unique {v m d e : Nat} (hd : d < m) (he : e < m) (h1 : v * d % m = 1) (h2 : v * e % m = 1) :
    d = e := by
  have hm : 1 < m := lt_of_eq_of_lt h1.symm (Nat.mod_lt _ (by omega))
  have h3 : v * d ≡ v * e [MOD m] := h1.trans h2.symm
  have hg : Nat.gcd m v = 1 := by
    have h4 : Nat.gcd m v ∣ 1 := by
      rw [← h1]
      exact (Nat.dvd_mod_iff (Nat.gcd_dvd_left m v)).mpr ((Nat.gcd_dvd_right m v).mul_right d)
    exact Nat.dvd_one.mp h4
  exact Nat.ModEq.eq_of_lt_of_lt (Nat.ModEq.cancel_left_of_coprime hg h3) hd he

/-- A run of `GenKey()` is finished as R210 words it. -/
theorem genKey_iff {L : Level} {k : KeyPair} {left pos l p : Nat} :
    genKey L rho left pos = .done k p l ↔ ∃ p1, KeyDrawn L rho p1 k left pos l p := by
  have large : ∀ {r : Nat × Nat} {f q l1 : Nat}, pairLoop L rho f left pos = .done r q l1 →
      42 * 42 ≤ (r.1 - 1) * (r.2 - 1) := fun h => by
    obtain ⟨-, -, g1, g2, -⟩ := pairLoop_done h
    exact Nat.mul_le_mul (by omega) (by omega)
  simp only [genKey, andThen_eq_done, KeyDrawn]
  constructor
  · rintro ⟨⟨p1, p2⟩, q1, l1, h1, e, q2, l2, h2, h3⟩
    injection h3 with e1 e2 e3; subst e1 e2 e3
    obtain ⟨r1, r2, r3, -, -⟩ := randomCoprime_done (by have := large h1; omega) h2
    exact ⟨p1, l1, q1, (pairLoop_iff (by omega)).mp h1, rfl, randomCoprime_iff.mp h2, inverseOf_spec r1 r2 r3⟩
  · rintro ⟨p1, l1, q1, h1, hn, h2, -, d2, d3⟩
    have h1 := (pairLoop_iff (r := (p1, k.p2)) (Nat.lt_succ_self left)).mpr h1
    have h2 := randomCoprime_iff.mpr h2
    obtain ⟨r1, r2, r3, -, -⟩ := randomCoprime_done (by have := large h1; simp only at this; omega) h2
    obtain ⟨-, i2, i3⟩ := inverseOf_spec r1 r2 r3
    refine ⟨_, _, _, h1, _, _, _, h2, ?_⟩
    simp only [inverse_unique i2 d2 i3 d3, ← hn]

end Sys2Proof.Machine
end

