-- ==== Sys2Proof/Tests/Slice0.lean ====
section
/-! SUPPORT. Tests on one small state each, their expected values from spec/95_test_vectors.md (named in each
comment) or from the encodings of spec/30_encoding.md, and for every obligation with hypotheses a witness that
meets them. -/

namespace Sys2Proof.Tests

-- One theorem at a time: each waits for the kernel, and in parallel they run out of threads.
set_option Elab.async false

open Sys2Proof Sys2Proof.Machine

/-! ## Helpers -/

/-- The reset state with a level and loaded registers. -/
def load (L : Level) (regs : List (RegNum × Nat)) : State :=
  regs.foldl (fun s p => s.writeReg L p.1 p.2) { State.reset with level := some L }

/-- The same with the words of the RNG source and the passes granted. -/
def loadRng (L : Level) (regs : List (RegNum × Nat)) (words : List Word) (passes : Nat) : State :=
  { load L regs with rngWords := words, rngStops := true, passes := passes }

/-- The same with the pad of program P3. -/
def loadPad (regs : List (RegNum × Nat)) : State :=
  { load .l128 regs with xpad := 0x0123456789ABCDEFFEDCBA9876543210, xpadValid := true }

/-- The first `n` words of the stream `Weyl`. -/
def weyl (n : Nat) : List Word := (List.range n).map fun i => BitVec.ofNat 64 ((i + 1) * 0x9E3779B97F4A7C15)

/-- The next state, if there is one. -/
def after (o : Host.Outcome State Fault Refusal) : Option State :=
  match o with
  | .next t => some t
  | .fault _ => none
  | .refused _ => none

theorem next_of_after {o : Host.Outcome State Fault Refusal} {t : State} (h : after o = some t) : o = .next t := by
  cases o <;> simp_all [after]

/-- STATUS after a command. -/
def stat (i : Instr) (s : State) : Option Nat := (after (exec i s)).map fun t => t.status.toNat

/-- The value of register `r` (level 128) and STATUS after a command. -/
def out (i : Instr) (s : State) (r : RegNum) : Option (Nat × Nat) :=
  (after (exec i s)).map fun t => ((t.reg r).val .l128, t.status.toNat)

/-- RES and STATUS after a command. -/
def scalar (i : Instr) (s : State) : Option (Nat × Nat) :=
  (after (exec i s)).map fun t => (t.res.toNat, t.status.toNat)

/-- Register `r` is a valid source holding `v` under level 128. -/
abbrev Has (s : State) (r : RegNum) (v : Nat) : Prop :=
  s.level = some .l128 ∧ (s.reg r).valid = true ∧ (s.reg r).val .l128 = v

/-! ## Well-formedness: each pair of destinations of each command that has several -/

theorem test_wf_div : ¬ (Instr.div 4 4 2 1).WellFormed ∧ (Instr.div 4 5 4 5).WellFormed := by decide

theorem test_wf_gencand : ¬ (Instr.gencand 0 0).WellFormed ∧ (Instr.gencand 0 1).WellFormed := by decide

theorem test_wf_egcd :
    ¬ (Instr.egcd 2 2 4 0 1).WellFormed ∧ ¬ (Instr.egcd 2 3 2 0 1).WellFormed ∧
    ¬ (Instr.egcd 2 3 3 0 1).WellFormed ∧ (Instr.egcd 2 3 4 2 2).WellFormed := by decide

theorem test_wf_genkey :
    ¬ (Instr.genkey 1 1 2).WellFormed ∧ ¬ (Instr.genkey 1 2 1).WellFormed ∧
    ¬ (Instr.genkey 1 2 2).WellFormed ∧ (Instr.genkey 0 1 2).WellFormed := by decide

/-! ## Decoding: every command's word written out from the fields of R90 and the opcodes of R91 -/

theorem test_decode_config :
    decode 0b00000001_0000_0000_1010_0101_0000_1111 = .ok (.setlvl 42255) ∧
    decode 0b00000010_1001_0000_0000_0000_0000_0000 = .ok (.ldi 9) ∧
    decode 0b00000011_1001_0000_0000_0000_0000_0000 = .ok (.norm 9) ∧
    decode 0b00000100_1001_0000_0000_0000_0000_0000 = .ok (.importTop 9) ∧
    decode 0b00000101_1001_0110_0000_0000_0000_0000 = .ok (.rstbuf 9 6) ∧
    decode 0b00000110_1001_0000_0000_0000_0000_0000 = .ok (.setpad 9) := by decide +kernel

theorem test_decode_bigint :
    decode 0b00010000_1001_0110_0011_0000_0000_0000 = .ok (.add 9 6 3) ∧
    decode 0b00010001_1001_0110_0000_0000_0000_0000 = .ok (.neg 9 6) ∧
    decode 0b00010010_1001_0110_0011_0000_0000_0000 = .ok (.sub 9 6 3) ∧
    decode 0b00010011_1001_0110_0011_0000_0000_0000 = .ok (.mul 9 6 3) ∧
    decode 0b00010100_1001_0110_0000_0000_0000_0000 = .ok (.shl1 9 6) ∧
    decode 0b00010101_1001_0110_0000_0000_0000_0000 = .ok (.shr1 9 6) ∧
    decode 0b00010110_1001_0110_1010_0101_0000_1111 = .ok (.shl 9 6 42255) ∧
    decode 0b00010111_1001_0110_1010_0101_0000_1111 = .ok (.shr 9 6 42255) ∧
    decode 0b00011000_1001_0110_0011_1100_0000_0000 = .ok (.div 9 6 3 12) ∧
    decode 0b00011001_1001_0110_0000_0000_0000_0000 = .ok (.cmp 9 6) ∧
    decode 0b00011010_1001_0000_0000_0000_0000_0000 = .ok (.isodd 9) ∧
    decode 0b00011011_1001_0110_0000_0000_0000_0000 = .ok (.abs 9 6) ∧
    decode 0b00011100_1001_0000_0000_0000_0000_0000 = .ok (.isneg 9) := by decide +kernel

theorem test_decode_montgomery :
    decode 0b00100000_1001_0110_0000_0000_0000_0000 = .ok (.monfac 9 6) ∧
    decode 0b00100001_1001_0110_0011_1100_0000_0000 = .ok (.monpro 9 6 3 12) ∧
    decode 0b00100010_1001_0110_0011_1100_0000_0000 = .ok (.monmul 9 6 3 12) ∧
    decode 0b00100011_1001_0110_0011_1100_0000_0000 = .ok (.monexp 9 6 3 12) := by decide +kernel

theorem test_decode_primality :
    decode 0b00110000_1001_0110_0000_0000_0000_0000 = .ok (.mrwit 9 6) ∧
    decode 0b00110001_1001_0000_0000_0000_0000_0000 = .ok (.isprime 9) := by decide +kernel

theorem test_decode_number_theory :
    decode 0b01000000_1001_0110_0011_1100_0101_0000 = .ok (.egcd 9 6 3 12 5) ∧
    decode 0b01000001_1001_0110_0011_0000_0000_0000 = .ok (.modinv 9 6 3) ∧
    decode 0b01000010_1001_0110_0000_0000_0000_0000 = .ok (.rndcop 9 6) ∧
    decode 0b01000011_1001_0110_0000_0000_0000_0000 = .ok (.gencand 9 6) ∧
    decode 0b01000100_1001_0000_0000_0000_0000_0000 = .ok (.findpr 9) := by decide +kernel

theorem test_decode_rsa :
    decode 0b01010000_1001_0110_0011_0000_0000_0000 = .ok (.genkey 9 6 3) ∧
    decode 0b01010001_1001_0110_0011_1100_0000_0000 = .ok (.encode 9 6 3 12) ∧
    decode 0b01010010_1001_0110_0011_1100_0000_0000 = .ok (.decode 9 6 3 12) := by decide +kernel

/-- V-EC1, V-EC2, V-EC3, V-EC7, V-CF6 and the unused fields. -/
theorem test_decode_rejects :
    decode 0x00000000 = .error .unknownOpcode ∧ decode 0x10201001 = .error .reservedField ∧
    decode 0x110201000 = .error .upperHalf ∧ decode 0xFF000000 = .error .unknownOpcode ∧
    decode 0x01100080 = .error .reservedField ∧ decode 0x02010000 = .error .reservedField ∧
    decode 0x10201010 = .error .reservedField ∧ decode 0x07000000 = .error .unknownOpcode := by decide +kernel

/-- A table row with its operands zero, as the host gives it, decoded and run first after reset: E_CONFIG, for
the level is not set (V-CF2). -/
theorem test_fetch_word :
    decodeTableWord 64 0x10000000 = some (.add 0 0 0) ∧
    (after (step (State.reset.withFetchWord 64 0x10201000))).map (·.status) = some 0x206 := by decide +kernel

/-! ## The constants of R197 -/

theorem test_constants :
    Config.inc = 0x114B6C8E15F2A ∧ Config.pi .l128 = 0xFD97B3006A526198 ∧
    Config.pi .l256 = 0xBA6F92A03B461536D000C11CE875A820 ∧
    Config.infimum .l128 = 2 ^ 64 + 1 := by decide +kernel

theorem test_constants_large :
    Config.pi .l512 = 0xAD16F684A94019F3C312C25213B6B119BD9ECEE5E13EBB26EDF99DB4BDED90C0 ∧
    Config.pi .l1024 =
      0xADB629C0DBF45B4232F0661EA83B5227D4DE379A93DF697EF4B01570E7350E9B77195121851EA4AC500F966BC76BE50B902F8187D2CEB1C9281F44E5EB9A1000 := by
  decide +kernel

/-! ## Configuration and data movement -/

/-- V-CF3, V-CF5. -/
theorem test_setlvl : stat (.setlvl 192) State.reset = some 0x206 ∧
    (after (exec (.setlvl 128) (load .l256 [(0, 9)]))).map (fun t => (t.levelWord, (t.reg 0).valid, (t.reg 0).word 0)) =
      some (128, false, 9) := by decide +kernel

/-- V-CF8. -/
theorem test_ldi : out (.ldi 0) { load .l128 [] with arg := 0xFFFFFFFFFFFFFFFF } 0 = some (2 ^ 64 - 1, 2) := by
  decide +kernel

/-- V-CF12, V-CF11. -/
theorem test_norm :
    out (.norm 3) ((load .l128 []).setReg 3 { w := #v[0x41, 0, 9, 0, 0, 0, 0, 0, 0, 0, 0, 0, 0, 0, 0, 0, 0], top := 0, valid := false }) 3 =
      some (9 * 2 ^ 128 + 0x41, 2) ∧
    stat (.norm 3) ((load .l128 []).setReg 3 { w := #v[0x41, 0, 0, 1, 0, 0, 0, 0, 0, 0, 0, 0, 0, 0, 0, 0, 0], top := 0, valid := false }) =
      some 0x806 := by decide +kernel

/-- V-CF13 and V-CF14, V-CF15, V-CF17: top 2 accepted, tops 1 and 3 not; a zero top word not. -/
theorem test_import :
    ([2, 1, 3].map fun top => stat (.importTop 4) ((load .l128 []).setReg 4 { w := #v[5, 0, 7, 0, 0, 0, 0, 0, 0, 0, 0, 0, 0, 0, 0, 0, 0], top := top, valid := false })) =
      [some 2, some 0x806, some 0x806] ∧
    stat (.importTop 4) ((load .l128 []).setReg 4 { w := #v[5, 0, 0, 0, 0, 0, 0, 0, 0, 0, 0, 0, 0, 0, 0, 0, 0], top := 1, valid := false }) =
      some 0x806 := by decide +kernel

/-- V-CF18. -/
theorem test_rstbuf : out (.rstbuf 1 0) (load .l128 [(0, 2 ^ 128 + 9)]) 1 = some (9, 2) := by decide +kernel

/-- V-CF22, V-CF23. -/
theorem test_setpad : stat (.setpad 7) (load .l128 [(7, 2 ^ 128)]) = some 0x506 ∧
    (after (exec (.setpad 7) (load .l128 [(7, 0x0123456789ABCDEFFEDCBA9876543210)]))).map
      (fun t => (t.xpad, t.xpadValid)) = some (0x0123456789ABCDEFFEDCBA9876543210, true) := by decide +kernel

/-! ## BigInt arithmetic -/

/-- V-AD1, V-AD2. -/
theorem test_add : out (.add 2 0 1) (load .l128 [(0, 2 ^ 128 - 1), (1, 1)]) 2 = some (2 ^ 128, 2) ∧
    out (.add 2 0 1) (load .l128 [(0, 2 ^ 192 - 1), (1, 2)]) 2 = some (1, 0xA) := by decide +kernel

/-- V-NG1, V-NG2. -/
theorem test_neg : out (.neg 2 0) (load .l128 [(0, 1)]) 2 = some (2 ^ 192 - 1, 2) ∧
    out (.neg 2 0) (load .l128 [(0, 0)]) 2 = some (0, 2) := by decide +kernel

/-- V-SB1, V-SB2. -/
theorem test_sub : out (.sub 2 0 1) (load .l128 [(0, 3), (1, 5)]) 2 = some (2 ^ 128 - 2, 2) ∧
    out (.sub 2 0 1) (load .l128 [(0, 7 * 2 ^ 128 + 9), (1, 4)]) 2 = some (5, 2) := by decide +kernel

/-- V-ML3, V-ML6. -/
theorem test_mul : out (.mul 2 0 1) (load .l128 [(0, 2 ^ 96 + 1), (1, 2 ^ 96 + 3)]) 2 = some (2 ^ 98 + 3, 0xA) ∧
    out (.mul 2 0 1) (load .l128 [(0, 2 ^ 128 - 1), (1, 2 ^ 64 + 1)]) 2 =
      some (0xFFFFFFFFFFFFFFFEFFFFFFFFFFFFFFFF, 0xA) := by decide +kernel

/-- V-SH1, V-SH2. -/
theorem test_shl1 : out (.shl1 2 0) (load .l128 [(0, 2 ^ 191 + 1)]) 2 = some (2, 0xA) ∧
    out (.shl1 2 0) (load .l128 [(0, 2 ^ 127)]) 2 = some (2 ^ 128, 2) := by decide +kernel

/-- V-SH3, V-SH4. -/
theorem test_shr1 : out (.shr1 2 0) (load .l128 [(0, 2 ^ 191 + 1)]) 2 = some (2 ^ 190, 2) ∧
    out (.shr1 2 0) (load .l128 [(0, 2 ^ 64)]) 2 = some (2 ^ 63, 2) := by decide +kernel

/-- V-SH6, V-SH7, V-SH10. -/
theorem test_shl : out (.shl 2 0 191) (load .l128 [(0, 1)]) 2 = some (2 ^ 191, 2) ∧
    out (.shl 2 0 192) (load .l128 [(0, 1)]) 2 = some (0, 0xA) ∧
    out (.shl 2 0 65535) (load .l128 [(0, 0)]) 2 = some (0, 2) := by decide +kernel

/-- V-SH11, V-SH13, V-SH14. -/
theorem test_shr : out (.shr 2 0 64) (load .l128 [(0, 2 ^ 130 + 7)]) 2 = some (2 ^ 66, 2) ∧
    out (.shr 2 0 191) (load .l128 [(0, 2 ^ 192 - 1)]) 2 = some (1, 2) ∧
    out (.shr 2 0 192) (load .l128 [(0, 2 ^ 192 - 1)]) 2 = some (0, 2) := by decide +kernel

/-- V-DV1 (quotient and remainder), V-EC4 (one register twice). -/
theorem test_div : out (.div 2 3 0 1) (load .l128 [(0, 2 ^ 130 + 12345), (1, 1000003)]) 2 =
      some (0x431BD151272D671A37965032ECE8, 2) ∧
    out (.div 2 3 0 1) (load .l128 [(0, 2 ^ 130 + 12345), (1, 1000003)]) 3 = some (0x5F81, 2) ∧
    stat (.div 4 4 2 1) State.reset = some 0x106 := by decide +kernel

/-- V-DV8: E_DIVZERO, nothing written. -/
theorem test_div_zero : out (.div 2 3 0 1) (load .l128 [(0, 5), (1, 0), (2, 77)]) 2 = some (77, 0x406) := by
  decide +kernel

/-- V-CP2, V-CP3, V-CP4. -/
theorem test_cmp : scalar (.cmp 0 1) (load .l128 [(0, 5), (1, 13)]) = some (0, 2) ∧
    scalar (.cmp 0 1) (load .l128 [(0, 7), (1, 7)]) = some (1, 2) ∧
    scalar (.cmp 0 1) (load .l128 [(0, 2 ^ 128), (1, 2 ^ 128 - 1)]) = some (2, 2) := by decide +kernel

theorem test_isodd : scalar (.isodd 0) (load .l128 [(0, 65)]) = some (1, 2) ∧
    scalar (.isodd 0) (load .l128 [(0, 2 ^ 130)]) = some (0, 2) := by decide +kernel

/-- V-AB2, V-AB4, V-AB6. -/
theorem test_abs : out (.abs 1 0) (load .l128 [(0, 2 ^ 192 - 5)]) 1 = some (5, 2) ∧
    out (.abs 1 0) (load .l128 [(0, 2 ^ 127)]) 1 = some (2 ^ 127, 2) ∧
    out (.abs 1 0) (load .l128 [(0, 2 ^ 128 + 5)]) 1 = some (2 ^ 128 + 5, 2) := by decide +kernel

/-- V-AB4, V-AB6. -/
theorem test_isneg : scalar (.isneg 0) (load .l128 [(0, 2 ^ 127)]) = some (1, 2) ∧
    scalar (.isneg 0) (load .l128 [(0, 2 ^ 128 + 5)]) = some (0, 2) := by decide +kernel

/-! ## Montgomery engine -/

/-- V-MF1, V-MF6. -/
theorem test_monfac : out (.monfac 1 0) (load .l128 [(0, 101)]) 1 = some (87, 2) ∧
    stat (.monfac 1 0) (load .l128 [(0, 100)]) = some 0x506 := by decide +kernel

/-- V-MO1, V-MO6. -/
theorem test_monpro : out (.monpro 3 0 1 2) (load .l128 [(0, 77), (1, 55), (2, 101)]) 3 = some (59, 2) ∧
    out (.monpro 3 0 1 2) (load .l128 [(0, 0x0123456789ABCDEF0123456789ABCDEF),
      (1, 0x0B504C01389676B05ED8F51BED0E4818), (2, 0x1E718DD2E7B7B76C140078AF9128BD3F)]) 3 =
        some (0x0BE5AE8DD025E3BB378F9F6239EFED4C, 2) := by decide +kernel

/-- V-MO1, V-MO7. -/
theorem test_monmul : out (.monmul 3 0 1 2) (load .l128 [(0, 77), (1, 55), (2, 101)]) 3 = some (94, 2) ∧
    stat (.monmul 3 0 1 2) (load .l128 [(0, 101), (1, 5), (2, 101)]) = some 0x506 := by decide +kernel

/-- V-MO6; the exponent 0 and the base 0. -/
theorem test_monexp : out (.monexp 3 0 1 2) (load .l128 [(0, 0x0123456789ABCDEF0123456789ABCDEF),
      (1, 0x0B504C01389676B05ED8F51BED0E4818), (2, 0x1E718DD2E7B7B76C140078AF9128BD3F)]) 3 =
        some (0x0449D9BFC61CFF885E345B7A282A23C8, 2) ∧
    out (.monexp 3 0 1 2) (load .l128 [(0, 0), (1, 0), (2, 101)]) 3 = some (1, 2) := by decide +kernel

/-! ## Primality -/

/-- V-MR1, V-MR4, V-MR8, V-MR12. -/
theorem test_mrwit : scalar (.mrwit 0 1) (load .l128 [(0, 2), (1, 561)]) = some (1, 2) ∧
    scalar (.mrwit 0 1) (load .l128 [(0, 2), (1, 2047)]) = some (0, 2) ∧
    scalar (.mrwit 0 1) (load .l128 [(0, 3), (1, 10)]) = some (1, 2) ∧
    stat (.mrwit 0 1) (load .l128 [(0, 0), (1, 7)]) = some 0x506 := by decide +kernel

/-- RES and RNGCNT after a command that draws. -/
def drawn (i : Instr) (s : State) : Option (Nat × Nat) := (after (exec i s)).map fun t => (t.res.toNat, t.rngTotal)

/-- The value of register `r` (level 128) and RNGCNT after a command that draws. -/
def drawnReg (i : Instr) (s : State) (r : RegNum) : Option (Nat × Nat) :=
  (after (exec i s)).map fun t => ((t.reg r).val .l128, t.rngTotal)

/-- V-IP1, V-IP7. -/
theorem test_isprime : drawn (.isprime 0) (loadRng .l128 [(0, 25)] [7, 2] 20) = some (0, 2) ∧
    drawn (.isprime 0) (loadRng .l128 [(0, 3)] [0, 3, 1, 2, 1, 1, 1, 1, 1, 1, 1, 1] 20) = some (1, 12) := by
  decide +kernel

/-- V-IP8 and V-IP3. -/
theorem test_isprime_false_prime :
    drawn (.isprime 0) (loadRng .l128 [(0, 9)] [1, 1, 1, 1, 1, 1, 1, 1, 1, 1] 20) = some (1, 10) ∧
    drawn (.isprime 0) (loadRng .l128 [(0, 4)] [] 20) = some (0, 0) := by decide +kernel

/-! ## Number theory -/

/-- S2 and program P2. -/
theorem test_egcd : out (.egcd 2 3 4 0 1) (load .l128 [(0, 7), (1, 3)]) 4 =
      some (0xFFFFFFFFFFFFFFFFFFFFFFFFFFFFFFFE, 2) ∧
    out (.egcd 2 3 4 0 1) (load .l128 [(0, 3233), (1, 17)]) 3 = some (6, 2) ∧
    out (.egcd 2 3 4 0 1) (load .l128 [(0, 3233), (1, 17)]) 2 = some (1, 2) := by decide +kernel

/-- S3, and program P4: E_NOINV, E_PRECOND. -/
theorem test_modinv : out (.modinv 2 0 1) (load .l128 [(0, 5), (1, 7)]) 2 = some (3, 2) ∧
    stat (.modinv 2 0 1) (load .l128 [(0, 5), (1, 10)]) = some 0x606 ∧
    stat (.modinv 2 0 0) (load .l128 [(0, 5)]) = some 0x506 := by decide +kernel

/-- V-RC1, V-RC4. -/
theorem test_rndcop : drawnReg (.rndcop 1 0) (loadRng .l128 [(0, 12)] [6, 4, 5] 20) 1 = some (5, 3) ∧
    drawnReg (.rndcop 1 0) (loadRng .l128 [(0, 2 ^ 64 + 1)] [5, 7, 0, 3] 20) 1 = some (2 ^ 64, 4) := by decide +kernel

/-- V-GC1, V-GC3. -/
theorem test_gencand :
    drawnReg (.gencand 0 1) (loadRng .l128 [] [1, 2, 3, 4, 5, 6, 7, 8, 9, 10, 11, 12, 13] 20) 0 =
      some (66868189786291, 13) ∧
    drawnReg (.gencand 0 1) (loadRng .l128 []
      [0, 0xFD97B3006A526198, 0xFD97B3006A526197, 1, 1, 1, 1, 1, 1, 1, 1, 1, 1, 1, 1] 20) 0 =
        some (27659114866121, 15) := by decide +kernel

/-- V-FP1, and INC in the second register of V-GC4. -/
theorem test_findpr : drawnReg (.findpr 0) (loadRng .l128 [] (weyl 40) 50) 0 = some (0x4C2C73B315153CDD, 32) ∧
    drawnReg (.gencand 0 1) (loadRng .l128 [] (weyl 13) 20) 1 = some (0x114B6C8E15F2A, 13) := by decide +kernel

/-! ## RSA -/

/-- Program P3 and V-EN9: the normal path with a quotient, the escape, E_CAPACITY. -/
theorem test_encode : out (.encode 5 3 1 0) (loadPad [(0, 3233), (1, 17), (3, 16230)]) 5 =
      some (5 * 2 ^ 128 + 0xAE6, 2) ∧
    out (.encode 5 3 1 0) (loadPad [(0, 3233), (1, 17), (3, 1)]) 5 =
      some ((2 ^ 64 - 1) * 2 ^ 128 + 0x0123456789ABCDEFFEDCBA9876543211, 2) ∧
    stat (.encode 5 3 1 0) (loadPad [(0, 3233), (1, 17), (3, 0xCA0FFFFFFFFFFFFF35F)]) = some 0x706 := by
  decide +kernel

/-- V-DE2, V-DE1 and the escape of program P3. -/
theorem test_decode : out (.decode 6 5 2 0) (loadPad [(0, 3233), (2, 2753), (5, 16 * 2 ^ 128 + 5)]) 6 =
      some (0xCB91, 2) ∧
    out (.decode 6 5 2 0) (loadPad [(0, 3233), (2, 2753),
      (5, (2 ^ 64 - 1) * 2 ^ 128 + 0x0123456789ABCDEFFEDCBA9876543211)]) 6 = some (1, 2) ∧
    stat (.decode 6 5 2 0) (loadPad [(0, 3233), (2, 2753), (5, 4000)]) = some 0x506 := by decide +kernel

/-- V-GK1: modulus, exponents and count. -/
theorem test_genkey :
    drawnReg (.genkey 0 1 2) (loadRng .l128 [] (weyl 60) 60) 0 = some (0x1E718DD2E7B7B76C140078AF9128BD3F, 60) ∧
    drawnReg (.genkey 0 1 2) (loadRng .l128 [] (weyl 60) 60) 1 = some (0x15008779D57514EC76C90DC0562A98D7, 60) ∧
    drawnReg (.genkey 0 1 2) (loadRng .l128 [] (weyl 60) 60) 2 = some (0x0E747755243C1DF0FCC45ED7F656C6DF, 60) := by
  decide +kernel

/-! ## Status, acknowledge, cancellation, busy -/

/-- V-ST4, V-CN7 and its idle case. -/
theorem test_status_and_control :
    (({ State.reset with done := true, ovf := true }).hostWrite .status 0xFFFFFFFFFFFFFFFF).status = 8 ∧
    (({ State.reset with busy := true, ie := true, abort := true }).hostWrite .ctrl 0).ctrl = 2 ∧
    (({ State.reset with ie := true, abort := true }).hostWrite .ctrl 0).ctrl = 0 := by decide +kernel

/-- V-BZ1, V-BZ2. -/
theorem test_busy_access :
    (({ State.reset with busy := true, res := 7 }).hostRead .res).haz = true ∧
    (({ State.reset with busy := true, res := 7, rdata := 9 }).hostRead .res).rdata = 0 ∧
    (({ State.reset with busy := true, cmdreg := 5 }).hostWrite .cmd 6).cmdreg = 5 := by decide +kernel

/-- V-CN1, V-CN5: an abort requested before the accept. -/
theorem test_abort :
    stat (.findpr 0) { loadRng .l128 [] (weyl 40) 50 with abort := true, abort0 := true } = some 0x906 ∧
    (after (exec (.genkey 3 4 5) { loadRng .l128 [] (weyl 60) 60 with abort := true, abort0 := true })).map
      (fun t => (t.rngTotal, t.ctrl)) = some (0, 0) := by decide +kernel

/-- Program P5's offsets: B4.w[0], B4.top, B6.valid. -/
theorem test_offsets : locate 0x1400 = .word 4 0 ∧ locate 0x1488 = .top 4 ∧ locate 0x1690 = .valid 6 ∧
    locate 0x1498 = .reserved ∧ locate 0x38 = .reserved ∧ locate 0x1FF8 = .reserved := by decide +kernel

/-! ## Witnesses: a state and operands that meet the hypotheses of each obligation that has any -/

theorem witness_decoded_word : decode 0x18452100 = .ok (.div 4 5 2 1) := by decide +kernel

/-- The first word with an upper half, an opcode just outside the map, LDI with f1 = 1, SETLVL with f0 = 1, ADD
with z = 1, and the largest words of ADD and SHL that decode. -/
theorem witness_words_outside :
    2 ^ 32 ≤ (0x100000000 : Word).toNat ∧
    (0x53000000 : Word).toNat < 2 ^ 32 ∧ (0x53000000 : Word).toNat / 2 ^ 24 ∉ opcodes ∧
    (0x02, 0, 20) ∈ zeroBits ∧ (0x02010000 : Word).toNat / 2 ^ 24 = 0x02 ∧ (0x02010000 : Word).toNat / 2 ^ 0 % 2 ^ 20 ≠ 0 ∧
    (0x01, 16, 8) ∈ zeroBits ∧ (0x01100080 : Word).toNat / 2 ^ 24 = 0x01 ∧ (0x01100080 : Word).toNat / 2 ^ 16 % 2 ^ 8 ≠ 0 ∧
    (0x10, 0, 12) ∈ zeroBits ∧ (0x10201001 : Word).toNat / 2 ^ 24 = 0x10 ∧ (0x10201001 : Word).toNat / 2 ^ 0 % 2 ^ 12 ≠ 0 ∧
    (0x10FFF000 : Word).toNat / 2 ^ 24 = 0x10 ∧ (0x10FFF000 : Word).toNat / 2 ^ 0 % 2 ^ 12 = 0 ∧
    (0x16, 0, 0) ∈ zeroBits ∧ (0x16FFFFFF : Word).toNat / 2 ^ 0 % 2 ^ 0 = 0 := by decide +kernel

/-- A busy core with a command, the two inputs of `StepRunsTheAcceptedCommand` in turn. -/
theorem witness_step_runs :
    (State.reset.accept 0x01000080).busy = true ∧ decode (State.reset.accept 0x01000080).cmdreg = .ok (.setlvl 128) ∧
    (State.reset.accept 0x01000080).inputs = [] ∧
    ({ State.reset.accept 0x01000080 with inputs := [.run 3] } : State).inputs = .run 3 :: [] := by decide +kernel

theorem witness_illegal_and_idle :
    (State.reset.accept 0).busy = true ∧ decode (State.reset.accept 0).cmdreg = .error .unknownOpcode ∧
    (State.reset.accept 0).inputs = [] ∧ State.reset.busy = false ∧ State.reset.inputs = [] := by decide +kernel

/-- Each clause at the ends of its range: the first and last word, an unaligned offset, the first offset
outside. -/
theorem witness_host_access :
    0x1FF8 % 8 = 0 ∧ 0x1FF8 < 0x2000 ∧ 0x1FFC % 8 ≠ 0 ∧ 0x2000 % 8 = 0 ∧ 0x2000 ≤ 0x2000 ∧
    ({ State.reset with inputs := [.read 0x1FF8] } : State).inputs = .read 0x1FF8 :: [] ∧
    ({ State.reset with inputs := [.write 0 1] } : State).inputs = .write 0 1 :: [] := by decide +kernel

theorem witness_write_to_command_register : State.reset.busy = false ∧ (State.reset.accept 0).busy = true := ⟨rfl, rfl⟩

theorem witness_busy_access :
    (State.reset.accept 0).busy = true ∧ Loc.cmd ≠ .status ∧ Loc.cmd ≠ .ctrl ∧ State.reset.busy = false := by
  decide +kernel

theorem witness_address_map : (Loc.valid 15).offset = some 0x1F90 ∧ Loc.cmd.offset = some 0 := by decide +kernel

/-- The first and the last offset the map leaves out. -/
theorem witness_reserved_offsets :
    (0x38 % 8 = 0 ∧ 0x38 < 0x2000 ∧ ∀ loc : Loc, loc.offset ≠ some 0x38) ∧
    (0x1FF8 % 8 = 0 ∧ 0x1FF8 < 0x2000 ∧ ∀ loc : Loc, loc.offset ≠ some 0x1FF8) ∧ State.reset.busy = false := by
  refine ⟨⟨by decide, by decide, fun loc => ?_⟩, ⟨by decide, by decide, fun loc => ?_⟩, rfl⟩ <;>
    cases loc <;> simp [Loc.offset] <;> omega

theorem witness_raw_write : State.reset.busy = false ∧ (3 : RegNum) ≠ 4 := by decide +kernel

theorem witness_host_writes : State.reset.busy = false ∧ (State.reset.accept 0).busy = true := by
  decide +kernel

theorem witness_reset_input :
    ({ State.reset with inputs := [.rst [1] true] } : State).inputs = .rst [1] true :: [] := rfl

/-- A command that completes, and one that pulls and stays busy. -/
theorem witness_sequencer :
    (∃ t, exec (.cmp 0 1) (load .l128 [(0, 5), (1, 13)]) = .next t ∧ t.busy = false) ∧
    (∃ t, exec (.findpr 0) { load .l128 [] with busy := true } = .next t ∧ t.busy = true) := by
  constructor
  · exact ⟨_, next_of_after (t := (load .l128 [(0, 5), (1, 13)]).setRes 0 |>.complete) (by decide +kernel), rfl⟩
  · exact ⟨_, next_of_after (t := { load .l128 [] with busy := true, passes := 1 }) (by decide +kernel), rfl⟩

/-- An error of a command's own, and E_ABORT. -/
theorem witness_error :
    (load .l128 [(0, 5), (1, 0)]).err = none ∧
    (after (exec (.div 2 3 0 1) (load .l128 [(0, 5), (1, 0)]))).map (·.err) = some (some .divzero) ∧
    (after (exec (.findpr 0) { load .l128 [] with abort := true })).map (·.err) = some (some .abort) := by
  decide +kernel

/-- The four common checks. -/
theorem witness_common_checks :
    (State.reset.accept 0).busy = true ∧
    decode (State.reset.accept 0).cmdreg = .error .unknownOpcode ∧
    ¬ (Instr.div 4 4 2 1).WellFormed ∧ (Instr.div 4 5 2 1).WellFormed ∧ State.reset.level = none ∧
    (load .l128 []).level = some .l128 ∧ (2 : RegNum) ∈ (Instr.div 4 5 2 1).srcs ∧
    ((load .l128 []).reg 2).valid = false := by decide +kernel

theorem witness_not_setlvl (rd ra rb : RegNum) : ¬ IsSetlvl (.add rd ra rb) ∧ ¬ IsSetpad (.add rd ra rb) := by
  constructor <;> rintro ⟨_, h⟩ <;> simp at h

/-- A next state of ADD, for the frame statements; B5 and RES are not its destinations. -/
theorem witness_frames :
    (after (exec (.add 2 0 1) (load .l128 [(0, 5), (1, 13)]))).isSome = true ∧ (5 : RegNum) ∉ (Instr.add 2 0 1).dests ∧
    WritesOvf (.cmp 0 1) = false ∧ WritesRes (.add 2 0 1) = false ∧ Pulls (.add 2 0 1) = false ∧
    (after (exec (.setlvl 128) State.reset)).isSome = true ∧ IsSetlvl (.setlvl 128) := by
  refine ⟨?_, ?_, ?_, ?_, ?_, ?_, _, rfl⟩ <;> decide +kernel

/-- A location the host reads that ADD B2 does not touch. -/
theorem witness_host_sees :
    Loc.word 5 16 ≠ .status ∧ Loc.word 5 16 ≠ .ctrl ∧
    ∀ r ∈ (Instr.add 2 0 1).dests, Loc.word 5 16 ≠ .top r ∧ Loc.word 5 16 ≠ .valid r ∧ ∀ j, Loc.word 5 16 ≠ .word r j := by
  decide +kernel

/-- The largest value below V. -/
theorem witness_written_register : 2 ^ 192 - 1 < Level.l128.modulus ∧ 2 ^ 1088 - 1 < Level.l1024.modulus := by
  decide +kernel

theorem witness_setlvl : (128 : BitVec 16).toNat = Level.l128.bits ∧ (1024 : BitVec 16).toNat = Level.l1024.bits ∧
    ∀ L : Level, (127 : BitVec 16).toNat ≠ L.bits := by
  refine ⟨by decide, by decide, fun L => by cases L <;> decide⟩

theorem witness_rstbuf : Has (load .l128 [(0, 2 ^ 192 - 1)]) 0 (2 ^ 192 - 1) := by decide +kernel

/-- All words above the buffer word zero; and one that is not. -/
theorem witness_norm :
    (load .l128 [(0, 2 ^ 192 - 1)]).level = some .l128 ∧
    (∀ i : Fin 17, Level.l128.words < i.val → ((load .l128 [(0, 2 ^ 192 - 1)]).reg 0).word i = 0) ∧
    Level.l128.words < (16 : Fin 17).val ∧ ((load .l1024 [(0, 2 ^ 1024)]).reg 0).word 16 ≠ 0 := by decide +kernel

theorem witness_import :
    ((load .l128 [(0, 2 ^ 128)]).reg 0).Canonical .l128 ∧ ¬ ((load .l1024 [(0, 2 ^ 1024)]).reg 0).Canonical .l128 := by
  rw [← BigReg.formatOk_iff, ← BigReg.formatOk_iff]; decide +kernel

theorem witness_setpad :
    Has (load .l128 [(7, 2 ^ 128 - 1)]) 7 (2 ^ 128 - 1) ∧ Has (load .l128 [(7, 2 ^ 128)]) 7 (2 ^ 128) ∧
    2 ^ 128 - 1 < 2 ^ Level.l128.bits ∧ 2 ^ Level.l128.bits ≤ 2 ^ 128 := by decide +kernel

/-- Two valid sources at the ends of their range: for ADD, MUL, SHL1, SHL, NEG, SUB, SHR1, SHR, CMP, ISODD,
ISNEG. -/
theorem witness_two_sources :
    Has (load .l128 [(0, 2 ^ 192 - 1), (1, 0)]) 0 (2 ^ 192 - 1) ∧ Has (load .l128 [(0, 2 ^ 192 - 1), (1, 0)]) 1 0 := by
  decide +kernel

theorem witness_div :
    Has (load .l128 [(0, 5), (1, 1)]) 0 5 ∧ Has (load .l128 [(0, 5), (1, 1)]) 1 1 ∧ (2 : RegNum) ≠ 3 ∧
    Has (load .l128 [(0, 5), (1, 0)]) 1 0 := by decide +kernel

/-- The sign bit clear (the largest such number) and set (the number whose magnitude has no positive). -/
theorem witness_abs :
    Has (load .l128 [(0, 2 ^ 127 - 1)]) 0 (2 ^ 127 - 1) ∧ (2 ^ 127 - 1).testBit (Level.l128.bits - 1) = false ∧
    Has (load .l128 [(0, 2 ^ 127)]) 0 (2 ^ 127) ∧ (2 ^ 127).testBit (Level.l128.bits - 1) = true := by decide +kernel

/-- A loaded state meets the invariant. -/
theorem load_inv (L : Level) (regs : List (RegNum × Nat)) : (load L regs).Inv := by
  have key : ∀ (regs : List (RegNum × Nat)) (s : State), s.level = some L → s.xpadValid = false → s.mcValid = false →
      s.busy = false → (∀ r, (s.reg r).valid = true → (s.reg r).Canonical L) →
      (regs.foldl (fun s p => s.writeReg L p.1 p.2) s).Inv := by
    intro regs
    induction regs with
    | nil =>
      intro s h1 h2 h3 h4 h5
      exact ⟨fun r hr => ⟨L, h1, h5 r hr⟩, by simp [h2], by simp [h3], by simp [h4], by simp [h4]⟩
    | cons p regs ih =>
      intro s h1 h2 h3 h4 h5
      refine ih _ h1 h2 h3 h4 fun r => ?_
      rw [State.reg_writeReg]
      split
      · exact fun _ => BigReg.canonical_ofNat L p.2
      · exact h5 r
  refine key regs _ rfl rfl rfl rfl fun r hr => ?_
  have h : ({ State.reset with level := some L } : State).reg r = BigReg.cleared := State.reg_reset r
  rw [h] at hr
  exact absurd hr (by decide)

/-- The least and the largest legal modulus; an even one. -/
theorem witness_monfac :
    (load .l128 [(0, 3)]).Inv ∧ Has (load .l128 [(0, 3)]) 0 3 ∧ ModOK .l128 3 ∧ ModOK .l128 (2 ^ 128 - 1) ∧
    Has (load .l128 [(0, 100)]) 0 100 ∧ ¬ ModOK .l128 100 := by
  refine ⟨load_inv _ _, ?_⟩; decide +kernel

/-- For MONPRO, MONMUL and MONEXP: reduced operands at the end of their range, an unreduced one, the largest
exponent. -/
theorem witness_montgomery :
    Has (load .l128 [(0, 100), (1, 100), (2, 101)]) 0 100 ∧ Has (load .l128 [(0, 100), (1, 100), (2, 101)]) 1 100 ∧
    Has (load .l128 [(0, 100), (1, 100), (2, 101)]) 2 101 ∧ ModOK .l128 101 ∧ 100 < 101 ∧ ¬ 101 < 101 ∧
    Has (load .l128 [(0, 2), (1, 2 ^ 128 - 1), (2, 101)]) 1 (2 ^ 128 - 1) ∧ 2 ^ 128 - 1 < 2 ^ Level.l128.bits := by
  decide +kernel

/-- Each clause of MRWIT: not settled, even, the three precondition failures, and the two verdicts (560 = 16·35
and 6 = 2·3). -/
theorem witness_mrwit :
    2 ^ Level.l128.bits ≤ 2 ^ 128 + 1 ∧ 10 % 2 = 0 ∧ (1 < 3 ∧ 1 % 2 = 1) ∧ Has (load .l128 [(0, 0), (1, 7)]) 0 0 ∧
    Has (load .l128 [(0, 7), (1, 7)]) 0 7 ∧ Has (load .l128 [(0, 2), (1, 561)]) 1 561 ∧ 561 - 1 = 2 ^ 4 * 35 ∧
    35 % 2 = 1 ∧ 2 ^ (2 ^ 2 * 35) % 561 ≠ 1 ∧ 2 ^ (2 ^ 2 * 35) % 561 ≠ 560 ∧ 2 ^ (2 ^ 3 * 35) % 561 = 1 ∧
    7 - 1 = 2 ^ 1 * 3 ∧ 2 ^ (2 ^ 1 * 3) % 7 = 1 ∧ 2 ^ (2 ^ 0 * 3) % 7 = 1 := by decide +kernel

theorem witness_mrwit_prime :
    Nat.Prime 7 ∧ Has (load .l128 [(0, 6), (1, 7)]) 0 6 ∧ Has (load .l128 [(0, 6), (1, 7)]) 1 7 := by
  refine ⟨by norm_num, ?_⟩; decide +kernel

/-- The values 0, 1, 2, 4, an odd n with its finished run, and an n that is not settled. -/
theorem witness_isprime :
    Has (load .l128 [(0, 1)]) 0 1 ∧ Has (load .l128 [(0, 2)]) 0 2 ∧ Has (load .l128 [(0, 4)]) 0 4 ∧
    Has (load .l128 [(0, 2 ^ 128)]) 0 (2 ^ 128) ∧ Has (loadRng .l128 [(0, 25)] [7, 2] 2) 0 25 ∧
    isPrime (loadRng .l128 [(0, 25)] [7, 2] 2).stream 25 (loadRng .l128 [(0, 25)] [7, 2] 2).granted 0 =
      .done false 2 0 := by decide +kernel

theorem witness_isprime_prime :
    isPrime (loadRng .l128 [(0, 3)] [1, 2, 1, 1, 1, 1, 1, 1, 1, 1] 10).stream 3 10 0 = .done true 10 0 := by
  decide +kernel

/-- V-IP1: 7 is no witness of 25 and 2 is one; and the ten bases of a prime. -/
theorem witness_isprime_bases :
    (∃ bases, DrawnInTurn (loadRng .l128 [(0, 25)] [7, 2] 2).stream 25 bases 2 0 0 2 ∧ RoundsEnd 10 25 bases false) ∧
    (∃ bases, DrawnInTurn (loadRng .l128 [(0, 3)] [1, 2, 1, 1, 1, 1, 1, 1, 1, 1] 10).stream 3 bases 10 0 0 10 ∧
      RoundsEnd 10 3 bases true) := by
  refine ⟨(primeRounds_iff (by decide)).mp ?_, (primeRounds_iff (by decide)).mp ?_⟩ <;> decide +kernel

/-- Operands at the ends of their range; one that is not settled. -/
theorem witness_egcd :
    [(2 : RegNum), 3, 4].Nodup ∧ Has (load .l128 [(0, 2 ^ 128 - 1), (1, 0)]) 0 (2 ^ 128 - 1) ∧
    Has (load .l128 [(0, 2 ^ 128 - 1), (1, 0)]) 1 0 ∧ Has (load .l128 [(0, 2 ^ 128)]) 0 (2 ^ 128) := by decide +kernel

theorem witness_modinv :
    Has (load .l128 [(0, 1), (1, 2)]) 0 1 ∧ Has (load .l128 [(0, 1), (1, 2)]) 1 2 ∧ Nat.gcd 1 2 = 1 ∧
    Has (load .l128 [(0, 4), (1, 6)]) 0 4 ∧ Nat.gcd 4 6 ≠ 1 ∧ Has (load .l128 [(0, 7)]) 0 7 ∧ ¬ 7 < 7 := by
  decide +kernel

/-- A finished run at the least limit; limits 1 and 2^128 fail the check. -/
theorem witness_rndcop :
    Has (loadRng .l128 [(0, 2)] [0, 1] 2) 0 2 ∧
    randomCoprime (loadRng .l128 [(0, 2)] [0, 1] 2).stream 2 (loadRng .l128 [(0, 2)] [0, 1] 2).granted 0 =
      .done 1 2 0 ∧ Has (load .l128 [(0, 1)]) 0 1 ∧ ¬ 2 ≤ 1 := by decide +kernel

theorem witness_gencand :
    candidate .l128 (loadRng .l128 [] (weyl 13) 13).stream (loadRng .l128 [] (weyl 13) 13).granted 0 =
      .done 0x4C2A4A4583527E89 13 0 := by decide +kernel

theorem witness_findpr :
    findPrime .l128 (loadRng .l128 [] (weyl 32) 32).stream (loadRng .l128 [] (weyl 32) 32).granted 0 =
      .done 0x4C2C73B315153CDD 32 0 := by decide +kernel

theorem witness_genkey : ∃ left,
    genKey .l128 (loadRng .l128 [] (weyl 60) 60).stream (loadRng .l128 [] (weyl 60) 60).granted 0 =
      .done { n := 0x1E718DD2E7B7B76C140078AF9128BD3F, e := 0x15008779D57514EC76C90DC0562A98D7,
              d := 0x0E747755243C1DF0FCC45ED7F656C6DF, p2 := 0x6650210C51DAC2CB } 60 left :=
  ⟨1, by decide +kernel⟩

/-- V-RC1: two values rejected, the third coprime. -/
theorem witness_first_coprime :
    FirstCoprime (loadRng .l128 [(0, 12)] [6, 4, 5] 3).stream 12 5 3 0 0 3 :=
  randomCoprime_iff.mp (by decide +kernel)

/-- V-GC1, whose sum two small primes divide. -/
theorem witness_candidate_drawn :
    CandidateDrawn .l128 (loadRng .l128 [] [1, 2, 3, 4, 5, 6, 7, 8, 9, 10, 11, 12, 13] 13).stream 66868189786291 13 0 0 13 :=
  candidate_iff.mp (by decide +kernel)

/-- V-FP1. -/
theorem witness_prime_found :
    PrimeFound .l128 (loadRng .l128 [] (weyl 32) 32).stream 0x4C2C73B315153CDD 32 0 0 32 :=
  findPrime_iff.mp witness_findpr

/-- V-GK1. -/
theorem witness_key_drawn : ∃ p1 left,
    KeyDrawn .l128 (loadRng .l128 [] (weyl 60) 60).stream p1
      { n := 0x1E718DD2E7B7B76C140078AF9128BD3F, e := 0x15008779D57514EC76C90DC0562A98D7,
        d := 0x0E747755243C1DF0FCC45ED7F656C6DF, p2 := 0x6650210C51DAC2CB } 60 0 left 60 := by
  obtain ⟨left, h⟩ := witness_genkey
  obtain ⟨p1, h⟩ := genKey_iff.mp h
  exact ⟨p1, left, h⟩

/-- ENCODE: each clause of its checks and both results, at the boundary quotients and remainders. -/
theorem witness_encode :
    Has (loadPad [(0, 3233), (1, 17), (3, 0xCA0FFFFFFFFFFFFF35F)]) 3 0xCA0FFFFFFFFFFFFF35F ∧ ModOK .l128 3233 ∧
    ¬ ModOK .l128 3234 ∧ 0xCA0FFFFFFFFFFFFF35F < 2 ^ Level.l128.bits ∧
    2 ^ 64 - 1 ≤ 0xCA0FFFFFFFFFFFFF35F / 3233 ∧ 0xCA0FFFFFFFFFFFFF35E / 3233 < 2 ^ 64 - 1 ∧
    2 ≤ 0xCA0FFFFFFFFFFFFF35E % 3233 ∧ 3234 % 3233 ≤ 1 ∧ (loadPad []).xpadValid = true ∧
    (load .l128 []).xpadValid = false := by decide +kernel

/-- DECODE: the marker with and without a pad, v = n, a sum that does not fit, and one that does. -/
theorem witness_decode :
    Has (load .l128 [(5, (2 ^ 64 - 1) * 2 ^ 128)]) 5 ((2 ^ 64 - 1) * 2 ^ 128) ∧
    (2 ^ 64 - 1) * 2 ^ 128 / 2 ^ Level.l128.bits = 2 ^ 64 - 1 ∧ 3233 ≤ 3233 % 2 ^ Level.l128.bits ∧
    3233 / 2 ^ Level.l128.bits ≠ 2 ^ 64 - 1 ∧ ModOK .l128 (2 ^ 128 - 1) ∧
    2 ^ Level.l128.bits ≤ (1 * 2 ^ 128 + 1) / 2 ^ Level.l128.bits * (2 ^ 128 - 1) +
      ((1 * 2 ^ 128 + 1) % 2 ^ Level.l128.bits) ^ 1 % (2 ^ 128 - 1) ∧
    (1 * 2 ^ 128 + 0) / 2 ^ Level.l128.bits * (2 ^ 128 - 1) +
      ((1 * 2 ^ 128 + 0) % 2 ^ Level.l128.bits) ^ 1 % (2 ^ 128 - 1) < 2 ^ Level.l128.bits := by decide +kernel

/-- The key of program P3, the largest data whose quotient fits, and the pad; the modulus of V-GK1 exceeds INF. -/
theorem witness_encode_then_decode :
    Nat.Prime 61 ∧ Nat.Prime 53 ∧ 17 * 2753 % ((61 - 1) * (53 - 1)) = 1 ∧
    0xCA0FFFFFFFFFFFFF35E / 3233 ≤ 2 ^ 64 - 2 ∧
    (2 ^ Level.l128.bits - 1) / (2 ^ 64 - 1) < 0x1E718DD2E7B7B76C140078AF9128BD3F ∧
    (loadPad [(0, 3233), (1, 17), (3, 0xCA0FFFFFFFFFFFFF35E)]).xpadValid = true ∧
    (loadPad []).xpad.toNat < 2 ^ Level.l128.bits ∧ (loadPad []).err = none ∧
    Has (loadPad [(0, 3233), (1, 17), (3, 0xCA0FFFFFFFFFFFFF35E)]) 3 0xCA0FFFFFFFFFFFFF35E ∧
    Has (loadPad [(0, 3233), (1, 17), (3, 1)]) 3 1 ∧ Has (loadPad [(0, 3233), (1, 17), (3, 1)]) 1 17 ∧
    Has (loadPad [(0, 3233), (1, 17), (3, 1)]) 0 3233 := by
  refine ⟨by norm_num, by norm_num, ?_⟩; decide +kernel

theorem witness_abort_at_accept :
    ({ load .l128 [(0, 3)] with abort := true, abort0 := true } : State).abort0 = true ∧
    Has { load .l128 [(0, 3)] with abort := true, abort0 := true } 0 3 ∧
    Has { load .l128 [(0, 2)] with abort := true, abort0 := true } 0 2 ∧ [(0 : RegNum), 1, 2].Nodup := by decide +kernel

/-- A command that draws and completes with no abort requested. -/
theorem witness_no_abort :
    (loadRng .l128 [(0, 2)] [0, 1] 2).err = none ∧ (loadRng .l128 [(0, 2)] [0, 1] 2).abort = false ∧
    (after (exec (.rndcop 1 0) (loadRng .l128 [(0, 2)] [0, 1] 2))).map (fun t => (t.busy, t.err)) =
      some (false, none) := by decide +kernel

/-- The least passes that complete the run of `witness_no_abort`, from a busy core. -/
theorem witness_more_passes :
    ({ loadRng .l128 [(0, 2)] [0, 1] 2 with busy := true } : State).busy = true ∧
    (after (exec (.rndcop 1 0) { loadRng .l128 [(0, 2)] [0, 1] 2 with busy := true })).map (fun t => (t.busy, t.err)) =
      some (false, none) := by decide +kernel

theorem witness_export :
    (load .l128 [(4, 2 ^ 192 - 1)]).Inv ∧ (load .l128 [(4, 2 ^ 192 - 1)]).busy = false ∧
    Has (load .l128 [(4, 2 ^ 192 - 1)]) 4 (2 ^ 192 - 1) := by
  refine ⟨load_inv _ _, ?_⟩; decide +kernel

theorem witness_montgomery_datapath : ModOK .l128 3 ∧ 2 < 3 ∧ ModOK .l1024 (2 ^ 1024 - 1) := by decide +kernel

theorem witness_word_datapath :
    ([1, 2] : List Word).length = [3, 4].length ∧ 0 < 1 ∧ 2 ^ 4 - 1 < 2 ^ 4 ∧ 2 ^ 192 - 1 < 2 ^ 192 ∧
    ((load .l128 [(0, 2 ^ 192 - 1)]).reg 0).Canonical .l128 ∧ ((load .l128 [(0, 0)]).reg 0).Canonical .l128 := by
  rw [← BigReg.formatOk_iff, ← BigReg.formatOk_iff]; decide +kernel

/-- A pass of one word and of two, at the ends of the range of `nw`; an accepted word, a rejected one, and a source
that has stopped. -/
theorem witness_draw :
    (2 ^ (4 - 1) ≤ 12 - 1 ∧ 12 - 1 < 2 ^ 4 ∧ 64 * (1 - 1) < 4 ∧ 4 ≤ 64 * 1) ∧
    (2 ^ (65 - 1) ≤ 2 ^ 64 + 1 - 1 ∧ 2 ^ 64 + 1 - 1 < 2 ^ 65 ∧ 64 * (2 - 1) < 65 ∧ 65 ≤ 64 * 2) ∧
    (∀ j < 2, (loadRng .l128 [] [5, 7] 0).stream (0 + j) = ([5, 7] : List Word)[j]?) ∧
    1 ≤ wordsValue [5] % 2 ^ 4 ∧ wordsValue [5] % 2 ^ 4 < 12 ∧ ¬ wordsValue [15] % 2 ^ 4 < 12 ∧
    (loadRng .l128 [] [5, 7] 0).stream (1 + 1) = none := by decide +kernel

/-- A step in a state that meets the invariant: the host's write to CMD, taken. -/
theorem witness_step_keeps :
    ({ load .l128 [(0, 5), (1, 13)] with inputs := [.write 0 0x10201000] } : State).Inv ∧
    (after (step { load .l128 [(0, 5), (1, 13)] with inputs := [.write 0 0x10201000] })).map (·.busy) = some true := by
  have h := load_inv .l128 [(0, 5), (1, 13)]
  refine ⟨⟨h.regs, h.pad, h.context, h.busyClean, h.abortKept⟩, ?_⟩; decide +kernel

end Sys2Proof.Tests
end

section
/-! SUPPORT. The magnitude ABS computes (spec/41_bigint.md R142). -/

namespace Sys2Proof.Machine

/-- The settled range is twice the weight of the sign bit. -/
theorem settled_eq_two_mul_half (L : Level) : L.settled = 2 * 2 ^ (L.bits - 1) := by
  rw [Level.settled, ← Nat.pow_succ', Nat.succ_eq_add_one, Nat.sub_add_cancel L.bits_pos]

/-- The sign bit is a bit of the value part: the buffer word does not move it. -/
theorem testBit_sign_mod_settled (L : Level) (a : Nat) :
    (a % L.settled).testBit (L.bits - 1) = a.testBit (L.bits - 1) := by
  have := L.bits_pos
  rw [Level.settled, Nat.testBit_mod_two_pow, decide_eq_true (by omega), Bool.true_and]

theorem absValue_of_sign_clear {L : Level} {a : Nat} (h : a.testBit (L.bits - 1) = false) :
    absValue L a = a := by
  simp [absValue, signBit, h]

/-- With the sign bit set, ABS computes the magnitude of a negative number: at least 1, and 2^(L−1) at most. -/
theorem absValue_of_sign_set {L : Level} {a : Nat} (h : a.testBit (L.bits - 1) = true) :
    (absValue L a : Int) = - decSigned L (a % L.settled) ∧ 1 ≤ absValue L a ∧ absValue L a ≤ 2 ^ (L.bits - 1) := by
  have hv : (a % L.settled).testBit (L.bits - 1) = true := by rw [testBit_sign_mod_settled, h]
  have hge : 2 ^ (L.bits - 1) ≤ a % L.settled := Nat.ge_two_pow_of_testBit hv
  have hlt : a % L.settled < L.settled := Nat.mod_lt _ L.settled_pos
  have hhalf := settled_eq_two_mul_half L
  have habs : absValue L a = L.settled - a % L.settled := by
    rw [absValue, signBit, if_pos h, Nat.mod_eq_of_lt (by omega)]
  have hdec : decSigned L (a % L.settled) = (a % L.settled : Nat) - (L.settled : Int) := if_pos hv
  rw [habs, hdec]
  omega

/-- ABS of a valid register writes the value `absValue` computes. -/
theorem exec_abs {s : State} {L : Level} (rd : RegNum) {ra : RegNum} (hl : s.level = some L)
    (hv : (s.reg ra).valid = true) :
    exec (.abs rd ra) s = .next (s.writeReg L rd (absValue L ((s.reg ra).val L))).complete := by
  simp [exec, execAbs, needLevel_of hl, source_of L hv]

/-- Settles O36: `absValue` in its two cases, by the sign bit. -/
theorem absResult : Obligations.AbsResult := by
  unfold Obligations.AbsResult
  intro s L rd ra hl hv
  constructor
  · intro h
    rw [exec_abs rd hl hv, absValue_of_sign_clear h]
  · intro h
    obtain ⟨hdec, hpos, hle⟩ := absValue_of_sign_set h
    exact ⟨_, hdec, hpos, hle, exec_abs rd hl hv⟩

end Sys2Proof.Machine
end

section
/-! SUPPORT. Granting the sequencer's step more passes (log 5): what a command that draws nothing answers does
not depend on them, and a finished run of a command that draws stays finished, with the same result. -/

namespace Sys2Proof.Machine

/-- The state with `more` passes granted on top (log 5). -/
def State.grant (s : State) (more : Nat) : State := { s with passes := s.passes + more }

namespace State

variable (s : State) (more : Nat)

/-! ### The two cases of `Factor(n)` (spec/10_state.md R43) -/

theorem factor_of_held {s : State} {n : Nat} (h : (s.mcValid && s.mcN.toNat == n) = true) (L : Level) :
    s.factor L n = (s.mcF.toNat, s) := if_pos h

theorem factor_of_not_held {s : State} {n : Nat} (h : ¬ (s.mcValid && s.mcN.toNat == n) = true) (L : Level) :
    s.factor L n = (montFactor L n, { s with
      mcValid := true, mcN := BitVec.ofNat 1024 n, mcF := BitVec.ofNat 1024 (montFactor L n) }) := if_neg h

/-! ### The operations and checks of a command do not look at the passes -/

@[simp] theorem grant_reg (r : RegNum) : (s.grant more).reg r = s.reg r := rfl
@[simp] theorem grant_arg : (s.grant more).arg = s.arg := rfl
@[simp] theorem grant_xpad : (s.grant more).xpad = s.xpad := rfl
@[simp] theorem grant_xpadValid : (s.grant more).xpadValid = s.xpadValid := rfl
@[simp] theorem grant_needLevel : (s.grant more).needLevel = s.needLevel := rfl
@[simp] theorem grant_source (L : Level) (r : RegNum) : (s.grant more).source L r = s.source L r := rfl

@[simp] theorem grant_setReg (r : RegNum) (x : BigReg) :
    (s.grant more).setReg r x = (s.setReg r x).grant more := rfl
@[simp] theorem grant_writeReg (L : Level) (r : RegNum) (v : Nat) :
    (s.grant more).writeReg L r v = (s.writeReg L r v).grant more := rfl
@[simp] theorem grant_writeExact (L : Level) (r : RegNum) (x : Nat) :
    (s.grant more).writeExact L r x = (s.writeExact L r x).grant more := rfl
@[simp] theorem grant_setRes (v : Nat) : (s.grant more).setRes v = (s.setRes v).grant more := rfl
@[simp] theorem grant_setPulls (pos : Nat) : (s.grant more).setPulls pos = (s.setPulls pos).grant more := rfl
@[simp] theorem grant_complete : (s.grant more).complete = s.complete.grant more := rfl
@[simp] theorem grant_raise (e : Err) : (s.grant more).raise e = (s.raise e).grant more := rfl

@[simp] theorem grant_factor (L : Level) (n : Nat) :
    (s.grant more).factor L n = ((s.factor L n).1, (s.factor L n).2.grant more) := by
  by_cases h : (s.mcValid && s.mcN.toNat == n) = true
  · rw [factor_of_held h, factor_of_held (s := s.grant more) h]
    rfl
  · rw [factor_of_not_held h, factor_of_not_held (s := s.grant more) h]
    rfl

@[simp] theorem grant_withContext (L : Level) (n : Nat) :
    (s.grant more).withContext L n = (s.withContext L n).grant more := by
  simp [withContext]

end State

/-! ### Commands that draw nothing -/

variable {s t : State} {more : Nat}

/-- An outcome that carries the added passes through is completed with them. -/
theorem finish_grant {o o' : Except Err State} (ho : o' = (·.grant more) <$> o) (h : finish s o = .next t) :
    finish (s.grant more) o' = .next (t.grant more) := by
  subst ho
  obtain ⟨u, rfl, rfl⟩ | ⟨e, rfl, rfl⟩ := finish_next h
  · exact congrArg _ (u.grant_complete more)
  · exact congrArg _ (s.grant_raise more e)

/-- Checks read the same and writes commute with the granted passes, so they pass through a command's whole
chain of checks and writes. -/
theorem exec_grant_of_draws_nothing {i : Instr} (hi : Pulls i = false) (h : exec i s = .next t) :
    exec i (s.grant more) = .next (t.grant more) := by
  cases i with
  | setlvl imm16 =>
    refine finish_grant ?_ h
    cases levelOfBits imm16.toNat <;> rfl
  | norm _ | importTop _ | setpad _ => exact finish_grant (by simp; rfl) h
  | mrwit _ _ => exact finish_grant (by simp [apply_ite]) h
  | encode _ _ _ _ | decode _ _ _ _ => exact finish_grant (by simp [apply_ite]; rfl) h
  | ldi _ | rstbuf _ _ => exact finish_grant (by simp) h
  | add _ _ _ | neg _ _ | sub _ _ _ | mul _ _ _ | shl1 _ _ | shr1 _ _ | shl _ _ _ | shr _ _ _ =>
    exact finish_grant (by simp) h
  | div _ _ _ _ | cmp _ _ | isodd _ | abs _ _ | isneg _ => exact finish_grant (by simp) h
  | monfac _ _ | monpro _ _ _ _ | monmul _ _ _ _ | monexp _ _ _ _ => exact finish_grant (by simp) h
  | egcd _ _ _ _ _ | modinv _ _ _ => exact finish_grant (by simp) h
  | isprime _ | rndcop _ _ | gencand _ _ | findpr _ | genkey _ _ _ => simp [Pulls] at hi

/-! ### Commands that draw -/

/-- Of the two outcomes of a drawing command, the second has the errors and the finished runs of the first, with
`more` passes granted on top. -/
structure StaysDone (more : Nat) (o o' : Except Err (Run State)) : Prop where
  error : ∀ e, o = .error e → o' = .error e
  done : ∀ u pos left, o = .ok (.done u pos left) → ∃ left', o' = .ok (.done (u.grant more) pos left')

/-- A check in front of both outcomes. -/
theorem StaysDone.bind {α : Type} (check : Except Err α) {f f' : α → Except Err (Run State)}
    (h : ∀ a, StaysDone more (f a) (f' a)) : StaysDone more (check >>= f) (check >>= f') := by
  cases check with
  | ok a => exact h a
  | error e => exact ⟨fun _ he => he, fun _ _ _ hd => nomatch hd⟩

/-- A run whose finished results do not depend on the passes left over, and its writes. -/
theorem StaysDone.runOf {α : Type} {f : (Nat → Option Word) → (left pos : Nat) → Run α} {g g' : α → State}
    (hf : ∀ {left pos a p l}, f s.stream left pos = .done a p l → f s.stream (left + more) pos = .done a p (l + more))
    (hg : ∀ a, g' a = (g a).grant more) :
    StaysDone more (pure ((s.runOf f).map g)) (pure (((s.grant more).runOf f).map g')) := by
  refine ⟨fun _ he => (nomatch he), fun u pos left hd => ?_⟩
  simp only [pure_eq_ok, Except.ok.injEq, map_eq_done] at hd ⊢
  obtain ⟨a, hrun, rfl⟩ := hd
  rw [← hg]
  by_cases h0 : s.abort0 = true
  · have hgranted : (s.grant more).granted = s.granted := by simp [State.granted, State.grant, h0]
    refine ⟨left, a, ?_, rfl⟩
    rw [State.runOf, hgranted]
    exact hrun
  · have hgranted : (s.grant more).granted = s.granted + more := by simp [State.granted, State.grant, h0]
    refine ⟨left + more, a, ?_, rfl⟩
    rw [State.runOf, hgranted]
    exact hf hrun

/-- A completion other than by an abort is the same with more passes. -/
theorem finishRun_grant {o o' : Except Err (Run State)} (ho : StaysDone more o o') (hs : s.busy = true)
    (ht : t.busy = false) (hab : t.err ≠ some .abort) (h : finishRun s o = .next t) :
    finishRun (s.grant more) o' = .next (t.grant more) := by
  obtain ⟨e, he, rfl⟩ | ⟨u, pos, left, hd, rfl⟩ | ⟨pos, -, -, rfl⟩ | ⟨pos, -, -, rfl⟩ := finishRun_next h
  · rw [ho.error e he, finishRun_error, State.grant_raise]
  · obtain ⟨left', hd'⟩ := ho.done u pos left hd
    rw [hd', finishRun_done, State.grant_setPulls, State.grant_complete]
  · exact absurd rfl hab
  · rw [State.stillBusy_busy, hs] at ht
    contradiction

/-- Each of the five runs keeps its finished result (`_more`), and its writes commute with the granted passes. -/
theorem exec_grant_of_draws {i : Instr} (hi : Pulls i = true) (hs : s.busy = true) (h : exec i s = .next t)
    (ht : t.busy = false) (hab : t.err ≠ some .abort) : exec i (s.grant more) = .next (t.grant more) := by
  cases i with
  | isprime rn =>
    refine finishRun_grant (.bind _ fun L => .bind _ fun n => .bind _ fun _ => .runOf (isPrime_more more) ?_) hs ht hab h
    intro verdict
    split <;> simp
  | rndcop rd rl =>
    exact finishRun_grant (.bind _ fun L => .bind _ fun limit => .bind _ fun _ => .bind _ fun _ =>
      .runOf (randomCoprime_more more) fun _ => rfl) hs ht hab h
  | gencand rc ri =>
    exact finishRun_grant (.bind _ fun _ => .bind _ fun L => .runOf (candidate_more more) fun _ => rfl) hs ht hab h
  | findpr rd =>
    exact finishRun_grant (.bind _ fun L => .runOf (findPrime_more more) fun _ => by simp) hs ht hab h
  | genkey rn re rd =>
    exact finishRun_grant (.bind _ fun _ => .bind _ fun L => .runOf (genKey_more more) fun _ => by simp) hs ht hab h
  | _ => simp [Pulls] at hi

end Sys2Proof.Machine
end

section
/-! The derived rule of log 5 on granted passes. -/

namespace Sys2Proof.Machine

/-- Settles O54: a command that draws nothing does not look at the passes; one that draws has its run finished. -/
theorem morePassesDoNotChangeTheOutcome : Obligations.MorePassesDoNotChangeTheOutcome := by
  unfold Obligations.MorePassesDoNotChangeTheOutcome
  intro i s t more hs h ht hab
  cases hi : Pulls i with
  | false => exact exec_grant_of_draws_nothing hi h
  | true => exact exec_grant_of_draws hi hs h ht hab

end Sys2Proof.Machine
end

section
/-! SUPPORT. What a command can write and how its step ends, said once for all 33 commands: the frames of
spec/10_state.md R26 to R41 and the invariant (R22, R23, R39, R43) are read off it. -/

namespace Sys2Proof.Machine

/-! ### The context after `Factor(n)` and the width of a prime found -/

@[simp] theorem State.withContext_level (s : State) (L : Level) (n : Nat) : (s.withContext L n).level = s.level := by
  rcases s.withContext_cases L n with h | ⟨f, h⟩ <;> rw [h]

theorem montFactor_lt_settled {L : Level} {n : Nat} (h0 : 0 < n) (hn : n < L.settled) :
    montFactor L n < L.settled := lt_trans (Nat.mod_lt _ h0) hn

theorem Sieved.lt_settled {L : Level} {c : Nat} (h : Sieved L c) : c < L.settled :=
  calc c < Config.pi L := h.lt
    _ < 2 ^ (L.bits / 2) := pi_lt L
    _ ≤ L.settled := Nat.pow_le_pow_right two_pos (Nat.div_le_self _ _)

/-! ### The writes of a command -/

/-- One write that the command `i` may make, each under the condition its rule gives: a destination gets a canonical
register (R22, R97), only the listed commands write OVF, RES, XPAD and LEVEL (R30, R34, R36, R39) and move RNGCNT (R41),
and the context is given a settled modulus with its factor (R43). -/
inductive Write (i : Instr) : State → State → Prop
  | register {s : State} {L : Level} {rd : RegNum} {x : BigReg} :
      s.level = some L → rd ∈ i.dests → x.Canonical L → Write i s (s.setReg rd x)
  | overflow {s : State} {L : Level} {x : Nat} : WritesOvf i = true → Write i s (s.noteOverflow L x)
  | result {s : State} {v : Nat} : WritesRes i = true → Write i s (s.setRes v)
  | pulls {s : State} {pos : Nat} : Pulls i = true → Write i s (s.setPulls pos)
  | context {s : State} {L : Level} {n f : BitVec 1024} : s.level = some L → n.toNat < L.settled →
      f.toNat = montFactor L n.toNat → Write i s { s with mcValid := true, mcN := n, mcF := f }
  | pad {s : State} {L : Level} {p : BitVec 1024} : IsSetpad i → s.level = some L → p.toNat < L.settled →
      Write i s { s with xpad := p, xpadValid := true }
  | level {s : State} {L : Level} : IsSetlvl i →
      Write i s { s.invalidateAll with level := some L, xpadValid := false, mcValid := false }

/-- Any number of writes of the command `i`. -/
abbrev Writes (i : Instr) : State → State → Prop := Relation.ReflTransGen (Write i)

/-- How the step of the command `i` from `s` ends: with its writes made and the completion (spec/30_encoding.md R93),
with an error and no other write (spec/60_exceptions.md R232), with E_ABORT at a cancellation point (R239), or not yet
(R240). -/
inductive Answers (i : Instr) (s : State) : State → Prop
  | completed {u : State} : Writes i s u → Answers i s u.complete
  | failed (e : Err) : Answers i s (s.raise e)
  | aborted {pos : Nat} : Pulls i = true → (s.abort || s.abort0) = true → Answers i s ((s.setPulls pos).raise .abort)
  | waiting : Pulls i = true → (s.abort || s.abort0) = false → Answers i s s.stillBusy

variable {i : Instr} {s t u v : State} {L : Level} {rd : RegNum}

theorem Write.writeReg {x : Nat} (hl : s.level = some L) (hd : rd ∈ i.dests) : Write i s (s.writeReg L rd x) :=
  .register hl hd (BigReg.canonical_ofNat L x)

/-- `Factor(n)` writes nothing when the context holds `n`, and else `n` and its factor. -/
theorem writes_withContext {n : Nat} (hl : s.level = some L) (h0 : 0 < n) (hn : n < L.settled) :
    Writes i s (s.withContext L n) := by
  by_cases h : (s.mcValid && s.mcN.toNat == n) = true
  · rw [State.withContext, State.factor_of_held h]
  · rw [State.withContext, State.factor_of_not_held h]
    refine .single (.context hl ?_ ?_) <;> rw [toNat_ofNat_1024 hn]
    · exact hn
    · rw [toNat_ofNat_1024 (montFactor_lt_settled h0 hn)]

/-- `Factor(n)`, then the result into the one destination: MONFAC, MONMUL, MONEXP, FINDPR, ENCODE and DECODE. -/
theorem writes_withContext_writeReg {n x : Nat} (hl : s.level = some L) (h0 : 0 < n) (hn : n < L.settled)
    (hd : rd ∈ i.dests := by simp [Instr.dests]) : Writes i s ((s.withContext L n).writeReg L rd x) :=
  (writes_withContext hl h0 hn).tail (.writeReg (by rwa [State.withContext_level]) hd)

/-! ### What a chain of checks lets through -/

/-- Every success of the checks has the property. -/
def Ensures {α : Type} (P : α → Prop) (o : Except Err α) : Prop := ∀ a, o = .ok a → P a

theorem Ensures.error {α : Type} {P : α → Prop} {e : Err} : Ensures P (.error e) := fun _ h => nomatch h

theorem Ensures.pure {α : Type} {P : α → Prop} {a : α} (h : P a) : Ensures P (pure a) := fun _ ha => by
  rw [pure_eq_ok, Except.ok.injEq] at ha
  exact ha ▸ h

theorem Ensures.check {α β : Type} {P : β → Prop} {c : Except Err α} {f : α → Except Err β}
    (h : ∀ a, c = .ok a → Ensures P (f a)) : Ensures P (c >>= f) := fun b hb => by
  obtain ⟨a, hc, hf⟩ := (bind_eq_ok c f b).mp hb
  exact h a hc b hf

theorem Ensures.require {β : Type} {P : β → Prop} {p : Prop} [Decidable p] {e : Err} {f : Unit → Except Err β}
    (h : p → Ensures P (f ())) : Ensures P (require p e >>= f) :=
  .check fun _ hp => h ((require_eq_ok p e _).mp hp)

theorem Ensures.needLevel {β : Type} {P : β → Prop} {f : Level → Except Err β}
    (h : ∀ L, s.level = some L → Ensures P (f L)) : Ensures P (s.needLevel >>= f) :=
  .check fun L hl => h L ((needLevel_eq_ok s L).mp hl)

/-- The writes of a command that draws nothing, all of them to the one destination. -/
theorem Ensures.writeReg {x : Nat} (hl : s.level = some L) (hd : rd ∈ i.dests := by simp [Instr.dests]) :
    Ensures (Writes i s) (Pure.pure (s.writeReg L rd x)) := .pure (.single (.writeReg hl hd))

/-- The writes of ADD, MUL, SHL1 and SHL: the result modulo V and OVF. -/
theorem Ensures.writeExact {x : Nat} (hl : s.level = some L) (hi : WritesOvf i = true := by rfl)
    (hd : rd ∈ i.dests := by simp [Instr.dests]) :
    Ensures (Writes i s) (Pure.pure (s.writeExact L rd x)) := .pure (.tail (.single (.writeReg hl hd)) (.overflow hi))

theorem Ensures.setRes {x : Nat} (hi : WritesRes i = true := by rfl) :
    Ensures (Writes i s) (Pure.pure (s.setRes x)) := .pure (.single (.result hi))

/-- A run's result, if it is finished, is reached by writes of the command. -/
def RunWrites (i : Instr) (s : State) (x : Run State) : Prop := ∀ u pos left, x = .done u pos left → Writes i s u

theorem Ensures.run {α : Type} {f : (Nat → Option Word) → (left pos : Nat) → Run α} {g : α → State}
    (h : ∀ a left pos l p, f s.stream left pos = .done a p l → Writes i s (g a)) :
    Ensures (RunWrites i s) (Pure.pure ((s.runOf f).map g)) := .pure fun u pos left hu => by
  obtain ⟨a, ha, rfl⟩ := (map_eq_done _ _ _ _ _).mp hu
  exact h a _ _ _ _ ha

theorem answers_of_finish {o : Except Err State} (ho : Ensures (Writes i s) o) (h : finish s o = .next t) :
    Answers i s t := by
  obtain ⟨u, hu, rfl⟩ | ⟨e, -, rfl⟩ := finish_next h
  · exact .completed (ho u hu)
  · exact .failed e

theorem answers_of_finishRun {o : Except Err (Run State)} (ho : Ensures (RunWrites i s) o)
    (h : finishRun s o = .next t) (hi : Pulls i = true := by rfl) : Answers i s t := by
  obtain ⟨e, -, rfl⟩ | ⟨u, pos, left, hu, rfl⟩ | ⟨pos, -, ha, rfl⟩ | ⟨pos, -, ha, rfl⟩ := finishRun_next h
  · exact .failed e
  · exact .completed ((ho _ hu u pos left rfl).tail (.pulls hi))
  · exact .aborted hi ha
  · exact .waiting hi ha

/-! ### Every command -/

/-- The completion step of every command makes only the writes of `Write`. -/
theorem exec_answers (h : exec i s = .next t) : Answers i s t := by
  cases i with
  | setlvl imm16 =>
    refine answers_of_finish ?_ h
    cases levelOfBits imm16.toNat with
    | none => exact .error
    | some L => exact .pure (.single (.level ⟨_, rfl⟩))
  | ldi rd => exact answers_of_finish (.needLevel fun L hl => .writeReg hl) h
  | norm rd =>
    exact answers_of_finish (.needLevel fun L hl => .require fun ht =>
      .pure (.single (.register hl (by simp [Instr.dests]) (BigReg.canonical_of_words L _ _ ht)))) h
  | importTop rd =>
    exact answers_of_finish (.needLevel fun L hl => .require fun hf =>
      .pure (.single (.register hl (by simp [Instr.dests]) ((BigReg.formatOk_iff _ L).mp hf)))) h
  | setpad rs =>
    exact answers_of_finish (.needLevel fun L hl => .check fun a _ => .require fun ha =>
      .pure (.single (.pad ⟨_, rfl⟩ hl (by rwa [toNat_ofNat_1024 ha])))) h
  | rstbuf _ _ | neg _ _ | shr1 _ _ | shr _ _ _ | abs _ _ =>
    exact answers_of_finish (.needLevel fun L hl => .check fun a _ => .writeReg hl) h
  | sub rd ra rb =>
    exact answers_of_finish (.needLevel fun L hl => .check fun a _ => .check fun b _ => .writeReg hl) h
  | add _ _ _ | mul _ _ _ =>
    exact answers_of_finish (.needLevel fun L hl => .check fun a _ => .check fun b _ => .writeExact hl) h
  | shl1 _ _ | shl _ _ _ =>
    exact answers_of_finish (.needLevel fun L hl => .check fun a _ => .writeExact hl) h
  | div rq rr ra rb =>
    refine answers_of_finish (.check fun _ _ => .needLevel fun L hl => .check fun a _ => .check fun b _ =>
      .require fun _ => .pure ?_) h
    exact .tail (.single (.writeReg hl (by simp [Instr.dests]))) (.writeReg hl (by simp [Instr.dests]))
  | cmp ra rb =>
    exact answers_of_finish (.needLevel fun L hl => .check fun a _ => .check fun b _ => .setRes) h
  | isodd _ | isneg _ => exact answers_of_finish (.needLevel fun L hl => .check fun a _ => .setRes) h
  | monfac rd rn =>
    exact answers_of_finish (.needLevel fun L hl => .check fun n _ => .require fun ⟨hn, _, h3⟩ =>
      .pure (writes_withContext_writeReg hl (by omega) hn)) h
  | monpro rd ra rb rn =>
    exact answers_of_finish (.needLevel fun L hl => .check fun a _ => .check fun b _ => .check fun n _ =>
      .require fun _ => .require fun _ => .require fun _ => .writeReg hl) h
  | monmul _ _ _ _ | monexp _ _ _ _ =>
    exact answers_of_finish (.needLevel fun L hl => .check fun a _ => .check fun b _ => .check fun n _ =>
      .require fun ⟨hn, _, h3⟩ => .require fun _ => .require fun _ =>
        .pure (writes_withContext_writeReg hl (by omega) hn)) h
  | mrwit ra rn =>
    refine answers_of_finish (.needLevel fun L hl => .check fun a _ => .check fun n _ => .require fun hn => ?_) h
    split
    · exact .setRes
    · exact .require fun h3 => .require fun _ =>
        .pure (.tail (writes_withContext hl (by omega) hn) (.result rfl))
  | isprime rn =>
    refine answers_of_finishRun (.needLevel fun L hl => .check fun n _ => .require fun hn => .run ?_) h
    intro verdict _ _ _ _ _
    refine .tail ?_ (.result rfl)
    split
    · exact writes_withContext hl (by omega) hn
    · exact .refl
  | egcd rg rx ry ra rb =>
    refine answers_of_finish (.check fun _ _ => .needLevel fun L hl => .check fun a _ => .check fun b _ =>
      .require fun _ => .require fun _ => .pure (a := State.writeReg _ L ry (encSigned L (xgcd a b).2.2)) ?_) h
    exact .tail (.tail (.single (.writeReg hl (by simp [Instr.dests]))) (.writeReg hl (by simp [Instr.dests])))
      (.writeReg hl (by simp [Instr.dests]))
  | modinv rd rv rm =>
    exact answers_of_finish (.needLevel fun L hl => .check fun v _ => .check fun m _ => .require fun _ =>
      .require fun _ => .require fun _ => .writeReg hl) h
  | rndcop rd rl =>
    exact answers_of_finishRun (.needLevel fun L hl => .check fun n _ => .require fun _ => .require fun _ =>
      .run fun v _ _ _ _ _ => .single (.writeReg hl (by simp [Instr.dests]))) h
  | gencand rc ri =>
    exact answers_of_finishRun (.check fun _ _ => .needLevel fun L hl => .run fun c _ _ _ _ _ =>
      .tail (.single (.writeReg hl (by simp [Instr.dests]))) (.writeReg hl (by simp [Instr.dests]))) h
  | findpr rd =>
    refine answers_of_finishRun (.needLevel fun L hl => .run fun p _ _ _ _ hp => ?_) h
    obtain ⟨hs, -⟩ := findPrime_done hp
    exact writes_withContext_writeReg hl hs.pos hs.lt_settled
  | genkey rn re rd =>
    refine answers_of_finishRun (.check fun _ _ => .needLevel fun L hl => .run fun k _ _ _ _ hk => ?_) h
    obtain ⟨p1, -, hs, -⟩ := genKey_done hk
    exact .tail (.tail (writes_withContext_writeReg hl hs.pos hs.lt_settled)
      (.writeReg (by simpa) (by simp [Instr.dests]))) (.writeReg (by simpa) (by simp [Instr.dests]))
  | encode rd rdata rexp rn =>
    refine answers_of_finish (.needLevel fun L hl => .check fun x _ => .check fun e _ => .check fun n _ =>
      .require fun ⟨hn, _, h3⟩ => .require fun _ => .require fun _ => .require fun _ => ?_) h
    split
    · exact .require fun _ => .writeReg hl
    · exact .pure (writes_withContext_writeReg hl (by omega) hn)
  | decode rd rc rexp rn =>
    refine answers_of_finish (.needLevel fun L hl => .check fun x _ => .check fun e _ => .check fun n _ =>
      .require fun ⟨hn, _, h3⟩ => .require fun _ => ?_) h
    split
    · exact .require fun _ => .writeReg hl
    · exact .require fun _ => .require fun _ => .pure (writes_withContext_writeReg hl (by omega) hn)

end Sys2Proof.Machine
end

section
/-! SUPPORT. The invariant (spec/10_state.md R22, R23, R39, R43, spec/30_encoding.md R92) through every input of the
host, the reset input and the completion step of every command. -/

namespace Sys2Proof.Machine

variable {i : Instr} {s t u v : State}

/-! ### The completion step -/

/-- A register that is canonical, where it is valid, may be put into a state that meets the invariant. -/
theorem State.Inv.setReg (h : s.Inv) {r : RegNum} {x : BigReg}
    (hx : x.valid = true → ∃ L, s.level = some L ∧ x.Canonical L) : (s.setReg r x).Inv := by
  refine { h with regs := fun q => ?_ }
  rw [State.reg_setReg]
  split
  · exact hx
  · exact h.regs q

theorem Write.inv (hw : Write i u v) (h : u.Inv) : v.Inv := by
  cases hw with
  | register hl _ hx => exact h.setReg fun _ => ⟨_, hl, hx⟩
  | context hl hn hf => exact { h with context := fun _ => ⟨_, hl, hn, hf⟩ }
  | pad _ hl hp => exact { h with pad := fun _ => ⟨_, hl, hp⟩ }
  | level _ =>
    refine { h with regs := fun r hr => ?_, pad := nofun, context := nofun }
    exact absurd ((congrArg BigReg.valid (State.reg_invalidateAll u r)).symm.trans hr) Bool.false_ne_true
  | overflow _ | result _ | pulls _ => exact { h with }

theorem Writes.inv (hw : Writes i s u) (h : s.Inv) : u.Inv := by
  induction hw with
  | refl => exact h
  | tail _ hw ih => exact hw.inv ih

/-- The idle core owes nothing about DONE, ERRCODE and the abort request. -/
theorem State.Inv.complete (h : s.Inv) : s.complete.Inv := { h with busyClean := nofun, abortKept := nofun }

theorem State.Inv.raise (h : s.Inv) (e : Err) : (s.raise e).Inv := { h with busyClean := nofun, abortKept := nofun }

theorem State.Inv.setPulls (h : s.Inv) (pos : Nat) : (s.setPulls pos).Inv := { h with }

theorem exec_inv (h : s.Inv) (hx : exec i s = .next t) : t.Inv := by
  cases exec_answers hx with
  | completed hw => exact (hw.inv h).complete
  | failed e => exact h.raise e
  | aborted _ _ => exact (h.setPulls _).raise .abort
  | waiting _ _ => exact { h with }

theorem runSequencer_inv (h : s.Inv) (hx : runSequencer s = .next t) : t.Inv := by
  unfold runSequencer at hx
  split at hx
  · split at hx
    · exact exec_inv h hx
    · exact Host.Outcome.next.inj hx ▸ h.raise .illegal
  · exact Host.Outcome.next.inj hx ▸ h

/-! ### The reset input -/

/-- With nothing valid and the core idle, the invariant asks nothing. -/
theorem inv_of_nothing_valid (hr : ∀ r, (s.reg r).valid = false) (hp : s.xpadValid = false) (hm : s.mcValid = false)
    (hb : s.busy = false) : s.Inv where
  regs r := by simp [hr]
  pad := by simp [hp]
  context := by simp [hm]
  busyClean := by simp [hb]
  abortKept := by simp [hb]

@[simp] theorem State.reg_restart (words : List Word) (stops : Bool) (r : RegNum) :
    (s.restart words stops).reg r = BigReg.cleared := State.reg_reset r

theorem reset_inv : State.reset.Inv :=
  inv_of_nothing_valid (fun r => by rw [State.reg_reset]; rfl) rfl rfl rfl

theorem restart_inv (words : List Word) (stops : Bool) : (s.restart words stops).Inv :=
  inv_of_nothing_valid (fun r => by rw [State.reg_restart]; rfl) rfl rfl rfl

/-! ### The host's accesses -/

theorem hostRead_inv (h : s.Inv) (loc : Loc) : (s.hostRead loc).Inv := by
  unfold State.hostRead
  split <;> exact { h with }

/-- A write that is not refused: CMD finds the core idle, a raw write leaves its register not valid, STATUS cannot set
DONE, and CTRL cannot clear ABORT while busy. -/
theorem store_inv (h : s.Inv) {loc : Loc} (v : Word) (hr : s.refuses loc = false) : (s.store loc v).Inv := by
  cases loc with
  | cmd => exact { h with busyClean := fun _ => ⟨rfl, rfl⟩, abortKept := fun _ ha => ha }
  | status =>
    refine { h with busyClean := fun hb => ?_ }
    obtain ⟨hd, he⟩ := h.busyClean hb
    exact ⟨by simp [State.store, hd], he⟩
  | ctrl =>
    refine { h with abortKept := fun hb ha => ?_ }
    have hab : s.abort = true := h.abortKept hb ha
    have hbusy : s.busy = true := hb
    simp [State.store, hab, hbusy]
  | word r i => exact h.setReg nofun
  | top r => exact h.setReg nofun
  | arg => exact { h with }
  | level | res | rngcnt | valid _ | reserved => exact h

theorem hostWrite_inv (h : s.Inv) (loc : Loc) (v : Word) : (s.hostWrite loc v).Inv := by
  unfold State.hostWrite
  split
  · exact { h with }
  · exact store_inv h v (eq_false_of_ne_true ‹_›)

theorem atPort_next {off : Nat} {access : Loc → State} (h : atPort off access = .next t) :
    t = access (locate off) := by
  unfold atPort at h
  split at h
  · cases h
  · split at h
    · cases h
    · exact (Host.Outcome.next.inj h).symm

theorem present_inv (h : s.Inv) {input : Input} (hx : present input s = .next t) : t.Inv := by
  cases input with
  | read off => exact atPort_next hx ▸ hostRead_inv h _
  | write off v => exact atPort_next (access := (s.hostWrite · v)) hx ▸ hostWrite_inv h _ v
  | run passes => exact runSequencer_inv (s := { s with passes := passes }) { h with } hx
  | rst words stops => exact Host.Outcome.next.inj hx ▸ restart_inv words stops

theorem step_inv (h : s.Inv) (hx : step s = .next t) : t.Inv := by
  unfold step at hx
  split at hx
  · exact runSequencer_inv h hx
  · next input rest _ => exact present_inv (s := { s with inputs := rest }) { h with } hx

/-- Settles O59: the sequencer's step and every input keep the invariant. -/
theorem stepKeepsTheInvariant : Obligations.StepKeepsTheInvariant := fun _ _ h hx => step_inv h hx

/-- Settles O58: nothing is valid after reset, and the core is idle. -/
theorem resetStateMeetsTheInvariant : Obligations.ResetStateMeetsTheInvariant := reset_inv

end Sys2Proof.Machine
end

section
/-! SUPPORT. The frames: which fields of the state a command can change (spec/10_state.md R26, R30 to R41), and what
the host sees of it (spec/20_memory.md R61). -/

namespace Sys2Proof.Machine

variable {i : Instr} {s t u v : State}

/-- The fields no command writes: HAZ, IE, ARG, CMDREG, ABORT0 (spec/10_state.md R29, R31, R33, R35) and the model's own
but `passes`. -/
def State.untouched (s : State) :=
  (s.cmdreg, s.abort0, s.haz, s.ie, s.arg, s.rdata, s.inputs, s.rngWords, s.rngStops, s.epoch)

/-! ### One write -/

theorem Write.untouched_eq (h : Write i u v) : v.untouched = u.untouched := by cases h <;> rfl

theorem Write.reg_eq (h : Write i u v) (hi : ¬ IsSetlvl i) {r : RegNum} (hr : r ∉ i.dests) : v.reg r = u.reg r := by
  cases h with
  | register _ hd _ => exact State.reg_setReg_other u _ fun hq => hr (hq ▸ hd)
  | level hs => exact absurd hs hi
  | _ => rfl

/-- SETLVL names no destination, and clears tags only (spec/40_config_data.md R110). -/
theorem Write.raw_eq (h : Write i u v) (hi : IsSetlvl i) (r : RegNum) :
    ((v.reg r).w, (v.reg r).top) = ((u.reg r).w, (u.reg r).top) := by
  obtain ⟨imm16, rfl⟩ := hi
  cases h with
  | register _ hd _ => exact absurd hd List.not_mem_nil
  | level _ =>
    change ((u.invalidateAll.reg r).w, (u.invalidateAll.reg r).top) = _
    rw [State.reg_invalidateAll]
  | _ => rfl

theorem Write.ovf_eq (h : Write i u v) (hi : WritesOvf i = false) : v.ovf = u.ovf := by
  cases h with
  | overflow ho => simp [hi] at ho
  | _ => rfl

theorem Write.res_eq (h : Write i u v) (hi : WritesRes i = false) : v.res = u.res := by
  cases h with
  | result hr => simp [hi] at hr
  | _ => rfl

theorem Write.rngTotal_eq (h : Write i u v) (hi : Pulls i = false) : v.rngTotal = u.rngTotal := by
  cases h with
  | pulls hp => simp [hi] at hp
  | _ => rfl

theorem Write.level_eq (h : Write i u v) (hi : ¬ IsSetlvl i) : v.level = u.level := by
  cases h with
  | level hs => exact absurd hs hi
  | _ => rfl

theorem Write.xpad_eq (h : Write i u v) (hi : ¬ IsSetpad i) : v.xpad = u.xpad := by
  cases h with
  | pad hs => exact absurd hs hi
  | _ => rfl

theorem Write.xpadValid_eq (h : Write i u v) (hl : ¬ IsSetlvl i) (hp : ¬ IsSetpad i) : v.xpadValid = u.xpadValid := by
  cases h with
  | level hs => exact absurd hs hl
  | pad hs => exact absurd hs hp
  | _ => rfl

/-! ### A whole command -/

/-- What no write of a command changes, and no ending (BUSY, DONE, ERRCODE, ABORT and the model's `passes`), the command
leaves unchanged. -/
theorem exec_keeps {α : Type} (f : State → α) (h : exec i s = .next t) (hw : ∀ {u v}, Write i u v → f v = f u)
    (hend : ∀ (u : State) (busy done abort : Bool) (err : Option Err) (passes : Nat),
      f { u with busy := busy, done := done, abort := abort, err := err, passes := passes } = f u) :
    f t = f s := by
  have writes : ∀ {u}, Writes i s u → f u = f s := fun hu => by
    induction hu with
    | refl => rfl
    | tail _ h ih => exact (hw h).trans ih
  cases exec_answers h with
  | completed hu => exact (hend _ _ _ _ _ _).trans (writes hu)
  | failed e => exact hend _ _ _ _ _ _
  | aborted hp _ => exact (hend _ _ _ _ _ _).trans (hw (.pulls hp))
  | waiting _ _ => exact hend _ _ _ _ _ _

theorem exec_untouched (h : exec i s = .next t) :
    t.cmdreg = s.cmdreg ∧ t.abort0 = s.abort0 ∧ t.haz = s.haz ∧ t.ie = s.ie ∧ t.arg = s.arg ∧ t.rdata = s.rdata ∧
      t.inputs = s.inputs ∧ t.rngWords = s.rngWords ∧ t.rngStops = s.rngStops ∧ t.epoch = s.epoch := by
  simpa only [State.untouched, Prod.mk.injEq] using
    exec_keeps State.untouched h Write.untouched_eq fun _ _ _ _ _ _ => rfl

theorem exec_reg_of_not_dest (h : exec i s = .next t) (hi : ¬ IsSetlvl i) {r : RegNum} (hr : r ∉ i.dests) :
    t.reg r = s.reg r :=
  exec_keeps (·.reg r) h (·.reg_eq hi hr) fun _ _ _ _ _ _ => rfl

theorem exec_setlvl_raw (h : exec i s = .next t) (hi : IsSetlvl i) (r : RegNum) :
    ((t.reg r).w, (t.reg r).top) = ((s.reg r).w, (s.reg r).top) :=
  exec_keeps (fun u => ((u.reg r).w, (u.reg r).top)) h (·.raw_eq hi r) fun _ _ _ _ _ _ => rfl

theorem exec_ovf (h : exec i s = .next t) (hi : WritesOvf i = false) : t.ovf = s.ovf :=
  exec_keeps State.ovf h (·.ovf_eq hi) fun _ _ _ _ _ _ => rfl

theorem exec_res (h : exec i s = .next t) (hi : WritesRes i = false) : t.res = s.res :=
  exec_keeps State.res h (·.res_eq hi) fun _ _ _ _ _ _ => rfl

theorem exec_rngTotal (h : exec i s = .next t) (hi : Pulls i = false) : t.rngTotal = s.rngTotal :=
  exec_keeps State.rngTotal h (·.rngTotal_eq hi) fun _ _ _ _ _ _ => rfl

theorem exec_level (h : exec i s = .next t) (hi : ¬ IsSetlvl i) : t.level = s.level :=
  exec_keeps State.level h (·.level_eq hi) fun _ _ _ _ _ _ => rfl

theorem exec_xpad (h : exec i s = .next t) (hi : ¬ IsSetpad i) : t.xpad = s.xpad :=
  exec_keeps State.xpad h (·.xpad_eq hi) fun _ _ _ _ _ _ => rfl

theorem exec_xpadValid (h : exec i s = .next t) (hl : ¬ IsSetlvl i) (hp : ¬ IsSetpad i) : t.xpadValid = s.xpadValid :=
  exec_keeps State.xpadValid h (·.xpadValid_eq hl hp) fun _ _ _ _ _ _ => rfl

/-! ### The statements -/

/-- Settles O20: a register that is no destination is in no write of the command. -/
theorem onlyDestinationsAreWritten : Obligations.OnlyDestinationsAreWritten := fun _ _ _ r h =>
  ⟨fun hi hr => exec_reg_of_not_dest h hi hr, fun hi => Prod.mk.inj (exec_setlvl_raw h hi r)⟩

/-- Settles O21: OVF and RES are in the writes of the listed commands only, HAZ in none. -/
theorem flagAndResultFrames : Obligations.FlagAndResultFrames := fun _ _ _ h => by
  obtain ⟨-, -, hhaz, -⟩ := exec_untouched h
  exact ⟨hhaz, exec_ovf h, exec_res h⟩

/-- Settles O22: each register's own write, and the fields no command writes. -/
theorem specialRegisterFrames : Obligations.SpecialRegisterFrames := by
  unfold Obligations.SpecialRegisterFrames
  intro i s t h
  obtain ⟨hcmdreg, habort0, -, hie, harg, hown⟩ := exec_untouched h
  exact ⟨exec_level h, exec_xpad h, exec_xpadValid h, exec_rngTotal h, harg, hie, hcmdreg, habort0, hown⟩

/-- Settles O23: the content of each location is read off a field whose frame is above. -/
theorem hostSeesNothingElseChange : Obligations.HostSeesNothingElseChange := by
  unfold Obligations.HostSeesNothingElseChange
  intro i s t loc h hi hstatus hctrl hres hrng hslot
  obtain ⟨-, -, -, -, harg, -⟩ := exec_untouched h
  cases loc with
  | cmd | reserved => rfl
  | status => exact absurd rfl hstatus
  | ctrl => exact absurd rfl hctrl
  | level => simp only [State.content, State.levelWord, exec_level h hi]
  | arg => exact harg
  | res => exact exec_res h (hres rfl)
  | rngcnt => exact congrArg (BitVec.ofNat 64) (exec_rngTotal h (hrng rfl))
  | word r j =>
    have hr : r ∉ i.dests := fun hd => by
      obtain ⟨-, -, hword⟩ := hslot r hd
      exact hword j rfl
    simp only [State.content, exec_reg_of_not_dest h hi hr]
  | top r =>
    have hr : r ∉ i.dests := fun hd => (hslot r hd).1 rfl
    simp only [State.content, exec_reg_of_not_dest h hi hr]
  | valid r =>
    have hr : r ∉ i.dests := fun hd => (hslot r hd).2.1 rfl
    simp only [State.content, exec_reg_of_not_dest h hi hr]

end Sys2Proof.Machine
end

section
/-! SUPPORT. The registers and the slave port: what a write of a register, a raw host write and a host write to a control
register do, and what each location holds (spec/10_state.md R24, R27, R32 to R37, spec/20_memory.md R62, R63). -/

namespace Sys2Proof.Machine

variable {s : State}

/-! ### Register writes -/

/-- Settles O24: the fields of `BigReg.ofNat`, which is what the written register is. -/
theorem writtenRegisterHoldsItsValue : Obligations.WrittenRegisterHoldsItsValue := by
  unfold Obligations.WrittenRegisterHoldsItsValue
  intro s L rd v hv
  rw [State.reg_writeReg_same]
  exact ⟨BigReg.word_ofNat L v, BigReg.canonical_ofNat L v, BigReg.ofNat_valid L v,
    by rw [BigReg.val_ofNat, Nat.mod_eq_of_lt hv], fun q hq => State.reg_writeReg_other s L v hq⟩

theorem BigReg.word_writeWord (x : BigReg) (i j : Fin 17) (v : Word) :
    (x.writeWord i v).word j = if j = i then v else x.word j := by
  simp only [BigReg.word, BigReg.writeWord, Vector.get_eq_getElem, Vector.getElem_set, Fin.ext_iff, eq_comm]

/-! ### Host writes -/

/-- An idle core refuses nothing (spec/20_memory.md R68). -/
theorem hostWrite_of_idle (h : s.busy = false) (loc : Loc) (v : Word) : s.hostWrite loc v = s.store loc v := by
  simp [State.hostWrite, State.refuses, h]

/-- Settles O12: the raw write is `writeWord` or `writeTop` of the register. -/
theorem rawWriteClearsValid : Obligations.RawWriteClearsValid := by
  unfold Obligations.RawWriteClearsValid
  intro s r i v hb
  refine ⟨⟨_, hostWrite_of_idle hb _ v, rfl, rfl, ?_, fun j hj => ?_⟩,
    ⟨_, hostWrite_of_idle hb _ v, rfl, rfl, fun j => rfl⟩, fun q x hq => State.reg_setReg_other s x hq⟩
  · rw [BigReg.word_writeWord, if_pos rfl]
  · rw [BigReg.word_writeWord, if_neg hj]

/-- STATUS is writable while busy, too (spec/20_memory.md R68). -/
theorem hostWrite_status (v : Word) : s.hostWrite .status v = s.writeStatus v := by
  simp [State.hostWrite, State.refuses, State.store]

/-- CTRL is writable while busy, too (spec/20_memory.md R68). -/
theorem hostWrite_ctrl (v : Word) : s.hostWrite .ctrl v = s.writeCtrl v := by
  simp [State.hostWrite, State.refuses, State.store]

/-- Settles O14: STATUS and CTRL by their own writes, the others by what an idle core stores. -/
theorem hostWritesByLocation : Obligations.HostWritesByLocation := by
  unfold Obligations.HostWritesByLocation
  intro s v r
  refine ⟨?_, fun hb => ?_, fun hb => ?_, fun hb => ?_⟩
  · rw [hostWrite_status, State.writeStatus]
    cases v.getLsbD 1 <;> cases v.getLsbD 4 <;> simp
  · simp [hostWrite_ctrl, State.writeCtrl, hb]
  · simp [hostWrite_ctrl, State.writeCtrl, hb]
  · exact ⟨hostWrite_of_idle hb _ v, hostWrite_of_idle hb _ v, hostWrite_of_idle hb _ v, hostWrite_of_idle hb _ v,
      hostWrite_of_idle hb _ v⟩

/-! ### Reset -/

theorem BigReg.word_cleared (i : Fin 17) : BigReg.cleared.word i = 0 := by
  simp [BigReg.word, BigReg.cleared, Vector.get_eq_getElem]

theorem resetValues_restart (words : List Word) (stops : Bool) : ResetValues (s.restart words stops) :=
  ⟨rfl, rfl, rfl, rfl, rfl, rfl, rfl, rfl, rfl, rfl, fun r => by
    rw [State.reg_restart]
    exact ⟨rfl, rfl, BigReg.word_cleared⟩⟩

theorem resetValues_reset : ResetValues State.reset :=
  ⟨rfl, rfl, rfl, rfl, rfl, rfl, rfl, rfl, rfl, rfl, fun r => by
    rw [State.reg_reset]
    exact ⟨rfl, rfl, BigReg.word_cleared⟩⟩

/-- Settles O15: the reset input restarts the core, whatever it was doing. -/
theorem resetGivesTheValuesOfTheTable : Obligations.ResetGivesTheValuesOfTheTable := by
  refine ⟨resetValues_reset, fun s words stops rest hin => ?_⟩
  refine ⟨State.restart { s with inputs := rest } words stops, ?_, rfl, resetValues_restart words stops⟩
  simp only [step, hin, present]

/-! ### Contents -/

theorem Err.code_le (e : Err) : e.code ≤ 9 := by cases e <;> decide

theorem errcode_le (s : State) : s.errcode ≤ 9 := by
  unfold State.errcode
  split
  · exact Nat.zero_le 9
  · exact Err.code_le _

/-- STATUS as a number: its fields side by side (spec/10_state.md R32). -/
theorem status_toNat (s : State) : s.status.toNat = s.busy.toNat + 2 * s.done.toNat + 4 * s.err.isSome.toNat
    + 8 * s.ovf.toNat + 16 * s.haz.toNat + 256 * s.errcode := by
  have hcode := errcode_le s
  have hbit := Bool.toNat_le
  rw [State.status, BitVec.toNat_ofNat, Nat.mod_eq_of_lt]
  have := hbit s.busy; have := hbit s.done; have := hbit s.err.isSome; have := hbit s.ovf; have := hbit s.haz
  omega

theorem ctrl_toNat (s : State) : s.ctrl.toNat = s.ie.toNat + 2 * s.abort.toNat := by
  have := Bool.toNat_le s.ie
  have := Bool.toNat_le s.abort
  rw [State.ctrl, BitVec.toNat_ofNat, Nat.mod_eq_of_lt (by omega)]

/-- A bit of a word, from the word as a number. -/
theorem getLsbD_eq_of_toNat {w : Word} {k : Nat} {b : Bool} (h : w.toNat / 2 ^ k % 2 = b.toNat) : w.getLsbD k = b := by
  rw [BitVec.getLsbD, Nat.testBit_eq_decide_div_mod_eq, h]
  cases b <;> rfl

/-- The bits of STATUS (spec/10_state.md R32): bits 5 to 7 are 0 and ERRCODE is the rest. -/
theorem status_fields (s : State) :
    s.status.getLsbD 0 = s.busy ∧ s.status.getLsbD 1 = s.done ∧ s.status.getLsbD 2 = s.err.isSome ∧
      s.status.getLsbD 3 = s.ovf ∧ s.status.getLsbD 4 = s.haz ∧ s.status.toNat / 32 % 8 = 0 ∧
      s.status.toNat / 256 = s.errcode := by
  have hs := status_toNat s
  have h0 := Bool.toNat_le s.busy
  have h1 := Bool.toNat_le s.done
  have h2 := Bool.toNat_le s.err.isSome
  have h3 := Bool.toNat_le s.ovf
  have h4 := Bool.toNat_le s.haz
  refine ⟨getLsbD_eq_of_toNat ?_, getLsbD_eq_of_toNat ?_, getLsbD_eq_of_toNat ?_, getLsbD_eq_of_toNat ?_,
    getLsbD_eq_of_toNat ?_, ?_, ?_⟩ <;> omega

/-- The bits of CTRL (spec/10_state.md R33). -/
theorem ctrl_fields (s : State) :
    s.ctrl.getLsbD 0 = s.ie ∧ s.ctrl.getLsbD 1 = s.abort ∧ s.ctrl.toNat < 4 := by
  have hc := ctrl_toNat s
  have h0 := Bool.toNat_le s.ie
  have h1 := Bool.toNat_le s.abort
  refine ⟨getLsbD_eq_of_toNat ?_, getLsbD_eq_of_toNat ?_, ?_⟩ <;> omega

/-- Settles O13: STATUS and CTRL by their bits, the names of errors and levels by their numbers, the rest as stored. -/
theorem contentOfEveryLocation : Obligations.ContentOfEveryLocation := by
  unfold Obligations.ContentOfEveryLocation
  intro s r i
  obtain ⟨hbusy, hdone, herr, hovf, hhaz, hgap, hcode⟩ := status_fields s
  obtain ⟨hie, habort, hctrl⟩ := ctrl_fields s
  refine ⟨hbusy, hdone, herr, hovf, hhaz, hgap, hcode.trans ?_, hie, habort, hctrl, ?_, rfl, rfl,
    BitVec.toNat_ofNat _ _, rfl, rfl, ?_, rfl⟩
  · unfold State.errcode
    cases s.err with
    | none => rfl
    | some e => cases e <;> rfl
  · simp only [State.content, State.levelWord]
    cases s.level with
    | none => rfl
    | some L => cases L <;> rfl
  · simp only [State.content]
    cases (s.reg r).valid <;> rfl

end Sys2Proof.Machine
end

section
/-! SUPPORT. Commands whose next state their rule gives outright: IMPORT (spec/40_config_data.md R113), the wrapping
arithmetic and the scalar results (spec/41_bigint.md), MONFAC (spec/42_montgomery.md R161). -/

namespace Sys2Proof.Machine

variable {s : State} {L : Level} {rd ra rb : RegNum}

/-- Settles O28: IMPORT's check is the canonical form. -/
theorem importAcceptsExactlyCanonicalRegisters : Obligations.ImportAcceptsExactlyCanonicalRegisters := by
  unfold Obligations.ImportAcceptsExactlyCanonicalRegisters
  intro s L rd hl
  constructor
  · intro hc
    simp [exec, execImport, needLevel_of hl, require_pos _ ((BigReg.formatOk_iff _ L).mpr hc)]
  · intro hc
    simp [exec, execImport, needLevel_of hl, require_neg _ (mt (BigReg.formatOk_iff _ L).mp hc)]

/-- The exact result modulo V, with OVF (spec/10_state.md R30). -/
theorem writeExact_eq (x : Nat) :
    s.writeExact L rd x = { s.writeReg L rd (x % L.modulus) with ovf := decide (x ≥ L.modulus) } := rfl

section sources

variable (hl : s.level = some L) (ha : (s.reg ra).valid = true)
include hl ha

theorem exec_shl1 : exec (.shl1 rd ra) s = .next (s.writeExact L rd (2 * (s.reg ra).val L)).complete := by
  simp [exec, execShl1, needLevel_of hl, source_of L ha]

theorem exec_shl (n : BitVec 16) :
    exec (.shl rd ra n) s = .next (s.writeExact L rd ((s.reg ra).val L * 2 ^ n.toNat)).complete := by
  simp [exec, execShl, needLevel_of hl, source_of L ha]

theorem exec_isodd : exec (.isodd ra) s = .next (s.setRes ((s.reg ra).val L % 2)).complete := by
  simp [exec, execIsodd, needLevel_of hl, source_of L ha]

theorem exec_isneg : exec (.isneg ra) s = .next (s.setRes (signBit L ((s.reg ra).val L)).toNat).complete := by
  simp [exec, execIsneg, needLevel_of hl, source_of L ha]

variable (hb : (s.reg rb).valid = true)
include hb

theorem exec_add :
    exec (.add rd ra rb) s = .next (s.writeExact L rd ((s.reg ra).val L + (s.reg rb).val L)).complete := by
  simp [exec, execAdd, needLevel_of hl, source_of L ha, source_of L hb]

theorem exec_mul :
    exec (.mul rd ra rb) s = .next (s.writeExact L rd ((s.reg ra).val L * (s.reg rb).val L)).complete := by
  simp [exec, execMul, needLevel_of hl, source_of L ha, source_of L hb]

theorem exec_cmp :
    exec (.cmp ra rb) s = .next (s.setRes (compareCode ((s.reg ra).val L) ((s.reg rb).val L))).complete := by
  simp [exec, execCmp, needLevel_of hl, source_of L ha, source_of L hb]

end sources

/-- Settles O30: the four commands write their exact result through `writeExact`. -/
theorem wrappingResultsAndOverflow : Obligations.WrappingResultsAndOverflow := by
  unfold Obligations.WrappingResultsAndOverflow
  intro s L rd ra rb n a b hl ha hva hb hvb
  subst hva hvb
  exact ⟨exec_add hl ha hb, exec_mul hl ha hb, exec_shl1 hl ha, exec_shl hl ha n⟩

/-- Settles O35: the scalar result of each, in its cases. -/
theorem compareAndPredicateResults : Obligations.CompareAndPredicateResults := by
  unfold Obligations.CompareAndPredicateResults
  intro s L ra rb a b hl ha hva hb hvb
  subst hva hvb
  refine ⟨(exec_cmp hl ha hb).trans ?_, (exec_isodd hl ha).trans ?_, (exec_isneg hl ha).trans ?_⟩
  · unfold compareCode
    split
    · rfl
    · split <;> rfl
  · rcases Nat.mod_two_eq_zero_or_one ((s.reg ra).val L) with h | h <;> rw [h] <;> rfl
  · rw [signBit]
    cases ((s.reg ra).val L).testBit (L.bits - 1) <;> rfl

/-! ### MONFAC -/

theorem exec_monfac {rn : RegNum} (hl : s.level = some L) (hv : (s.reg rn).valid = true) :
    exec (.monfac rd rn) s = if ModOK L ((s.reg rn).val L) then
      .next ((s.factor L ((s.reg rn).val L)).2.writeReg L rd (s.factor L ((s.reg rn).val L)).1).complete
    else .next (s.raise .precond) := by
  simp only [exec, execMonfac, needLevel_of hl, source_of L hv, ok_bind, needModulus]
  split
  · next hok => rw [require_pos _ hok]; rfl
  · next hok => rw [require_neg _ hok]; rfl

/-- Settles O37: `Factor(n)` in a state whose context holds its factor. -/
theorem monfacResult : Obligations.MonfacResult := by
  unfold Obligations.MonfacResult
  intro s L rd rn n hi hl hv hn
  have hexec := exec_monfac (rd := rd) hl hv
  rw [hn] at hexec
  constructor
  · intro (hok : ModOK L n)
    have ⟨hlt, _, h3⟩ := hok
    obtain ⟨hf, hvalid, hN, hF, hctx⟩ := State.factor_spec hi hl hlt (Nat.lt_of_lt_of_le three_pos h3)
    refine ⟨_, hexec.trans (if_pos hok), hvalid, hN, hF, ?_⟩
    rw [hf]
    conv_lhs => rw [hctx]
    rfl
  · intro (hok : ¬ ModOK L n)
    exact hexec.trans (if_neg hok)

end Sys2Proof.Machine
end

section
/-! SUPPORT. One pass of `Draw` (spec/10_state.md R41, R42). -/

namespace Sys2Proof.Machine

theorem bitlen_eq {v k : Nat} (h1 : 1 ≤ v) (hlow : 2 ^ (k - 1) ≤ v) (hhigh : v < 2 ^ k) : bitlen v = k := by
  have hk : k ≠ 0 := by rintro rfl; simp at hhigh; omega
  have hlog : Nat.log2 v = k - 1 := by
    rw [Nat.log2_eq_iff (by omega), Nat.sub_add_cancel (Nat.pos_of_ne_zero hk)]
    exact ⟨hlow, hhigh⟩
  rw [bitlen, if_neg (by omega), hlog]
  omega

variable {rho : Nat → Option Word} {limit left pos : Nat}

/-- A pass the source serves: its words, masked, are the result or are rejected. -/
theorem draw_succ_of_pull {x : Nat} (h : pull rho (drawWords limit) pos = some x) :
    draw rho limit (left + 1) pos =
      if 1 ≤ x % 2 ^ bitlen (limit - 1) ∧ x % 2 ^ bitlen (limit - 1) < limit then
        .done (x % 2 ^ bitlen (limit - 1)) (pos + drawWords limit) left
      else draw rho limit left (pos + drawWords limit) := by
  rw [draw, h]

/-- A pass the source does not serve (log 13). -/
theorem draw_succ_of_stall (h : pull rho (drawWords limit) pos = none) :
    draw rho limit (left + 1) pos = .atPoint pos := by
  rw [draw, h]

/-- Settles O60: a pass by what the source delivers for it. -/
theorem drawMasksAndRejects : Obligations.DrawMasksAndRejects := by
  unfold Obligations.DrawMasksAndRejects
  intro s limit k nw left pos hlimit hlow hhigh hnw hk
  have hbits : bitlen (limit - 1) = k := bitlen_eq (by omega) hlow hhigh
  have hwords : drawWords limit = nw := by rw [drawWords, hbits]; omega
  refine ⟨fun ws hlen hws => ?_, fun j hj hnone => ?_, rfl⟩
  · have hpull : pull s.stream (drawWords limit) pos = some (wordsValue ws) := by
      rw [hwords, ← hlen]
      exact pull_words ws pos (hlen ▸ hws)
    have hpass := draw_succ_of_pull (left := left) hpull
    rw [hbits, hwords] at hpass
    exact ⟨fun h1 h2 => hpass.trans (if_pos ⟨h1, h2⟩), fun h => hpass.trans (if_neg h)⟩
  · exact draw_succ_of_stall (by rw [hwords]; exact pull_none hj hnone)

end Sys2Proof.Machine
end

section
/-! SUPPORT. The slave port: the address map and its locations (spec/20_memory.md R60, R61, R64), the accesses the port
carries (R66) and refuses (R68), and a register copied word by word (R74). -/

namespace Sys2Proof.Machine

variable {s : State} {off : Nat} {loc : Loc}

/-! ### The address map -/

/-- What stands at offset `k` of register `r`'s slot (spec/20_memory.md R64). -/
theorem locate_slot (r : RegNum) {k : Nat} (hk : k < 0x100) :
    locate (0x1000 + 0x100 * r.val + k) =
      if h : k / 8 < 17 then .word r ⟨k / 8, h⟩
      else if k = 0x88 then .top r
      else if k = 0x90 then .valid r
      else .reserved := by
  have hr := r.isLt
  have hslot : (0x1000 + 0x100 * r.val + k) % 0x100 = k := by omega
  have hreg : slotReg (0x1000 + 0x100 * r.val + k) = r := Fin.ext (by simp only [slotReg]; omega)
  have hcontrol : ∀ c < 0x1000, 0x1000 + 0x100 * r.val + k ≠ c := fun c hc => by omega
  simp only [locate, hslot, hreg, hcontrol, Nat.reduceLT, if_false,
    if_neg (show ¬ 0x1000 + 0x100 * r.val + k < 0x1000 by omega)]

theorem locate_word (r : RegNum) (i : Fin 17) : locate (0x1000 + 0x100 * r.val + 8 * i.val) = .word r i := by
  have hdiv : 8 * i.val / 8 = i.val := Nat.mul_div_cancel_left _ (by decide)
  rw [locate_slot r (by omega), dif_pos (by omega)]
  simp only [hdiv]

theorem locate_top (r : RegNum) : locate (0x1000 + 0x100 * r.val + 0x88) = .top r := locate_slot r (by decide)

theorem locate_valid (r : RegNum) : locate (0x1000 + 0x100 * r.val + 0x90) = .valid r := locate_slot r (by decide)

/-- Each location's offset is a word of the 8 KiB space, and leads back to it. -/
theorem locate_of_offset (h : loc.offset = some off) : off % 8 = 0 ∧ off < 0x2000 ∧ locate off = loc := by
  cases loc with
  | word r i =>
    obtain rfl := Option.some.inj h
    exact ⟨by omega, by omega, locate_word r i⟩
  | top r =>
    obtain rfl := Option.some.inj h
    exact ⟨by omega, by omega, locate_top r⟩
  | valid r =>
    obtain rfl := Option.some.inj h
    exact ⟨by omega, by omega, locate_valid r⟩
  | reserved => cases h
  | cmd | status | ctrl | level | arg | res | rngcnt =>
    obtain rfl := Option.some.inj h
    decide

/-- Settles O10: the map by location, and `locate_of_offset`. -/
theorem addressMapNamesEveryLocation : Obligations.AddressMapNamesEveryLocation :=
  ⟨rfl, rfl, rfl, rfl, rfl, rfl, rfl, fun _ _ => rfl, fun _ => ⟨rfl, rfl⟩, rfl, fun _ _ => locate_of_offset⟩

/-- An offset of the register window lies in the slot of a register. -/
theorem exists_slot (h : 0x1000 ≤ off) (hlt : off < 0x2000) :
    ∃ (r : RegNum) (k : Nat), k < 0x100 ∧ off = 0x1000 + 0x100 * r.val + k :=
  ⟨⟨(off - 0x1000) / 0x100, by omega⟩, off % 0x100, by omega, by simp only; omega⟩

/-- A word of the 8 KiB space is reserved, or is the place of the location found there. -/
theorem locate_reserved_or_offset (ha : off % 8 = 0) (hlt : off < 0x2000) :
    locate off = .reserved ∨ (locate off).offset = some off := by
  by_cases hwin : 0x1000 ≤ off
  · obtain ⟨r, k, hk, rfl⟩ := exists_slot hwin hlt
    rw [locate_slot r hk]
    split
    · exact .inr (congrArg some (by simp only; omega))
    · split
      · exact .inr (congrArg some (by omega))
      · split
        · exact .inr (congrArg some (by omega))
        · exact .inl rfl
  · rw [locate, if_pos (Nat.lt_of_not_le hwin)]
    iterate 7
      split
      · exact .inr (congrArg some (Eq.symm ‹_›))
    exact .inl rfl

/-! ### Accesses at a location -/

/-- R68's condition. -/
theorem refuses_iff : s.refuses loc = true ↔ s.busy = true ∧ loc ≠ .status ∧ loc ≠ .ctrl := by
  simp [State.refuses, and_assoc]

theorem hostRead_of_refused (h : s.refuses loc = true) : s.hostRead loc = { s with haz := true, rdata := 0 } := if_pos h

theorem hostWrite_of_refused (h : s.refuses loc = true) (v : Word) : s.hostWrite loc v = { s with haz := true } :=
  if_pos h

theorem hostRead_of_served (h : ¬ s.refuses loc = true) : s.hostRead loc = { s with rdata := s.content loc } := if_neg h

/-- Settles O9: an access by whether the port refuses it. -/
theorem busyAccessIsRefused : Obligations.BusyAccessIsRefused := by
  unfold Obligations.BusyAccessIsRefused
  intro s loc v
  refine ⟨fun hb hstatus hctrl => ?_, fun hserved => hostRead_of_served fun h => ?_⟩
  · have h := refuses_iff.mpr ⟨hb, hstatus, hctrl⟩
    exact ⟨hostRead_of_refused h, hostWrite_of_refused h v⟩
  · obtain ⟨hb, hstatus, hctrl⟩ := refuses_iff.mp h
    rcases hserved with hidle | hloc | hloc
    · exact Bool.false_ne_true (hidle.symm.trans hb)
    · exact hstatus hloc
    · exact hctrl hloc

/-- Settles O11: an offset that no location has is reserved. -/
theorem reservedOffsetsReadZeroAndIgnoreWrites : Obligations.ReservedOffsetsReadZeroAndIgnoreWrites := by
  unfold Obligations.ReservedOffsetsReadZeroAndIgnoreWrites
  intro off ha hlt hnone s v hb
  have hreserved : locate off = .reserved :=
    (locate_reserved_or_offset ha hlt).resolve_right (hnone (locate off))
  rw [hreserved]
  exact ⟨hostRead_of_served (by simp [refuses_iff, hb]), hostWrite_of_idle hb .reserved v⟩

/-! ### Accesses at the port -/

section port

variable (access : Loc → State)

theorem atPort_of_word (ha : off % 8 = 0) (hlt : off < 0x2000) : atPort off access = .next (access (locate off)) := by
  rw [atPort, if_neg (not_not.mpr ha), if_neg (Nat.not_le.mpr hlt)]

theorem atPort_of_misaligned (ha : off % 8 ≠ 0) : atPort off access = .fault .misalignedAccess := if_pos ha

theorem atPort_of_outside (ha : off % 8 = 0) (hle : 0x2000 ≤ off) :
    atPort off access = .fault .outsideRegisterSpace := by
  rw [atPort, if_neg (not_not.mpr ha), if_pos hle]

end port

section inputs

variable {v : Word} {rest : List Input}

theorem step_of_read (h : s.inputs = .read off :: rest) :
    step s = atPort off { s with inputs := rest }.hostRead := by
  simp only [step, h, present]

theorem step_of_write (h : s.inputs = .write off v :: rest) :
    step s = atPort off ({ s with inputs := rest }.hostWrite · v) := by
  simp only [step, h, present]

/-- A host access, read or write, is an access at the port. -/
theorem step_of_access (h : s.inputs = .read off :: rest ∨ s.inputs = .write off v :: rest) :
    ∃ access, step s = atPort off access :=
  h.elim (fun h => ⟨_, step_of_read h⟩) (fun h => ⟨_, step_of_write h⟩)

end inputs

/-- Settles O7: the port by alignment and bound. -/
theorem hostAccessReachesItsLocation : Obligations.HostAccessReachesItsLocation := by
  unfold Obligations.HostAccessReachesItsLocation
  intro s off v rest
  refine ⟨fun h ha hlt => ?_, fun h ha hlt => ?_, fun h ha => ?_, fun h ha hle => ?_⟩
  · rw [step_of_read h, atPort_of_word _ ha hlt]
  · rw [step_of_write h, atPort_of_word _ ha hlt]
  · obtain ⟨access, hstep⟩ := step_of_access h
    exact hstep.trans (atPort_of_misaligned access ha)
  · obtain ⟨access, hstep⟩ := step_of_access h
    exact hstep.trans (atPort_of_outside access ha hle)

/-! ### A register read out and imported -/

/-- Raw writes of `f i` to the words `i` of a list. -/
def BigReg.writeWords (x : BigReg) (is : List (Fin 17)) (f : Fin 17 → Word) : BigReg :=
  is.foldl (fun x i => x.writeWord i (f i)) x

theorem BigReg.word_writeTop (x : BigReg) (i : Fin 17) (v : Word) : (x.writeTop v).word i = x.word i := rfl

theorem BigReg.word_writeWords (f : Fin 17 → Word) (j : Fin 17) (is : List (Fin 17)) (x : BigReg) :
    (x.writeWords is f).word j = if j ∈ is then f j else x.word j := by
  induction is generalizing x with
  | nil => rfl
  | cons i is ih =>
    refine (ih (x.writeWord i (f i))).trans ?_
    rw [BigReg.word_writeWord]
    by_cases hj : j ∈ is
    · simp [hj]
    · by_cases hi : j = i <;> simp [hj, hi]

theorem hostWrite_word (hb : s.busy = false) (r : RegNum) (i : Fin 17) (v : Word) :
    s.hostWrite (.word r i) v = s.setReg r ((s.reg r).writeWord i v) := hostWrite_of_idle hb _ v

theorem hostWrite_top (hb : s.busy = false) (r : RegNum) (v : Word) :
    s.hostWrite (.top r) v = s.setReg r ((s.reg r).writeTop v) := hostWrite_of_idle hb _ v

/-- Raw host writes to words of a register of an idle core write that register. -/
theorem foldl_hostWrite_word (hb : s.busy = false) (q : RegNum) (f : Fin 17 → Word) (is : List (Fin 17)) :
    is.foldl (fun u i => u.hostWrite (.word q i) (f i)) s = s.setReg q ((s.reg q).writeWords is f) := by
  induction is generalizing s with
  | nil => exact (State.setReg_self s q).symm
  | cons i is ih =>
    rw [List.foldl_cons, hostWrite_word hb, ih (s := s.setReg q _) hb, State.reg_setReg_same, State.setReg_setReg]
    rfl

/-- A register is its words, its top and its tag. -/
theorem BigReg.ext_word {x y : BigReg} (hw : ∀ i, x.word i = y.word i) (ht : x.top = y.top) (hv : x.valid = y.valid) :
    x = y := by
  obtain ⟨w, top, valid⟩ := x
  obtain ⟨w', top', valid'⟩ := y
  obtain rfl : top = top' := ht
  obtain rfl : valid = valid' := hv
  have : w = w' := Vector.ext fun i hi => hw ⟨i, hi⟩
  rw [this]

/-- All 17 words and the top of `y`, written raw: `y`, not valid (spec/10_state.md R27). -/
theorem BigReg.writeTop_writeWords (x y : BigReg) :
    (x.writeWords (List.finRange 17) y.word).writeTop y.top = { y with valid := false } := by
  refine BigReg.ext_word (fun i => ?_) rfl rfl
  rw [BigReg.word_writeTop, BigReg.word_writeWords, if_pos (List.mem_finRange i)]
  rfl

/-- The host's part of R74: the contents of register `r`, written raw to register `q` of the idle core. -/
theorem copy_words_and_top (hb : s.busy = false) (r q : RegNum) :
    (((List.finRange 17).foldl (fun u i => u.hostWrite (.word q i) (s.content (.word r i))) s).hostWrite
      (.top q) (s.content (.top r))) = s.setReg q { s.reg r with valid := false } := by
  have hwords := foldl_hostWrite_word hb q (fun i => s.content (.word r i)) (List.finRange 17)
  rw [hwords, hostWrite_top (s := s.setReg q _) hb, State.reg_setReg_same, State.setReg_setReg]
  exact congrArg (s.setReg q) (BigReg.writeTop_writeWords (s.reg q) (s.reg r))

/-- Settles O55: the invariant makes the register read out canonical, so IMPORT accepts the copy and tags it valid. -/
theorem exportThenImportReproducesTheRegister : Obligations.ExportThenImportReproducesTheRegister := by
  unfold Obligations.ExportThenImportReproducesTheRegister
  intro s L r q hinv hb hl hv
  rw [copy_words_and_top hb]
  obtain ⟨L', hl', hcanonical⟩ := hinv.regs r hv
  obtain rfl : L = L' := Option.some.inj (hl.symm.trans hl')
  have himport := (importAcceptsExactlyCanonicalRegisters (s.setReg q { s.reg r with valid := false }) L q hl).1
  rw [State.reg_setReg_same] at himport
  refine ⟨_, himport hcanonical, ?_, rfl⟩
  rw [State.reg_complete, State.reg_setReg_same]
  exact BigReg.ext_word (fun _ => rfl) rfl hv.symm

end Sys2Proof.Machine
end

section
/-! SUPPORT. The encoding (spec/30_encoding.md R90, R91, R95, R96): what the decoder makes of a word whose opcode is a
command's, said once for all 33 rows of the map, and that a command's word is determined by its fields. -/

namespace Sys2Proof

variable {w : Word} {i : Instr} {op : Nat}

/-! ### The rows of the opcode map -/

/-- The bits below the opcode that the row of a command shows as 0: the lowest bit and the number of bits (R91). -/
def Instr.unused : Instr → Nat × Nat
  | .setlvl _ => (16, 8)
  | .shl _ _ _ | .shr _ _ _ => (0, 0)
  | .egcd _ _ _ _ _ => (0, 4)
  | .div _ _ _ _ | .monpro _ _ _ _ | .monmul _ _ _ _ | .monexp _ _ _ _ | .encode _ _ _ _ | .decode _ _ _ _ => (0, 8)
  | .add _ _ _ | .sub _ _ _ | .mul _ _ _ | .modinv _ _ _ | .genkey _ _ _ => (0, 12)
  | .rstbuf _ _ | .neg _ _ | .shl1 _ _ | .shr1 _ _ | .cmp _ _ | .abs _ _ | .monfac _ _ | .mrwit _ _ | .rndcop _ _
  | .gencand _ _ => (0, 16)
  | .ldi _ | .norm _ | .importTop _ | .setpad _ | .isodd _ | .isneg _ | .isprime _ | .findpr _ => (0, 20)

/-- The command of the same row with the operands the word `w` holds, in field order (R95). -/
def Instr.withOperandsOf (w : Word) : Instr → Instr
  | .setlvl _ => .setlvl (immField w)
  | .ldi _ => .ldi (regField w 20)
  | .norm _ => .norm (regField w 20)
  | .importTop _ => .importTop (regField w 20)
  | .rstbuf _ _ => .rstbuf (regField w 20) (regField w 16)
  | .setpad _ => .setpad (regField w 20)
  | .add _ _ _ => .add (regField w 20) (regField w 16) (regField w 12)
  | .neg _ _ => .neg (regField w 20) (regField w 16)
  | .sub _ _ _ => .sub (regField w 20) (regField w 16) (regField w 12)
  | .mul _ _ _ => .mul (regField w 20) (regField w 16) (regField w 12)
  | .shl1 _ _ => .shl1 (regField w 20) (regField w 16)
  | .shr1 _ _ => .shr1 (regField w 20) (regField w 16)
  | .shl _ _ _ => .shl (regField w 20) (regField w 16) (immField w)
  | .shr _ _ _ => .shr (regField w 20) (regField w 16) (immField w)
  | .div _ _ _ _ => .div (regField w 20) (regField w 16) (regField w 12) (regField w 8)
  | .cmp _ _ => .cmp (regField w 20) (regField w 16)
  | .isodd _ => .isodd (regField w 20)
  | .abs _ _ => .abs (regField w 20) (regField w 16)
  | .isneg _ => .isneg (regField w 20)
  | .monfac _ _ => .monfac (regField w 20) (regField w 16)
  | .monpro _ _ _ _ => .monpro (regField w 20) (regField w 16) (regField w 12) (regField w 8)
  | .monmul _ _ _ _ => .monmul (regField w 20) (regField w 16) (regField w 12) (regField w 8)
  | .monexp _ _ _ _ => .monexp (regField w 20) (regField w 16) (regField w 12) (regField w 8)
  | .mrwit _ _ => .mrwit (regField w 20) (regField w 16)
  | .isprime _ => .isprime (regField w 20)
  | .egcd _ _ _ _ _ => .egcd (regField w 20) (regField w 16) (regField w 12) (regField w 8) (regField w 4)
  | .modinv _ _ _ => .modinv (regField w 20) (regField w 16) (regField w 12)
  | .rndcop _ _ => .rndcop (regField w 20) (regField w 16)
  | .gencand _ _ => .gencand (regField w 20) (regField w 16)
  | .findpr _ => .findpr (regField w 20)
  | .genkey _ _ _ => .genkey (regField w 20) (regField w 16) (regField w 12)
  | .encode _ _ _ _ => .encode (regField w 20) (regField w 16) (regField w 12) (regField w 8)
  | .decode _ _ _ _ => .decode (regField w 20) (regField w 16) (regField w 12) (regField w 8)

/-- One command of each row, in the order of R91. -/
def rowCommands : List Instr :=
  [.setlvl 0, .ldi 0, .norm 0, .importTop 0, .rstbuf 0 0, .setpad 0, .add 0 0 0, .neg 0 0, .sub 0 0 0, .mul 0 0 0,
   .shl1 0 0, .shr1 0 0, .shl 0 0 0, .shr 0 0 0, .div 0 0 0 0, .cmp 0 0, .isodd 0, .abs 0 0, .isneg 0, .monfac 0 0,
   .monpro 0 0 0 0, .monmul 0 0 0 0, .monexp 0 0 0 0, .mrwit 0 0, .isprime 0, .egcd 0 0 0 0 0, .modinv 0 0 0,
   .rndcop 0 0, .gencand 0 0, .findpr 0, .genkey 0 0 0, .encode 0 0 0 0, .decode 0 0 0 0]

theorem zeroBits_eq_map : zeroBits = rowCommands.map fun i => (Laws.Opcode.opcode i, i.unused) := rfl

/-- Every row of the map is a command's. -/
theorem exists_command_of_mem_zeroBits {lo width : Nat} (h : (op, lo, width) ∈ zeroBits) :
    ∃ i, Laws.Opcode.opcode i = op ∧ i.unused = (lo, width) := by
  rw [zeroBits_eq_map] at h
  obtain ⟨i, -, hi⟩ := List.mem_map.mp h
  exact ⟨i, Prod.mk.inj hi⟩

theorem exists_command_of_mem_opcodes (h : op ∈ opcodes) : ∃ i, Laws.Opcode.opcode i = op := by
  obtain ⟨⟨_, lo, width⟩, hrow, rfl⟩ := List.mem_map.mp h
  obtain ⟨i, hop, -⟩ := exists_command_of_mem_zeroBits hrow
  exact ⟨i, hop⟩

/-! ### The decoder -/

theorem decode_of_upper (h : bitField w 32 32 ≠ 0) : decode w = .error .upperHalf := if_pos h

theorem decode_of_unknown (hu : bitField w 32 32 = 0) (hop : bitField w 24 8 ∉ opcodes) :
    decode w = .error .unknownOpcode := by
  rw [decode, if_neg (not_not.mpr hu)]
  split
  case h_34 => rfl
  all_goals
    rename_i hrow
    rw [hrow] at hop
    exact absurd (by decide) hop

/-- A word whose opcode is a command's: that command with the word's operands, if the bits its row shows as 0 are. -/
theorem decode_of_opcode (hu : bitField w 32 32 = 0) (hop : bitField w 24 8 = Laws.Opcode.opcode i) :
    decode w = if bitField w i.unused.1 i.unused.2 = 0 then .ok (i.withOperandsOf w) else .error .reservedField := by
  rw [decode, if_neg (not_not.mpr hu), hop]
  cases i with
  | shl _ _ _ | shr _ _ _ => exact (if_pos (Nat.mod_one _)).symm
  | _ => rfl

/-- A word that decodes has the opcode of a command, and the bits its row shows as 0 are 0. -/
theorem decode_eq_ok (h : decode w = .ok i) : ∃ j, bitField w 32 32 = 0 ∧ bitField w 24 8 = Laws.Opcode.opcode j ∧
    bitField w j.unused.1 j.unused.2 = 0 ∧ i = j.withOperandsOf w := by
  by_cases hu : bitField w 32 32 = 0
  · by_cases hop : bitField w 24 8 ∈ opcodes
    · obtain ⟨j, hj⟩ := exists_command_of_mem_opcodes hop
      rw [decode_of_opcode hu hj.symm] at h
      split at h
      · next hz => exact ⟨j, hu, hj.symm, hz, (Except.ok.inj h).symm⟩
      · cases h
    · rw [decode_of_unknown hu hop] at h
      cases h
  · rw [decode_of_upper hu] at h
    cases h

/-! ### A word is determined by its fields -/

/-- Where the bits a command's row shows as 0 are 0, so is every field inside them. -/
theorem bitField_of_unused (hz : bitField w i.unused.1 i.unused.2 = 0) {lo k : Nat}
    (h : decide (i.unused.1 ≤ lo ∧ lo + k ≤ i.unused.1 + i.unused.2) = true := by rfl) : bitField w lo k = 0 := by
  obtain ⟨hlo, hk⟩ := of_decide_eq_true h
  obtain ⟨d, rfl⟩ := Nat.exists_eq_add_of_le hlo
  have hdvd : 2 ^ (d + k) ∣ w.toNat / 2 ^ i.unused.1 :=
    (Nat.pow_dvd_pow 2 (by omega)).trans (Nat.dvd_of_mod_eq_zero hz)
  rw [bitField, Nat.pow_add, ← Nat.div_div_eq_div_mul, ← Nat.mod_mul_right_div_self, ← Nat.pow_add,
    Nat.mod_eq_zero_of_dvd hdvd, Nat.zero_div]

theorem regField_of_unused (hz : bitField w i.unused.1 i.unused.2 = 0) {lo : Nat}
    (h : decide (i.unused.1 ≤ lo ∧ lo + 4 ≤ i.unused.1 + i.unused.2) = true := by rfl) : regField w lo = 0 :=
  Fin.ext (bitField_of_unused hz h)

theorem bitField_lt (w : Word) (lo k : Nat) : bitField w lo k < 2 ^ k := Nat.mod_lt _ (Nat.two_pow_pos k)

section fields

variable (hu : bitField w 32 32 = 0) (hop : bitField w 24 8 = op)
include hu hop

theorem wordR_of_fields {f0 f1 f2 f3 f4 : RegNum} (h0 : regField w 20 = f0) (h1 : regField w 16 = f1)
    (h2 : regField w 12 = f2) (h3 : regField w 8 = f3) (h4 : regField w 4 = f4) (hz : bitField w 0 4 = 0) :
    wordR op f0 f1 f2 f3 f4 = w := by
  subst hop h0 h1 h2 h3 h4
  apply BitVec.eq_of_toNat_eq
  rw [wordR_toNat (bitField_lt w 24 8)]
  have hw := w.isLt
  simp only [regField, bitField] at *
  omega

theorem wordI_of_fields {f0 f1 : RegNum} (h0 : regField w 20 = f0) (h1 : regField w 16 = f1) :
    wordI op f0 f1 (immField w) = w := by
  subst hop h0 h1
  apply BitVec.eq_of_toNat_eq
  rw [wordI_toNat (bitField_lt w 24 8)]
  have hw := w.isLt
  simp only [regField, immField, bitField, BitVec.toNat_ofNat] at *
  omega

end fields

/-- A word with the opcode of a command and 0 in the bits its row shows as 0 is the encoding of that command with the
word's operands. -/
theorem encode_withOperandsOf (hu : bitField w 32 32 = 0) (hop : bitField w 24 8 = Laws.Opcode.opcode i)
    (hz : bitField w i.unused.1 i.unused.2 = 0) : encode (i.withOperandsOf w) = w := by
  cases i with
  | setlvl _ => exact wordI_of_fields hu hop (regField_of_unused hz) (regField_of_unused hz)
  | shl _ _ _ | shr _ _ _ => exact wordI_of_fields hu hop rfl rfl
  | egcd _ _ _ _ _ => exact wordR_of_fields hu hop rfl rfl rfl rfl rfl hz
  | div _ _ _ _ | monpro _ _ _ _ | monmul _ _ _ _ | monexp _ _ _ _ | encode _ _ _ _ | decode _ _ _ _ =>
    exact wordR_of_fields hu hop rfl rfl rfl rfl (regField_of_unused hz) (bitField_of_unused hz)
  | add _ _ _ | sub _ _ _ | mul _ _ _ | modinv _ _ _ | genkey _ _ _ =>
    exact wordR_of_fields hu hop rfl rfl rfl (regField_of_unused hz) (regField_of_unused hz) (bitField_of_unused hz)
  | rstbuf _ _ | neg _ _ | shl1 _ _ | shr1 _ _ | cmp _ _ | abs _ _ | monfac _ _ | mrwit _ _ | rndcop _ _
  | gencand _ _ =>
    exact wordR_of_fields hu hop rfl rfl (regField_of_unused hz) (regField_of_unused hz) (regField_of_unused hz)
      (bitField_of_unused hz)
  | ldi _ | norm _ | importTop _ | setpad _ | isodd _ | isneg _ | isprime _ | findpr _ =>
    exact wordR_of_fields hu hop rfl (regField_of_unused hz) (regField_of_unused hz) (regField_of_unused hz)
      (regField_of_unused hz) (bitField_of_unused hz)

/-! ### The word of a command -/

open Laws.Opcode in
/-- The laws of the family `Opcode`, for every command. -/
theorem encode_upper_and_opcode (i : Instr) : Statement i :=
  i.casesOn setlvl ldi norm importTop rstbuf setpad add neg sub mul shl1 shr1 shl shr div cmp isodd abs isneg monfac
    monpro monmul monexp mrwit isprime egcd modinv rndcop gencand findpr genkey Laws.Opcode.encode Laws.Opcode.decode

theorem encode_unused (i : Instr) : bitField (encode i) i.unused.1 i.unused.2 = 0 := by
  cases i with
  | setlvl imm16 => exact wordI_unused (by decide) imm16
  | shl _ _ _ | shr _ _ _ => exact Nat.mod_one _
  | egcd _ _ _ _ _ => exact wordR_z (by decide) _ _ _ _ _
  | div _ _ _ _ | monpro _ _ _ _ | monmul _ _ _ _ | monexp _ _ _ _ | encode _ _ _ _ | decode _ _ _ _ =>
    exact wordR_unused8 (by decide) _ _ _ _
  | add _ _ _ | sub _ _ _ | mul _ _ _ | modinv _ _ _ | genkey _ _ _ => exact wordR_unused12 (by decide) _ _ _
  | rstbuf _ _ | neg _ _ | shl1 _ _ | shr1 _ _ | cmp _ _ | abs _ _ | monfac _ _ | mrwit _ _ | rndcop _ _
  | gencand _ _ => exact wordR_unused16 (by decide) _ _
  | ldi _ | norm _ | importTop _ | setpad _ | isodd _ | isneg _ | isprime _ | findpr _ =>
    exact wordR_unused20 (by decide) _

theorem withOperandsOf_encode (i : Instr) : i.withOperandsOf (encode i) = i := by
  cases i with
  | setlvl _ | shl _ _ _ | shr _ _ _ => simp [Instr.withOperandsOf, encode, wordI_f0, wordI_f1, wordI_imm]
  | _ => simp [Instr.withOperandsOf, encode, wordR_f0, wordR_f1, wordR_f2, wordR_f3, wordR_f4]

/-! ### The statements -/

/-- Settles O1: a command's word has its opcode, zeros where its row shows 0, and its operands in its fields. -/
theorem decodeOfEncodeIsTheCommand : Obligations.DecodeOfEncodeIsTheCommand := by
  unfold Obligations.DecodeOfEncodeIsTheCommand
  intro i
  obtain ⟨hu, hop⟩ := encode_upper_and_opcode i
  rw [decode_of_opcode hu hop, if_pos (encode_unused i), withOperandsOf_encode]

/-- Settles O2: the row a word decodes by, with the word's own operands, encodes to the word. -/
theorem decodedWordIsTheEncoding : Obligations.DecodedWordIsTheEncoding := by
  unfold Obligations.DecodedWordIsTheEncoding
  intro w i h
  obtain ⟨j, hu, hop, hz, rfl⟩ := decode_eq_ok h
  exact encode_withOperandsOf hu hop hz

/-- Settles O4: by the upper half, the opcode, and the zero bits of the opcode's row. -/
theorem wordsOutsideTheMapAreRejected : Obligations.WordsOutsideTheMapAreRejected := by
  unfold Obligations.WordsOutsideTheMapAreRejected
  intro w
  have hw := w.isLt
  have upper (h : w.toNat < 2 ^ 32) : bitField w 32 32 = 0 := by rw [bitField]; omega
  have opcode (h : w.toNat < 2 ^ 32) : bitField w 24 8 = w.toNat / 2 ^ 24 := by rw [bitField]; omega
  refine ⟨fun h => decode_of_upper ?_, fun h hop => decode_of_unknown (upper h) (by rwa [opcode h]), ?_⟩
  · rw [bitField]; omega
  · intro h op lo width hrow hop
    obtain ⟨i, hi, hunused⟩ := exists_command_of_mem_zeroBits hrow
    have hdecode := decode_of_opcode (upper h) ((opcode h).trans (hop.trans hi.symm))
    rw [hunused] at hdecode
    exact ⟨fun hz => hdecode.trans (if_neg hz), fun hz => ⟨_, hdecode.trans (if_pos hz)⟩⟩

/-- Settles O3: each word is the encoding of its command. -/
theorem assemblerExamplesDecode : Obligations.AssemblerExamplesDecode :=
  have h := decodeOfEncodeIsTheCommand
  ⟨h (.setlvl 128), h (.ldi 0), h (.add 2 0 1), h (.mul 2 0 1), h (.shl 3 2 65), h (.div 4 5 2 1), h (.cmp 0 1),
   h (.monexp 3 0 1 2), h (.egcd 2 3 4 0 1), h (.encode 5 0 1 2)⟩

end Sys2Proof
end

section
/-! SUPPORT. How a step runs the command in CMDREG and how it ends (spec/30_encoding.md R92, R93, R96). -/

namespace Sys2Proof.Machine

variable {s : State} {i : Instr}

/-! ### The step of a busy core and of an idle one -/

theorem step_of_no_input (h : s.inputs = []) : step s = runSequencer s := by
  simp only [step, h]

theorem step_of_run {passes : Nat} {rest : List Input} (h : s.inputs = .run passes :: rest) :
    step s = runSequencer { s with inputs := rest, passes := passes } := by
  simp only [step, h, present]

theorem runSequencer_of_command (hb : s.busy = true) (hd : decode s.cmdreg = .ok i) : runSequencer s = exec i s := by
  simp only [runSequencer, State.command, hb, hd, if_true]

theorem runSequencer_of_illegal {e : DecodeError} (hb : s.busy = true) (hd : decode s.cmdreg = .error e) :
    runSequencer s = .next (s.raise .illegal) := by
  simp only [runSequencer, State.command, hb, hd, if_true, illegalCommand]

theorem runSequencer_of_idle (hb : s.busy = false) : runSequencer s = .next s := by
  simp only [runSequencer, hb, Bool.false_eq_true, if_false]

/-- Settles O5: with no input, and with the input `run` consumed, the sequencer runs the command. -/
theorem stepRunsTheAcceptedCommand : Obligations.StepRunsTheAcceptedCommand := by
  unfold Obligations.StepRunsTheAcceptedCommand
  intro s i hb hd
  refine ⟨fun h => ?_, fun passes rest h => ?_⟩
  · rw [step_of_no_input h, runSequencer_of_command hb hd]
  · rw [step_of_run h, runSequencer_of_command (s := { s with inputs := rest, passes := passes }) hb hd]

/-- Settles O6: with no input the sequencer completes an illegal word, and an idle core has nothing to do. -/
theorem illegalWordCompletesAndIdleCoreWaits : Obligations.IllegalWordCompletesAndIdleCoreWaits :=
  ⟨fun _ _ hb hd h => (step_of_no_input h).trans (runSequencer_of_illegal hb hd),
   fun _ hb h => (step_of_no_input h).trans (runSequencer_of_idle hb)⟩

/-- Settles O8: a write to CMD is stored by the accept while idle, and refused while busy. -/
theorem writeToCommandRegisterAccepts : Obligations.WriteToCommandRegisterAccepts :=
  ⟨rfl, fun _ c => ⟨fun hb => hostWrite_of_idle hb .cmd c,
    fun hb => hostWrite_of_refused (refuses_iff.mpr ⟨hb, by decide, by decide⟩) c⟩⟩

/-! ### How a command ends -/

/-- A completion step answers a next state, whatever its checks and effect came to. -/
theorem finish_total (s : State) (o : Except Err State) : ∃ t, finish s o = .next t := by
  cases o with
  | ok u => exact ⟨_, finish_ok s u⟩
  | error e => exact ⟨_, finish_error s e⟩

/-- So does the completion step of a command that draws: its run is finished, aborted or not finished yet. -/
theorem finishRun_total (s : State) (o : Except Err (Run State)) : ∃ t, finishRun s o = .next t := by
  cases o with
  | error e => exact ⟨_, finishRun_error s e⟩
  | ok run =>
    cases run with
    | done u pos left => exact ⟨_, finishRun_done s u pos left⟩
    | atPoint pos =>
      rw [finishRun]
      split
      · exact ⟨_, rfl⟩
      · exact ⟨_, rfl⟩

/-- Settles O16: every command ends by one of the two completion steps. -/
theorem noCommandStopsTheCore : Obligations.NoCommandStopsTheCore := by
  unfold Obligations.NoCommandStopsTheCore
  intro i s
  cases i with
  | isprime _ | rndcop _ _ | gencand _ _ | findpr _ | genkey _ _ _ => exact finishRun_total s _
  | _ => exact finish_total s _

/-- Settles O17: three of the four ways a command ends complete it, and none writes IE. -/
theorem sequencerCompletesOrStaysBusy : Obligations.SequencerCompletesOrStaysBusy := by
  unfold Obligations.SequencerCompletesOrStaysBusy
  intro i s t h
  obtain ⟨-, -, -, hie, -⟩ := exec_untouched h
  cases exec_answers h with
  | completed _ => exact .inl ⟨rfl, rfl, rfl, hie, hie⟩
  | failed e => exact .inl ⟨rfl, rfl, rfl, rfl, rfl⟩
  | aborted _ _ => exact .inl ⟨rfl, rfl, rfl, rfl, rfl⟩
  | waiting hp ha =>
    obtain ⟨habort, habort0⟩ := Bool.or_eq_false_iff.mp ha
    exact .inr ⟨hp, habort, habort0, rfl⟩

end Sys2Proof.Machine
end

section
/-! SUPPORT. The checks common to every command (spec/30_encoding.md R94), made before its own. -/

namespace Sys2Proof.Machine

variable {s : State} {i : Instr} {L : Level}

/-- The sources of a command, checked in field order (R94 check 3). -/
def State.needSources (s : State) (L : Level) : List RegNum → Except Err Unit
  | [] => .ok ()
  | r :: rs => do
    let _ ← s.source L r
    s.needSources L rs

/-- The checks of R94 after decoding, for every command but SETLVL. -/
def commonChecks (i : Instr) (s : State) : Except Err Unit := do
  distinct i.dests
  let L ← s.needLevel
  s.needSources L i.srcs

/-! ### The checks by themselves -/

theorem commonChecks_of_illegal (h : ¬ i.WellFormed) : commonChecks i s = .error .illegal := by
  simp only [commonChecks, distinct, require_neg _ h, error_bind]

theorem commonChecks_of_no_level (hw : i.WellFormed) (hl : s.level = none) : commonChecks i s = .error .config := by
  have hneed : s.needLevel = .error .config := (needLevel_eq_error s .config).mpr ⟨hl, rfl⟩
  simp only [commonChecks, distinct, require_pos _ hw, ok_bind, hneed, error_bind]

/-- One source that is not valid is enough. -/
theorem needSources_of_invalid {r : RegNum} (hv : (s.reg r).valid = false) {rs : List RegNum} (hr : r ∈ rs) :
    s.needSources L rs = .error .uninit := by
  induction rs with
  | nil => cases hr
  | cons q rs ih =>
    rw [State.needSources, bind_eq_error]
    by_cases hq : (s.reg q).valid = true
    · have hmem : r ∈ rs := (List.mem_cons.mp hr).resolve_left fun h => by simp [h, hq] at hv
      exact .inr ⟨_, source_of L hq, ih hmem⟩
    · exact .inl ((source_eq_error s L q .uninit).mpr ⟨eq_false_of_ne_true hq, rfl⟩)

theorem commonChecks_of_invalid {r : RegNum} (hw : i.WellFormed) (hl : s.level = some L) (hr : r ∈ i.srcs)
    (hv : (s.reg r).valid = false) : commonChecks i s = .error .uninit := by
  simp only [commonChecks, distinct, require_pos _ hw, ok_bind, needLevel_of hl, needSources_of_invalid hv hr]

/-! ### Every command begins with them -/

/-- The outcome fails wherever the checks do, and with their error. -/
def Guards {α : Type} (checks : Except Err Unit) (o : Except Err α) : Prop := ∀ e, checks = .error e → o = .error e

theorem Guards.nil {α : Type} {o : Except Err α} : Guards (.ok ()) o := fun _ h => nomatch h

/-- A check that both begin with. -/
theorem Guards.check {α β : Type} {c : Except Err β} {f : β → Except Err Unit} {g : β → Except Err α}
    (h : ∀ b, Guards (f b) (g b)) : Guards (c >>= f) (c >>= g) := by
  cases c with
  | ok b => exact h b
  | error e => exact fun _ he => Except.error.inj he ▸ rfl

/-- The destination check of a command with at most one destination has nothing to compare. -/
theorem Guards.distinct {α : Type} {dests : List RegNum} {f : Unit → Except Err Unit} {o : Except Err α}
    (h : Guards (f ()) o) (hd : dests.Nodup := by simp [Instr.dests]) : Guards (distinct dests >>= f) o := by
  rwa [Machine.distinct, require_pos _ hd, ok_bind]

theorem finish_of_guards {checks : Except Err Unit} {o : Except Err State} {e : Err} (hg : Guards checks o)
    (h : checks = .error e) : finish s o = .next (s.raise e) := by
  rw [hg e h, finish_error]

theorem finishRun_of_guards {checks : Except Err Unit} {o : Except Err (Run State)} {e : Err} (hg : Guards checks o)
    (h : checks = .error e) : finishRun s o = .next (s.raise e) := by
  rw [hg e h, finishRun_error]

/-- The first common check that fails decides the outcome (R94), by the number of sources of the command. -/
theorem exec_of_commonChecks {e : Err} (hi : ¬ IsSetlvl i) (h : commonChecks i s = .error e) :
    exec i s = .next (s.raise e) := by
  cases i with
  | setlvl imm16 => exact absurd ⟨imm16, rfl⟩ hi
  | ldi _ | norm _ | importTop _ => exact finish_of_guards (.distinct (.check fun _ => .nil)) h
  | rstbuf _ _ | setpad _ | neg _ _ | shl1 _ _ | shr1 _ _ | shl _ _ _ | shr _ _ _ | isodd _ | abs _ _ | isneg _
  | monfac _ _ =>
    exact finish_of_guards (.distinct (.check fun _ => .check fun _ => .nil)) h
  | add _ _ _ | sub _ _ _ | mul _ _ _ | cmp _ _ | mrwit _ _ | modinv _ _ _ =>
    exact finish_of_guards (.distinct (.check fun _ => .check fun _ => .check fun _ => .nil)) h
  | monpro _ _ _ _ | monmul _ _ _ _ | monexp _ _ _ _ | encode _ _ _ _ | decode _ _ _ _ =>
    exact finish_of_guards
      (.distinct (.check fun _ => .check fun _ => .check fun _ => .check fun _ => .nil)) h
  | div _ _ _ _ | egcd _ _ _ _ _ =>
    exact finish_of_guards (.check fun _ => .check fun _ => .check fun _ => .check fun _ => .nil) h
  | isprime _ | rndcop _ _ =>
    exact finishRun_of_guards (.distinct (.check fun _ => .check fun _ => .nil)) h
  | findpr _ => exact finishRun_of_guards (.distinct (.check fun _ => .nil)) h
  | gencand _ _ | genkey _ _ _ => exact finishRun_of_guards (.check fun _ => .check fun _ => .nil) h

theorem not_isSetlvl_of_not_wellFormed (h : ¬ i.WellFormed) : ¬ IsSetlvl i := by
  rintro ⟨imm16, rfl⟩
  exact h List.nodup_nil

theorem not_isSetlvl_of_mem_srcs {r : RegNum} (h : r ∈ i.srcs) : ¬ IsSetlvl i := by
  rintro ⟨imm16, rfl⟩
  cases h

/-- Settles O19: the decoder first, then the common checks, each with the ones before it passed. -/
theorem commonChecksInOrder : Obligations.CommonChecksInOrder := by
  unfold Obligations.CommonChecksInOrder
  intro i s
  refine ⟨fun e hb hd => runSequencer_of_illegal hb hd, fun hw => ?_, fun hw hi hl => ?_, fun L r hw hl hr hv => ?_⟩
  · exact exec_of_commonChecks (not_isSetlvl_of_not_wellFormed hw) (commonChecks_of_illegal hw)
  · exact exec_of_commonChecks hi (commonChecks_of_no_level hw hl)
  · exact exec_of_commonChecks (not_isSetlvl_of_mem_srcs hr) (commonChecks_of_invalid hw hl hr hv)

end Sys2Proof.Machine
end

section
/-! SUPPORT. Configuration and data movement (spec/40_config_data.md): SETLVL, LDI, NORM, RSTBUF and SETPAD. IMPORT
stands with the commands above. -/

namespace Sys2Proof.Machine

variable {s : State} {L : Level}

/-! ### SETLVL -/

/-- SETLVL by the level its immediate names (R110). -/
theorem exec_setlvl {imm16 : BitVec 16} (h : imm16.toNat = L.bits) : exec (.setlvl imm16) s =
    .next { s.invalidateAll with level := some L, xpadValid := false, mcValid := false }.complete := by
  simp [exec, execSetlvl, (levelOfBits_eq_some L imm16.toNat).mpr h]

theorem exec_setlvl_of_illegal {imm16 : BitVec 16} (h : ∀ L : Level, imm16.toNat ≠ L.bits) :
    exec (.setlvl imm16) s = .next (s.raise .config) := by
  simp [exec, execSetlvl, (levelOfBits_eq_none imm16.toNat).mpr h]

/-- Settles O25: the level by its immediate, and the tags by `invalidateAll`. -/
theorem setlvlSetsTheLevel : Obligations.SetlvlSetsTheLevel := by
  unfold Obligations.SetlvlSetsTheLevel
  intro s imm16
  exact ⟨fun L h => ⟨_, exec_setlvl h, State.reg_invalidateAll s, rfl⟩, exec_setlvl_of_illegal⟩

/-! ### LDI and RSTBUF -/

theorem exec_ldi (rd : RegNum) (hl : s.level = some L) :
    exec (.ldi rd) s = .next (s.writeReg L rd s.arg.toNat).complete := by
  simp [exec, execLdi, needLevel_of hl]

theorem exec_rstbuf (rd : RegNum) {rs : RegNum} (hl : s.level = some L) (hv : (s.reg rs).valid = true) :
    exec (.rstbuf rd rs) s = .next (s.writeReg L rd ((s.reg rs).val L % L.settled)).complete := by
  simp [exec, execRstbuf, needLevel_of hl, source_of L hv]

/-- Settles O26: each writes its value through `writeReg`. -/
theorem ldiAndRstbufResults : Obligations.LdiAndRstbufResults := by
  unfold Obligations.LdiAndRstbufResults
  intro s L rd rs hl
  exact ⟨exec_ldi rd hl, exec_rstbuf rd hl⟩

/-! ### NORM -/

/-- NORM's check (R112), read as its rule gives it: every word above the buffer word is zero. -/
theorem BigReg.topIndex_le_words_iff (x : BigReg) (L : Level) :
    topIndex x.w.toList ≤ L.words ↔ ∀ i : Fin 17, L.words < i.val → x.word i = 0 := by
  constructor
  · intro hle i hi
    exact topIndex_above x.w.toList i.val (by simp) (Nat.lt_of_le_of_lt hle hi)
  · intro hzero
    by_contra hgt
    obtain ⟨hlt, hword⟩ := topIndex_word x.w.toList (Nat.ne_zero_of_lt (Nat.lt_of_not_le hgt))
    exact hword (hzero ⟨_, by simpa using hlt⟩ (Nat.lt_of_not_le hgt))

/-- What NORM makes of a register it accepts: its words, with their top index. -/
def BigReg.normalized (x : BigReg) : BigReg :=
  { x with top := BitVec.ofNat 64 (topIndex x.w.toList), valid := true }

theorem exec_norm (rd : RegNum) (hl : s.level = some L) : exec (.norm rd) s =
    if topIndex (s.reg rd).w.toList ≤ L.words then .next (s.setReg rd (s.reg rd).normalized).complete
    else .next (s.raise .format) := by
  simp only [exec, execNorm, needLevel_of hl, ok_bind]
  split
  · next hle => rw [require_pos _ hle]; rfl
  · next hgt => rw [require_neg _ hgt]; rfl

/-- Settles O27: NORM's check is the statement's condition, and the computed top makes the words canonical. -/
theorem normComputesTheTopIndex : Obligations.NormComputesTheTopIndex := by
  unfold Obligations.NormComputesTheTopIndex
  intro s L rd hl
  have hcheck := (s.reg rd).topIndex_le_words_iff L
  constructor
  · intro hzero
    have hle := hcheck.mpr hzero
    exact ⟨_, (exec_norm rd hl).trans (if_pos hle), rfl, rfl, BigReg.canonical_of_words L (s.reg rd).w true hle⟩
  · intro i hi hne
    exact (exec_norm rd hl).trans (if_neg fun hle => hne (hcheck.mp hle i hi))

/-! ### SETPAD -/

theorem exec_setpad {rs : RegNum} (hl : s.level = some L) (hv : (s.reg rs).valid = true) :
    exec (.setpad rs) s = if (s.reg rs).val L < L.settled then
      .next { s with xpad := BitVec.ofNat 1024 ((s.reg rs).val L), xpadValid := true }.complete
    else .next (s.raise .precond) := by
  simp only [exec, execSetpad, needLevel_of hl, source_of L hv, ok_bind, needSettled]
  split
  · next hlt => rw [require_pos _ hlt]; rfl
  · next hge => rw [require_neg _ hge]; rfl

/-- Settles O29: SETPAD's check by its two sides; a settled value fits the bits XPAD is held in. -/
theorem setpadLoadsThePad : Obligations.SetpadLoadsThePad := by
  unfold Obligations.SetpadLoadsThePad
  intro s L rs hl hv
  constructor
  · intro hlt
    exact ⟨_, toNat_ofNat_1024 hlt, (exec_setpad hl hv).trans (if_pos hlt)⟩
  · intro hge
    exact (exec_setpad hl hv).trans (if_neg (Nat.not_lt.mpr hge))

end Sys2Proof.Machine
end

section
/-! SUPPORT. NEG, SUB, SHR1, SHR and DIV (spec/41_bigint.md R132, R133, R136, R138, R139): the arithmetic commands that
leave OVF alone. -/

namespace Sys2Proof.Machine

variable {s : State} {L : Level}

/-! ### What each command writes -/

section sources

variable (rd : RegNum) {ra rb : RegNum} (hl : s.level = some L) (ha : (s.reg ra).valid = true)
include hl ha

theorem exec_neg : exec (.neg rd ra) s = .next (s.writeReg L rd (negMod L ((s.reg ra).val L))).complete := by
  simp [exec, execNeg, needLevel_of hl, source_of L ha]

theorem exec_shr1 : exec (.shr1 rd ra) s = .next (s.writeReg L rd ((s.reg ra).val L / 2)).complete := by
  simp [exec, execShr1, needLevel_of hl, source_of L ha]

theorem exec_shr (n : BitVec 16) :
    exec (.shr rd ra n) s = .next (s.writeReg L rd ((s.reg ra).val L / 2 ^ n.toNat)).complete := by
  simp [exec, execShr, needLevel_of hl, source_of L ha]

variable (hb : (s.reg rb).valid = true)
include hb

theorem exec_sub : exec (.sub rd ra rb) s =
    .next (s.writeReg L rd (((s.reg ra).val L + negMod L ((s.reg rb).val L)) % L.modulus % L.settled)).complete := by
  simp [exec, execSub, needLevel_of hl, source_of L ha, source_of L hb]

/-- DIV with two destinations, by its check of the divisor. -/
theorem exec_div {rq rr : RegNum} (hd : rq ≠ rr) : exec (.div rq rr ra rb) s =
    if (s.reg rb).val L ≠ 0 then
      .next ((s.writeReg L rq ((s.reg ra).val L / (s.reg rb).val L)).writeReg L rr
        ((s.reg ra).val L % (s.reg rb).val L)).complete
    else .next (s.raise .divzero) := by
  have hnodup : [rq, rr].Nodup := by simpa using hd
  simp only [exec, execDiv, distinct, require_pos _ hnodup, needLevel_of hl, source_of L ha, source_of L hb, ok_bind]
  split
  · next h0 => rw [require_pos _ h0]; rfl
  · next h0 => rw [require_neg _ h0]; rfl

end sources

/-- Adding the negation modulo V and dropping the buffer word is subtraction modulo 2^L (R133): 2^L divides V. -/
theorem add_negMod_mod_settled (L : Level) (a : Nat) {b : Nat} (hb : b ≤ L.modulus) :
    (((a + negMod L b) % L.modulus % L.settled : Nat) : Int) = ((a : Int) - b) % 2 ^ L.bits := by
  have hdvd : L.settled ∣ L.modulus := Dvd.intro_left _ rfl
  have hneg : (a + negMod L b) % L.modulus % L.settled = (a + (L.modulus - b)) % L.settled := by
    rw [negMod, Nat.add_mod_mod, Nat.mod_mod_of_dvd _ hdvd]
  have hsettled : (L.settled : Int) = 2 ^ L.bits := by simp [Level.settled]
  have hmodulus : (L.modulus : Int) = 2 ^ 64 * 2 ^ L.bits := by simp [Level.modulus, Level.settled]
  rw [hneg, Int.natCast_emod, Nat.cast_add, Nat.cast_sub hb, hsettled, hmodulus,
    show (a : Int) + (2 ^ 64 * 2 ^ L.bits - b) = a - b + 2 ^ 64 * 2 ^ L.bits by ring, Int.add_mul_emod_self_right]

/-! ### The statements -/

/-- Settles O32: the word SUB writes is the difference, as 2^L divides V. -/
theorem subResult : Obligations.SubResult := by
  unfold Obligations.SubResult
  intro s L rd ra rb hl ha hb
  exact ⟨_, add_negMod_mod_settled L _ ((s.reg rb).val_lt L).le, exec_sub rd hl ha hb⟩

/-- Settles O34: DIV's check of the divisor by its two sides; quotient and remainder are those of `Nat`. -/
theorem divResult : Obligations.DivResult := by
  unfold Obligations.DivResult
  intro s L rq rr ra rb hd hl ha hb
  have hexec := exec_div hl ha hb hd
  constructor
  · intro h0
    exact hexec.trans (if_neg (not_not.mpr h0))
  · intro h0
    exact ⟨_, _, (Nat.div_add_mod' ..).symm, Nat.mod_lt _ (Nat.pos_of_ne_zero h0), hexec.trans (if_pos h0)⟩

/-- Settles O31: NEG writes `negMod`, which is the stated number. -/
theorem negResult : Obligations.NegResult := by
  unfold Obligations.NegResult
  intro s L rd ra hl ha
  exact exec_neg rd hl ha

/-- Settles O33: each shift writes its quotient through `writeReg`. -/
theorem shiftRightResults : Obligations.ShiftRightResults := by
  unfold Obligations.ShiftRightResults
  intro s L rd ra n hl ha
  exact ⟨exec_shr1 rd hl ha, exec_shr rd hl ha n⟩

end Sys2Proof.Machine
end

section
/-! SUPPORT. The words of a number and the word-level datapath methods over them (spec/41_bigint.md R131, R132, R134,
R135, R139, R140). -/

namespace Sys2Proof.Machine

/-! ### The value of a list of words -/

theorem wordsValue_append (xs ys : List Word) :
    wordsValue (xs ++ ys) = wordsValue xs + 2 ^ (64 * xs.length) * wordsValue ys := by
  induction xs with
  | nil => simp [wordsValue]
  | cons x xs ih =>
    rw [List.cons_append, wordsValue, ih, wordsValue, List.length_cons, Nat.mul_succ, Nat.pow_add]
    ring

theorem wordsValue_of_zero {ws : List Word} (h : ∀ w ∈ ws, w = 0) : wordsValue ws = 0 := by
  induction ws with
  | nil => rfl
  | cons w ws ih =>
    obtain ⟨hw, hws⟩ := List.forall_mem_cons.mp h
    rw [wordsValue, ih hws, hw]
    rfl

/-- Zero words above the first `n` do not count. -/
theorem wordsValue_take_of_zero_above {ws : List Word} {n : Nat}
    (h : ∀ i (hi : i < ws.length), n ≤ i → ws[i] = 0) : wordsValue (ws.take n) = wordsValue ws := by
  have hdrop : wordsValue (ws.drop n) = 0 := wordsValue_of_zero fun w hw => by
    obtain ⟨i, hi, rfl⟩ := List.mem_drop_iff_getElem.mp hw
    exact h _ _ (Nat.le_add_right n i)
  conv_rhs => rw [← List.take_append_drop n ws, wordsValue_append, hdrop, Nat.mul_zero, Nat.add_zero]

theorem wordsValue_lt_of_zero_above {ws : List Word} {n : Nat}
    (h : ∀ i (hi : i < ws.length), n ≤ i → ws[i] = 0) : wordsValue ws < 2 ^ (64 * n) := by
  rw [← wordsValue_take_of_zero_above h]
  exact (wordsValue_lt _).trans_le
    (Nat.pow_le_pow_right two_pos (Nat.mul_le_mul_left 64 (List.length_take_le n ws)))

theorem le_wordsValue_of_ne_zero {ws : List Word} {i : Nat} (hi : i < ws.length) (hw : ws[i] ≠ 0) :
    2 ^ (64 * i) ≤ wordsValue ws := by
  have hpos : 0 < wordsValue (ws.drop i) := by
    have hword : 0 < ws[i].toNat := Nat.pos_of_ne_zero fun h => hw (BitVec.eq_of_toNat_eq h)
    rw [List.drop_eq_getElem_cons hi, wordsValue]
    exact Nat.add_pos_left hword _
  calc 2 ^ (64 * i) ≤ 2 ^ (64 * i) * wordsValue (ws.drop i) := Nat.le_mul_of_pos_right _ hpos
    _ ≤ wordsValue (ws.take i) + 2 ^ (64 * i) * wordsValue (ws.drop i) := Nat.le_add_left ..
    _ = wordsValue (ws.take i ++ ws.drop i) := by rw [wordsValue_append, List.length_take_of_le hi.le]
    _ = wordsValue ws := by rw [List.take_append_drop]

theorem wordsValue_map_not (xs : List Word) :
    wordsValue (xs.map (~~~ ·)) + wordsValue xs + 1 = 2 ^ (64 * xs.length) := by
  induction xs with
  | nil => rfl
  | cons x xs ih =>
    rw [List.map_cons, wordsValue, wordsValue, BitVec.toNat_not, List.length_cons, Nat.mul_succ, Nat.pow_add, ← ih]
    have := x.isLt
    omega

theorem wordsValue_map_zero (xs : List Word) : wordsValue (xs.map fun _ => (0 : Word)) = 0 :=
  wordsValue_of_zero fun _ hw => by
    obtain ⟨_, _, rfl⟩ := List.mem_map.mp hw
    rfl

/-! ### Canonical registers

A canonical register's value is that of all its 17 words, and its top index bounds the value on both sides. -/

namespace BigReg.Canonical

variable {L : Level} {x y : BigReg}

theorem val_eq (h : x.Canonical L) : x.val L = wordsValue x.w.toList :=
  wordsValue_take_of_zero_above fun i hi hle => h.1 ⟨i, by simpa using hi⟩ hle

theorem val_lt_of_top (h : x.Canonical L) : x.val L < 2 ^ (64 * (x.top.toNat + 1)) := by
  rw [h.val_eq]
  obtain ⟨_, habove, _⟩ := h
  exact wordsValue_lt_of_zero_above fun i hi hle => habove ⟨i, by simpa using hi⟩ hle

theorem le_val_of_top (h : x.Canonical L) (h0 : x.top ≠ 0) : 2 ^ (64 * x.top.toNat) ≤ x.val L := by
  rw [h.val_eq]
  obtain ⟨_, _, htop⟩ := h
  obtain ⟨i, hi, hword⟩ := htop.resolve_left h0
  rw [← hi]
  exact le_wordsValue_of_ne_zero (by simp) hword

/-- The top index decides first (R140). -/
theorem val_lt_val_of_top_lt (hx : x.Canonical L) (hy : y.Canonical L) (h : x.top.toNat < y.top.toNat) :
    x.val L < y.val L := by
  have hy0 : y.top ≠ 0 := fun h0 => by simp [h0] at h
  calc x.val L < 2 ^ (64 * (x.top.toNat + 1)) := hx.val_lt_of_top
    _ ≤ 2 ^ (64 * y.top.toNat) := Nat.pow_le_pow_right two_pos (Nat.mul_le_mul_left 64 h)
    _ ≤ y.val L := hy.le_val_of_top hy0

end BigReg.Canonical

namespace Datapath

/-! ### Ripple carry, invert and add one, the word shift -/

/-- The head words give the low sum word and the carry into the rest. -/
theorem rippleAdd_cons (x y : Word) (xs ys : List Word) (carry : Nat) :
    rippleAdd (x :: xs) (y :: ys) carry =
      (BitVec.ofNat 64 (x.toNat + y.toNat + carry) :: (rippleAdd xs ys ((x.toNat + y.toNat + carry) / 2 ^ 64)).1,
        (rippleAdd xs ys ((x.toNat + y.toNat + carry) / 2 ^ 64)).2) := rfl

theorem rippleAdd_length (xs : List Word) : ∀ (ys : List Word) (carry : Nat), xs.length = ys.length →
    (rippleAdd xs ys carry).1.length = xs.length := by
  induction xs with
  | nil => intro ys carry _; cases ys <;> rfl
  | cons x xs ih =>
    rintro (_ | ⟨y, ys⟩) carry h
    · cases h
    · rw [rippleAdd_cons, List.length_cons, List.length_cons, ih ys _ (Nat.succ.inj h)]

/-- The sum words and the carry out together are the exact sum. -/
theorem rippleAdd_value (xs : List Word) : ∀ (ys : List Word) (carry : Nat), xs.length = ys.length →
    wordsValue (rippleAdd xs ys carry).1 + 2 ^ (64 * xs.length) * (rippleAdd xs ys carry).2 =
      wordsValue xs + wordsValue ys + carry := by
  induction xs with
  | nil =>
    rintro (_ | ⟨y, ys⟩) carry h
    · simp [rippleAdd, wordsValue]
    · cases h
  | cons x xs ih =>
    rintro (_ | ⟨y, ys⟩) carry h
    · cases h
    · have hrest := ih ys ((x.toNat + y.toNat + carry) / 2 ^ 64) (Nat.succ.inj h)
      simp only [rippleAdd_cons, wordsValue, BitVec.toNat_ofNat]
      rw [List.length_cons, Nat.mul_succ, Nat.add_comm (64 * _), Nat.pow_add, Nat.mul_assoc]
      omega

theorem negate_value (xs : List Word) :
    wordsValue (negate xs) = (2 ^ (64 * xs.length) - wordsValue xs) % 2 ^ (64 * xs.length) := by
  have hsum := rippleAdd_value (xs.map (~~~ ·)) (xs.map fun _ => 0) 1 (by simp)
  have hlt := wordsValue_lt (negate xs)
  rw [negate, rippleAdd_length _ _ _ (by simp), List.length_map] at hlt
  rw [List.length_map, wordsValue_map_zero, Nat.add_zero] at hsum
  have hneg : 2 ^ (64 * xs.length) - wordsValue xs = wordsValue (xs.map (~~~ ·)) + 1 := by
    have := wordsValue_map_not xs
    omega
  rw [hneg, ← hsum, Nat.add_mul_mod_self_left, Nat.mod_eq_of_lt hlt, negate]

/-- The word shift doubles, taking the carry in and dropping the carry out. -/
theorem shiftLeftOnce_value (xs : List Word) : ∀ carry < 2,
    wordsValue (shiftLeftOnce xs carry) = (2 * wordsValue xs + carry) % 2 ^ (64 * xs.length) := by
  induction xs with
  | nil => intro carry _; simp [shiftLeftOnce, wordsValue, Nat.mod_one]
  | cons x xs ih =>
    intro carry hc
    have hx := x.isLt
    rw [shiftLeftOnce, wordsValue, wordsValue, ih _ (by omega), BitVec.toNat_ofNat, List.length_cons, Nat.mul_succ,
      Nat.add_comm (64 * _), Nat.pow_add, Nat.mod_mul]
    congr 1
    · omega
    · congr 2
      omega

/-! ### Shift-and-add multiplication -/

/-- The accumulator and the product of what is left of the factors. -/
theorem shiftAdd_eq (m : Nat) : ∀ (k a b acc : Nat), b < 2 ^ k → shiftAdd m k a b acc = (acc + a * b) % m := by
  intro k
  induction k with
  | zero =>
    intro a b acc hb
    rw [shiftAdd, Nat.lt_one_iff.mp hb, Nat.mul_zero, Nat.add_zero]
  | succ k ih =>
    intro a b acc hb
    rw [shiftAdd, ih _ _ _ (by omega)]
    congr 1
    have hsplit : a * b = 2 * a * (b / 2) + a * (b % 2) := by
      conv_lhs => rw [← Nat.div_add_mod b 2]
      ring
    rcases Nat.mod_two_eq_zero_or_one b with h | h
    · rw [if_neg (by omega), hsplit, h, Nat.mul_zero, Nat.add_zero]
    · rw [if_pos h, hsplit, h]
      ring

/-! ### Restoring division -/

/-- Quotient and remainder after one more dividend bit `t`: one trial subtraction. -/
theorem div_mod_succ_bit {b : Nat} (hb : 0 < b) (p t : Nat) (ht : t < 2) :
    ((2 * p + t) / b, (2 * p + t) % b) =
      if b ≤ 2 * (p % b) + t then (2 * (p / b) + 1, 2 * (p % b) + t - b) else (2 * (p / b), 2 * (p % b) + t) := by
  have hp : b * (p / b) + p % b = p := Nat.div_add_mod p b
  have hr : p % b < b := Nat.mod_lt p hb
  split
  · next hle =>
    have hq : b * (2 * (p / b) + 1) = 2 * (b * (p / b)) + b := by ring
    rw [Prod.mk.injEq, Nat.div_mod_unique hb]
    omega
  · next hlt =>
    have hq : b * (2 * (p / b)) = 2 * (b * (p / b)) := by ring
    rw [Prod.mk.injEq, Nat.div_mod_unique hb]
    omega

theorem restoringDivide_succ (a b k q r : Nat) : restoringDivide a b (k + 1) q r =
    if b ≤ 2 * r + (a.testBit k).toNat then restoringDivide a b k (2 * q + 1) (2 * r + (a.testBit k).toNat - b)
    else restoringDivide a b k (2 * q) (2 * r + (a.testBit k).toNat) := rfl

/-- The running pair divides the dividend's bits taken so far. -/
theorem restoringDivide_of_high_bits (a : Nat) {b : Nat} (hb : 0 < b) :
    ∀ k, restoringDivide a b k (a / 2 ^ k / b) (a / 2 ^ k % b) = (a / b, a % b) := by
  intro k
  induction k with
  | zero => rw [restoringDivide, Nat.pow_zero, Nat.div_one]
  | succ k ih =>
    have hbits : a / 2 ^ k = 2 * (a / 2 ^ (k + 1)) + (a.testBit k).toNat := by
      rw [Nat.toNat_testBit, Nat.pow_succ, ← Nat.div_div_eq_div_mul, Nat.div_add_mod]
    have hstep := div_mod_succ_bit hb (a / 2 ^ (k + 1)) _ (Bool.toNat_lt (a.testBit k))
    rw [← hbits] at hstep
    rw [restoringDivide_succ, ← ih]
    split
    · next hle =>
      rw [if_pos hle] at hstep
      obtain ⟨hq, hr⟩ := Prod.mk.inj hstep
      rw [hq, hr]
    · next hlt =>
      rw [if_neg hlt] at hstep
      obtain ⟨hq, hr⟩ := Prod.mk.inj hstep
      rw [hq, hr]

/-! ### Comparison -/

/-- The high digits decide a comparison; equal ones leave it to the low parts. -/
theorem compare_add_mul {lo lo' B : Nat} (hlo : lo < B) (hlo' : lo' < B) (hi hi' : Nat) :
    compare (lo + B * hi) (lo' + B * hi') = if hi = hi' then compare lo lo' else compare hi hi' := by
  split
  · next heq => simp [heq, Nat.compare_eq_ite_lt]
  · next hne =>
    rcases Nat.lt_or_gt_of_ne hne with h | h
    · have hmul : B * hi + B ≤ B * hi' := Nat.mul_le_mul_left B h
      rw [Nat.compare_eq_lt.mpr h, Nat.compare_eq_lt.mpr (by omega)]
    · have hmul : B * hi' + B ≤ B * hi := Nat.mul_le_mul_left B h
      rw [Nat.compare_eq_gt.mpr h, Nat.compare_eq_gt.mpr (by omega)]

theorem wordsValue_reverse_cons (x : Word) (xs : List Word) :
    wordsValue (x :: xs).reverse = wordsValue xs.reverse + 2 ^ (64 * xs.length) * x.toNat := by
  rw [List.reverse_cons, wordsValue_append, List.length_reverse, wordsValue, wordsValue, Nat.mul_zero, Nat.add_zero]

theorem wordsValue_reverse_lt (xs : List Word) : wordsValue xs.reverse < 2 ^ (64 * xs.length) := by
  simpa using wordsValue_lt xs.reverse

/-- Words given most significant first compare as their numbers. -/
theorem compareWords_eq (xs : List Word) : ∀ ys : List Word, xs.length = ys.length →
    compareWords xs ys = compare (wordsValue xs.reverse) (wordsValue ys.reverse) := by
  induction xs with
  | nil =>
    intro ys h
    rw [List.length_eq_zero_iff.mp h.symm]
    rfl
  | cons x xs ih =>
    rintro (_ | ⟨y, ys⟩) h
    · cases h
    · have hlen : xs.length = ys.length := Nat.succ.inj h
      have hlt := wordsValue_reverse_lt ys
      rw [← hlen] at hlt
      rw [compareWords, wordsValue_reverse_cons, wordsValue_reverse_cons, ← hlen,
        compare_add_mul (wordsValue_reverse_lt xs) hlt, ih ys hlen]
      simp only [BitVec.toNat_inj]

/-- Comparing canonical registers by top index and then words compares their values. -/
theorem compareRegs_eq {L : Level} {x y : BigReg} (hx : x.Canonical L) (hy : y.Canonical L) :
    compareRegs x y = compare (x.val L) (y.val L) := by
  unfold compareRegs
  split
  · rw [compareWords_eq _ _ (by simp), List.reverse_reverse, List.reverse_reverse, hx.val_eq, hy.val_eq]
  · next hne =>
    rcases Nat.lt_or_gt_of_ne fun h => hne (BitVec.eq_of_toNat_eq h) with h | h
    · rw [Nat.compare_eq_lt.mpr h, Nat.compare_eq_lt.mpr (hx.val_lt_val_of_top_lt hy h)]
    · rw [Nat.compare_eq_gt.mpr h, Nat.compare_eq_gt.mpr (hy.val_lt_val_of_top_lt hx h)]

end Datapath

/-- Settles O57: each method by its own lemma. -/
theorem wordDatapathRefinesTheResults : Obligations.WordDatapathRefinesTheResults := by
  unfold Obligations.WordDatapathRefinesTheResults
  refine ⟨fun xs ys h => ⟨?_, Datapath.negate_value xs, ?_⟩, fun m a b k hb => ?_, fun a b k hb ha => ?_,
    fun L x y => Datapath.compareRegs_eq⟩
  · exact Datapath.rippleAdd_value xs ys 0 h
  · exact Datapath.shiftLeftOnce_value xs 0 two_pos
  · rw [Datapath.shiftAdd_eq m k a b 0 hb, Nat.zero_add]
  · have h := Datapath.restoringDivide_of_high_bits a hb k
    rwa [Nat.div_eq_of_lt ha, Nat.zero_div, Nat.zero_mod] at h

end Sys2Proof.Machine
end

section
/-! SUPPORT. MONPRO, MONMUL and MONEXP (spec/42_montgomery.md R160, R162 to R164). -/

namespace Sys2Proof.Machine

/-! ### Checks that end with the same error -/

/-- Two checks with one error in a row are the check of both. -/
theorem require_bind_require {α : Type} (p q : Prop) [Decidable p] [Decidable q] (e : Err)
    (f : Unit → Except Err α) : (require p e >>= fun _ => require q e >>= f) = require (p ∧ q) e >>= f := by
  by_cases hp : p
  · rw [require_pos e hp, ok_bind]
    simp only [hp, true_and]
  · rw [require_neg e hp, require_neg e (mt And.left hp)]
    rfl

/-- A completion step after one check. -/
theorem finish_require (s t : State) (p : Prop) [Decidable p] (e : Err) :
    finish s (require p e >>= fun _ => pure t) = if p then .next t.complete else .next (s.raise e) := by
  split
  · next hp => rw [require_pos e hp]; rfl
  · next hp => rw [require_neg e hp]; rfl

/-! ### What each command writes -/

section sources

variable {s : State} {L : Level} (rd : RegNum) {ra rb rn : RegNum} {a b n : Nat} (hl : s.level = some L)
  (ha : s.source L ra = .ok a) (hb : s.source L rb = .ok b) (hn : s.source L rn = .ok n)
include hl ha hb hn

theorem exec_monpro : exec (.monpro rd ra rb rn) s =
    if ModOK L n ∧ a < n ∧ b < n then .next (s.writeReg L rd (monPro L a b n)).complete
    else .next (s.raise .precond) := by
  simp only [exec, execMonpro, needLevel_of hl, ha, hb, hn, ok_bind, needModulus, needReduced, require_bind_require,
    finish_require]

theorem exec_monmul : exec (.monmul rd ra rb rn) s =
    if ModOK L n ∧ a < n ∧ b < n then .next ((s.withContext L n).writeReg L rd (a * b % n)).complete
    else .next (s.raise .precond) := by
  simp only [exec, execMonmul, needLevel_of hl, ha, hb, hn, ok_bind, needModulus, needReduced, require_bind_require,
    finish_require]

theorem exec_monexp : exec (.monexp rd ra rb rn) s =
    if ModOK L n ∧ a < n ∧ b < L.settled then .next ((s.withContext L n).writeReg L rd (powMod a b n)).complete
    else .next (s.raise .precond) := by
  simp only [exec, execMonexp, needLevel_of hl, ha, hb, hn, ok_bind, needModulus, needReduced, needSettled,
    require_bind_require, finish_require]

end sources

/-! ### The statements -/

/-- Settles O38: `monPro` is the one number below n with the stated congruence. -/
theorem monproResult : Obligations.MonproResult := by
  unfold Obligations.MonproResult
  intro s L rd ra rb rn a b n hl hva ha hvb hb hvn hn
  have hexec := exec_monpro rd hl ((source_eq_ok s L ra a).mpr ⟨hva, ha⟩) ((source_eq_ok s L rb b).mpr ⟨hvb, hb⟩)
    ((source_eq_ok s L rn n).mpr ⟨hvn, hn⟩)
  simp only [and_assoc, Level.settled] at hexec
  constructor
  · intro hok
    have ⟨_, hodd, h3, _, _⟩ := hok
    obtain ⟨hlt, hmod⟩ := monPro_spec L a b hodd h3
    exact ⟨monPro L a b n, hlt, hmod, fun q => monPro_unique L a b hodd h3, hexec.trans (if_pos hok)⟩
  · intro hok
    exact hexec.trans (if_neg hok)

/-- Settles O39: the checks by their two sides, `powMod` as the power, and the context after `Factor(n)`. -/
theorem monmulAndMonexpResults : Obligations.MonmulAndMonexpResults := by
  unfold Obligations.MonmulAndMonexpResults
  intro s L rd ra rb rn a b n hl hva ha hvb hb hvn hn
  have hsa := (source_eq_ok s L ra a).mpr ⟨hva, ha⟩
  have hsb := (source_eq_ok s L rb b).mpr ⟨hvb, hb⟩
  have hsn := (source_eq_ok s L rn n).mpr ⟨hvn, hn⟩
  have hmul := exec_monmul rd hl hsa hsb hsn
  have hexp := exec_monexp rd hl hsa hsb hsn
  refine ⟨fun hok => hmul.trans (if_pos hok), fun hok => hmul.trans (if_neg hok), fun hok => ?_,
    fun hok => hexp.trans (if_neg hok), fun hok => s.withContext_spec L n hok.1⟩
  rw [hexp.trans (if_pos hok), powMod_eq a b n (Nat.zero_lt_of_lt hok.2.1)]

end Sys2Proof.Machine
end

section
/-! SUPPORT. The datapath methods of the Montgomery engine (spec/42_montgomery.md R161, R163 to R165). -/

namespace Sys2Proof.Machine

/-! ### Residue form -/

/-- `x` in residue form: x·R mod n (spec/42_montgomery.md R162). -/
def residueForm (L : Level) (n x : Nat) : Nat := x * Config.radix L % n

section residue

variable (L : Level) {n : Nat} (hodd : n % 2 = 1) (h3 : 3 ≤ n)
include hodd h3

/-- `residueForm L n x` is the Montgomery product of `a` and `b` when x·R² ≡ a·b. -/
theorem monPro_eq_residueForm {a b x : Nat} (h : x * Config.radix L * Config.radix L ≡ a * b [MOD n]) :
    monPro L a b n = residueForm L n x :=
  (monPro_unique L a b hodd h3 (Nat.mod_lt _ (by omega)) (((Nat.mod_modEq _ n).mul_right _).trans h)).symm

/-- The product with the factor takes a number into residue form. -/
theorem monPro_montFactor (x : Nat) : monPro L x (montFactor L n) n = residueForm L n x := by
  have hfactor : 2 ^ Config.kfac L = Config.radix L * Config.radix L := by
    rw [Config.kfac, Config.radix, ← pow_add, two_mul]
  refine monPro_eq_residueForm L hodd h3 ?_
  rw [mul_assoc, ← hfactor]
  exact (Nat.mod_modEq _ n).symm.mul_left x

/-- The Montgomery product multiplies in residue form. -/
theorem monPro_residueForm (x y : Nat) :
    monPro L (residueForm L n x) (residueForm L n y) n = residueForm L n (x * y) := by
  refine monPro_eq_residueForm L hodd h3 ?_
  calc x * y * Config.radix L * Config.radix L = x * Config.radix L * (y * Config.radix L) := by ring
    _ ≡ residueForm L n x * residueForm L n y [MOD n] := ((Nat.mod_modEq _ n).mul (Nat.mod_modEq _ n)).symm

/-- The product with 1 takes a number out of residue form. -/
theorem monPro_one_residueForm (x : Nat) : monPro L 1 (residueForm L n x) n = x % n := by
  refine (monPro_unique L _ _ hodd h3 (Nat.mod_lt _ (by omega)) ?_).symm
  calc x % n * Config.radix L ≡ x * Config.radix L [MOD n] := (Nat.mod_modEq _ n).mul_right _
    _ ≡ 1 * residueForm L n x [MOD n] := by rw [one_mul]; exact (Nat.mod_modEq _ n).symm

end residue

namespace Datapath

/-! ### Four products, and the walk over the exponent -/

section residue

variable (L : Level) {n : Nat} (hodd : n % 2 = 1) (h3 : 3 ≤ n)
include hodd h3

theorem monMul_eq (a b : Nat) : monMul L a b n = a * b % n := by
  simp only [monMul, monPro_montFactor L hodd h3, monPro_residueForm L hodd h3, monPro_one_residueForm L hodd h3]

/-- What is left of the exponent goes into the accumulator. -/
theorem monExpLoop_residueForm (k : Nat) : ∀ e x y : Nat, e < 2 ^ k →
    monExpLoop L n k e (residueForm L n x) (residueForm L n y) = residueForm L n (y * x ^ e) := by
  induction k with
  | zero =>
    intro e x y he
    rw [monExpLoop, Nat.lt_one_iff.mp he, pow_zero, mul_one]
  | succ k ih =>
    intro e x y he
    have hhalf : e / 2 < 2 ^ k := by omega
    have hpow : x ^ e = (x * x) ^ (e / 2) * x ^ (e % 2) := by
      rw [← pow_two, ← pow_mul, ← pow_add, Nat.div_add_mod]
    rw [monExpLoop, monPro_residueForm L hodd h3, hpow]
    rcases Nat.mod_two_eq_zero_or_one e with h | h
    · rw [if_neg (by omega), ih _ _ _ hhalf, h, pow_zero, mul_one]
    · rw [if_pos h, monPro_residueForm L hodd h3, ih _ _ _ hhalf, h, pow_one, mul_assoc, mul_comm x]

theorem monExp_eq (g e : Nat) : monExp L g e n = g ^ e % n := by
  simp only [monExp, monPro_montFactor L hodd h3,
    monExpLoop_residueForm L hodd h3 _ _ _ _ (lt_two_pow_bitlen e), monPro_one_residueForm L hodd h3, one_mul]

end residue

/-! ### Doubling and subtracting -/

/-- One conditional subtraction reduces a number below 2n. -/
theorem ite_sub_eq_mod {m n : Nat} (h : m < 2 * n) : (if m < n then m else m - n) = m % n := by
  split
  · next hlt => exact (Nat.mod_eq_of_lt hlt).symm
  · next hle => rw [Nat.mod_eq_sub_mod (Nat.le_of_not_lt hle), Nat.mod_eq_of_lt (by omega)]

theorem factorLoop_eq (n k : Nat) : ∀ f : Nat, f < n → factorLoop n k f = f * 2 ^ k % n := by
  induction k with
  | zero =>
    intro f hf
    rw [factorLoop, pow_zero, mul_one, Nat.mod_eq_of_lt hf]
  | succ k ih =>
    intro f hf
    rw [factorLoop, ite_sub_eq_mod (by omega), ih _ (Nat.mod_lt _ (by omega)), Nat.mod_mul_mod, pow_succ']
    congr 1
    ring

/-! ### The bit-serial product -/

section loop

variable {a b n : Nat}

/-- An iteration halves exactly: the accumulator is made even by the odd modulus. -/
theorem two_mul_monProStep (hodd : n % 2 = 1) (acc i : Nat) :
    2 * monProStep a b n acc i = acc + a * (b.testBit i).toNat + n * ((acc + a * (b.testBit i).toNat) % 2) := by
  have hadd : (if b.testBit i then acc + a else acc) = acc + a * (b.testBit i).toNat := by
    cases b.testBit i <;> simp
  simp only [monProStep, hadd]
  generalize acc + a * (b.testBit i).toNat = m
  rcases Nat.mod_two_eq_zero_or_one m with h | h
  · rw [if_neg (by omega), h]
    omega
  · rw [if_pos h, h]
    omega

/-- An iteration adds a·b[i] and halves, modulo n. -/
theorem two_mul_monProStep_modEq (hodd : n % 2 = 1) (acc i : Nat) :
    2 * monProStep a b n acc i ≡ acc + a * (b.testBit i).toNat [MOD n] := by
  rw [two_mul_monProStep hodd]
  exact Nat.add_mul_mod_self_left _ _ _

/-- The accumulator stays below 2n. -/
theorem monProStep_lt (hodd : n % 2 = 1) (ha : a < n) {acc : Nat} (hacc : acc < 2 * n) (i : Nat) :
    monProStep a b n acc i < 2 * n := by
  have hstep := two_mul_monProStep (a := a) (b := b) hodd acc i
  have hbit : a * (b.testBit i).toNat ≤ a := mul_le_of_le_one_right' (Bool.toNat_le _)
  have hparity : n * ((acc + a * (b.testBit i).toNat) % 2) ≤ n :=
    mul_le_of_le_one_right' (Nat.le_of_lt_succ (Nat.mod_lt _ two_pos))
  omega

/-- The invariant of R165 after `k` iterations: acc·2^k ≡ a·(b mod 2^k) (mod n) and acc < 2n. -/
theorem monProStep_foldl (hodd : n % 2 = 1) (ha : a < n) (k : Nat) :
    (List.range k).foldl (monProStep a b n) 0 * 2 ^ k ≡ a * (b % 2 ^ k) [MOD n] ∧
      (List.range k).foldl (monProStep a b n) 0 < 2 * n := by
  induction k with
  | zero =>
    rw [List.range_zero, List.foldl_nil, pow_zero, Nat.mod_one, mul_zero, zero_mul]
    exact ⟨.refl 0, by omega⟩
  | succ k ih =>
    rw [List.range_succ, List.foldl_concat]
    obtain ⟨hmod, hlt⟩ := ih
    generalize (List.range k).foldl (monProStep a b n) 0 = acc at hmod hlt ⊢
    refine ⟨?_, monProStep_lt hodd ha hlt k⟩
    calc monProStep a b n acc k * 2 ^ (k + 1) = 2 * monProStep a b n acc k * 2 ^ k := by ring
      _ ≡ (acc + a * (b.testBit k).toNat) * 2 ^ k [MOD n] := (two_mul_monProStep_modEq hodd acc k).mul_right _
      _ = acc * 2 ^ k + a * (2 ^ k * (b.testBit k).toNat) := by ring
      _ ≡ a * (b % 2 ^ k) + a * (2 ^ k * (b.testBit k).toNat) [MOD n] := hmod.add_right _
      _ = a * (b % 2 ^ (k + 1)) := by rw [Nat.mod_pow_succ, Nat.toNat_testBit, mul_add]

/-- The loop and its last subtraction compute the Montgomery product. -/
theorem monProLoop_eq {L : Level} (hn : ModOK L n) (ha : a < n) (hb : b < n) :
    monProLoop L a b n = monPro L a b n := by
  obtain ⟨hsettled, hodd, h3⟩ := hn
  obtain ⟨hmod, hlt⟩ := monProStep_foldl (b := b) hodd ha (L.bits + Config.guardBits)
  have hbits : b < 2 ^ (L.bits + Config.guardBits) :=
    (hb.trans hsettled).trans_le (Nat.pow_le_pow_right two_pos (Nat.le_add_right _ _))
  rw [Nat.mod_eq_of_lt hbits] at hmod
  unfold monProLoop
  generalize (List.range (L.bits + Config.guardBits)).foldl (monProStep a b n) 0 = acc at hmod hlt ⊢
  simp only [← Nat.not_lt, ite_not, ite_sub_eq_mod hlt]
  exact monPro_unique L a b hodd h3 (Nat.mod_lt _ (by omega)) (((Nat.mod_modEq _ n).mul_right _).trans hmod)

end loop

end Datapath

/-- Settles O56: each method by its own lemma. -/
theorem montgomeryDatapathRefinesTheResults : Obligations.MontgomeryDatapathRefinesTheResults := by
  unfold Obligations.MontgomeryDatapathRefinesTheResults
  intro L a b e n hn ha hb
  have ⟨_, hodd, h3⟩ := hn
  refine ⟨Datapath.monProLoop_eq hn ha hb, Datapath.monMul_eq L hodd h3 a b, Datapath.monExp_eq L hodd h3 a e, ?_⟩
  rw [Datapath.factorLoop_eq n _ 1 (by omega), one_mul]

end Sys2Proof.Machine
end

section
/-! SUPPORT. MRWIT and ISPRIME (spec/43_primality.md R180 to R182). -/

namespace Sys2Proof.Machine

variable {s : State} {L : Level} {a n : Nat}

/-! ### MRWIT -/

section sources

variable {ra rn : RegNum} (hl : s.level = some L) (ha : s.source L ra = .ok a) (hn : s.source L rn = .ok n)
include hl ha hn

/-- MRWIT by its checks (R181): the candidate is settled, the parity decides whether the base is looked at, and the
base is one of an odd candidate. -/
theorem exec_mrwit : exec (.mrwit ra rn) s =
    if n < L.settled then
      if n % 2 = 0 then .next (s.setRes 1).complete
      else if 3 ≤ n ∧ 1 ≤ a ∧ a < n then .next ((s.withContext L n).setRes (witness a n).toNat).complete
      else .next (s.raise .precond)
    else .next (s.raise .precond) := by
  simp only [exec, execMrwit, needLevel_of hl, ha, hn, ok_bind, needSettled, require_bind_require]
  by_cases hsettled : n < L.settled
  · rw [require_pos _ hsettled, if_pos hsettled, ok_bind]
    by_cases heven : n % 2 = 0
    · rw [if_pos heven, if_pos heven]
      rfl
    · rw [if_neg heven, if_neg heven, finish_require]
  · rw [require_neg _ hsettled, if_neg hsettled]
    rfl

/-- MRWIT on an odd candidate and one of its bases writes the verdict of `Wit(a, n)`. -/
theorem exec_mrwit_of_base (hsettled : n < L.settled) (hodd : n % 2 = 1) (hbase : 3 ≤ n ∧ 1 ≤ a ∧ a < n) :
    exec (.mrwit ra rn) s = .next ((s.withContext L n).setRes (witness a n).toNat).complete := by
  rw [exec_mrwit hl ha hn, if_pos hsettled, if_neg (by omega), if_pos hbase]

end sources

/-- Settles O40: the checks by their branches, and the verdict by `witness_iff` for the given split of n − 1. -/
theorem mrwitResult : Obligations.MrwitResult := by
  unfold Obligations.MrwitResult
  intro s L ra rn a n hl hva ha hvn hn
  have hsa := (source_eq_ok s L ra a).mpr ⟨hva, ha⟩
  have hsn := (source_eq_ok s L rn n).mpr ⟨hvn, hn⟩
  have hexec := exec_mrwit hl hsa hsn
  refine ⟨fun hge => ?_, fun hlt heven => ?_, fun hlt hodd hbad => ?_, fun hlt hodd h3 h1 han t u hsplit hu => ?_⟩
  · exact hexec.trans (if_neg (Nat.not_lt.mpr hge))
  · exact hexec.trans ((if_pos hlt).trans (if_pos heven))
  · exact hexec.trans ((if_pos hlt).trans ((if_neg (by omega)).trans (if_neg (by omega))))
  · have hverdict := exec_mrwit_of_base hl hsa hsn hlt hodd ⟨h3, h1, han⟩
    have hiff := witness_iff (a := a) (by omega) hu hsplit
    constructor
    · intro hwit
      rw [hverdict, hiff.mpr hwit]
      rfl
    · intro hnone
      rw [hverdict, eq_false_of_ne_true (mt hiff.mp hnone)]
      rfl

/-- Settles O41: an odd prime passes the checks, and no base is a witness of it. -/
theorem mrwitNeverAccusesAPrime : Obligations.MrwitNeverAccusesAPrime := by
  unfold Obligations.MrwitNeverAccusesAPrime
  intro s L ra rn hl hva hvn hlt hp h3 h1 han
  have hodd : (s.reg rn).val L % 2 = 1 := hp.eq_two_or_odd.resolve_left (by omega)
  rw [exec_mrwit_of_base hl (source_of L hva) (source_of L hvn) hlt hodd ⟨h3, h1, han⟩, witness_prime hp h1 han]
  rfl

/-! ### ISPRIME -/

/-- Below 2 and for even n the test answers at once, and draws nothing (R182). -/
theorem isPrime_of_no_round {rho : Nat → Option Word} (h : n < 2 ∨ n % 2 = 0) (left pos : Nat) :
    isPrime rho n left pos = .done (decide (n = 2)) pos left := by
  rw [isPrime_iff, Tested, if_pos h]
  exact ⟨rfl, rfl, rfl⟩

/-- For an odd n ≥ 3 the finished tests are those whose rounds end (R182). -/
theorem isPrime_iff_rounds {rho : Nat → Option Word} (h3 : 3 ≤ n) (hodd : n % 2 = 1) {left pos left' pos' : Nat}
    {verdict : Bool} : isPrime rho n left pos = .done verdict pos' left' ↔
      ∃ bases, DrawnInTurn rho n bases left pos left' pos' ∧ RoundsEnd 10 n bases verdict := by
  rw [isPrime_iff, Tested, if_neg (by omega)]

section source

variable {rn : RegNum} (hl : s.level = some L) (hn : s.source L rn = .ok n)
include hl hn

theorem exec_isprime_of_not_settled (h : ¬ n < L.settled) : exec (.isprime rn) s = .next (s.raise .precond) := by
  simp only [exec, execIsprime, needLevel_of hl, hn, ok_bind, needSettled, require_neg _ h, error_bind,
    finishRun_error]

/-- ISPRIME whose test is finished: the verdict, the stream position, and the context if a round was run. -/
theorem exec_isprime_of_done (hlt : n < L.settled) {verdict : Bool} {pos left : Nat}
    (hrun : isPrime s.stream n s.granted s.rngTotal = .done verdict pos left) : exec (.isprime rn) s =
      .next (((if n % 2 = 1 ∧ 3 ≤ n then s.withContext L n else s).setRes verdict.toNat).setPulls pos).complete := by
  simp only [exec, execIsprime, needLevel_of hl, hn, ok_bind, needSettled, require_pos _ hlt, State.runOf, hrun]
  rfl

/-- ISPRIME on n < 2 or an even n pulls no word and leaves the context. -/
theorem exec_isprime_of_no_round (hlt : n < L.settled) (h : n < 2 ∨ n % 2 = 0) :
    exec (.isprime rn) s = .next (s.setRes (decide (n = 2)).toNat).complete := by
  rw [exec_isprime_of_done hl hn hlt (isPrime_of_no_round h _ _), if_neg (by omega)]
  rfl

end source

/-- Settles O42: the cases without a round, and the finished tests of an odd n; a finished test of a prime accepts
it. -/
theorem isprimeResult : Obligations.IsprimeResult := by
  unfold Obligations.IsprimeResult
  intro s L rn n hl hv hn
  have hsn := (source_eq_ok s L rn n).mpr ⟨hv, hn⟩
  have hle := L.le_settled
  refine ⟨fun hge => ?_, fun h2 => ?_, fun h2 => ?_, fun hlt hgt heven => ?_,
    fun hlt h3 hodd verdict pos left => ⟨isPrime_iff_rounds h3 hodd, fun bases hdrawn hend => ?_⟩⟩
  · exact exec_isprime_of_not_settled hl hsn (Nat.not_lt.mpr hge)
  · rw [exec_isprime_of_no_round hl hsn (by omega) (.inl h2), decide_eq_false (by omega)]
    rfl
  · rw [exec_isprime_of_no_round hl hsn (by omega) (.inr (by omega)), decide_eq_true h2]
    rfl
  · rw [exec_isprime_of_no_round hl hsn hlt (.inr heven), decide_eq_false (by omega)]
    rfl
  · have hrun := (isPrime_iff_rounds h3 hodd).mpr ⟨bases, hdrawn, hend⟩
    obtain ⟨-, -, hprime, -⟩ := isPrime_done hrun
    refine ⟨?_, hprime⟩
    rw [exec_isprime_of_done hl hsn hlt hrun, if_pos ⟨hodd, h3⟩]
    cases verdict <;> rfl

end Sys2Proof.Machine
end

section
/-! SUPPORT. EGCD, MODINV, RNDCOP, GENCAND and FINDPR (spec/44_number_theory.md). -/

namespace Sys2Proof.Machine

variable {s : State} {L : Level}

/-! ### EGCD and MODINV -/

section sources

variable {ra rb : RegNum} {a b : Nat} (hl : s.level = some L) (ha : s.source L ra = .ok a) (hb : s.source L rb = .ok b)
include hl ha hb

/-- EGCD with three destinations, by its checks of the operands (R191). -/
theorem exec_egcd {rg rx ry : RegNum} (hd : [rg, rx, ry].Nodup) : exec (.egcd rg rx ry ra rb) s =
    if a < L.settled ∧ b < L.settled then
      .next (((s.writeReg L rg (xgcd a b).1).writeReg L rx (encSigned L (xgcd a b).2.1)).writeReg L ry
        (encSigned L (xgcd a b).2.2)).complete
    else .next (s.raise .precond) := by
  simp only [exec, execEgcd, distinct, require_pos _ hd, needLevel_of hl, ha, hb, ok_bind, needSettled,
    require_bind_require, finish_require]

/-- MODINV by its checks (R192): the modulus and the range of the value, then the inverse's existence. -/
theorem exec_modinv (rd : RegNum) : exec (.modinv rd ra rb) s =
    if b < L.settled ∧ 0 < a ∧ a < b then
      if Nat.gcd a b = 1 then .next (s.writeReg L rd (inverseOf a b)).complete else .next (s.raise .noinv)
    else .next (s.raise .precond) := by
  simp only [exec, execModinv, needLevel_of hl, ha, hb, ok_bind, needSettled, require_bind_require, gcdOf_eq,
    Nat.gcd_comm b a]
  split
  · next hok => rw [require_pos _ hok, ok_bind, finish_require]
  · next hbad => rw [require_neg _ hbad, error_bind, finish_error]

end sources

/-- The coefficients of XGcd of settled operands are read back from L-bit two's complement (R191). -/
theorem decSigned_encSigned_xgcd {a b : Nat} (ha : a < L.settled) (hb : b < L.settled) :
    decSigned L (encSigned L (xgcd a b).2.1) = (xgcd a b).2.1 ∧
    decSigned L (encSigned L (xgcd a b).2.2) = (xgcd a b).2.2 := by
  obtain ⟨-, -, hx, hy⟩ := xgcd_spec a b
  have h2 : 2 < L.settled := Nat.lt_of_lt_of_le (by decide) L.le_settled
  exact ⟨decSigned_encSigned L _ (Nat.lt_of_le_of_lt hx (Nat.max_lt.mpr ⟨hb, h2⟩)),
    decSigned_encSigned L _ (Nat.lt_of_le_of_lt hy (Nat.max_lt.mpr ⟨ha, h2⟩))⟩

/-- Settles O43: `xgcd_spec` gives the gcd and Bézout's identity, and the coefficients are small enough for L bits. -/
theorem egcdResult : Obligations.EgcdResult := by
  unfold Obligations.EgcdResult
  intro s L rg rx ry ra rb a b hd hl hva ha hvb hb
  have hexec := exec_egcd hl ((source_eq_ok s L ra a).mpr ⟨hva, ha⟩) ((source_eq_ok s L rb b).mpr ⟨hvb, hb⟩) hd
  refine ⟨fun hok => ?_, fun hbad => hexec.trans (if_neg hbad)⟩
  obtain ⟨hg, hbezout, -, -⟩ := xgcd_spec a b
  obtain ⟨hx, hy⟩ := decSigned_encSigned_xgcd hok.1 hok.2
  refine ⟨_, _, encSigned_lt L (xgcd a b).2.1, encSigned_lt L (xgcd a b).2.2, by rw [hx, hy], by rwa [hx, hy], ?_⟩
  rw [← hg]
  exact hexec.trans (if_pos hok)

/-- Settles O44: MODINV's checks by their branches; `inverseOf` is the inverse. -/
theorem modinvResult : Obligations.ModinvResult := by
  unfold Obligations.ModinvResult
  intro s L rd rv rm v m hl hvv hv hvm hm
  have hexec := exec_modinv hl ((source_eq_ok s L rv v).mpr ⟨hvv, hv⟩) ((source_eq_ok s L rm m).mpr ⟨hvm, hm⟩) rd
  refine ⟨fun hbad => ?_, fun hok hg => ?_, fun hok hg => ?_⟩
  · exact hexec.trans (if_neg hbad)
  · exact hexec.trans ((if_pos hok).trans (if_neg hg))
  · obtain ⟨h1, hlt, hinv⟩ := inverseOf_spec hok.2.1 hok.2.2 hg
    exact ⟨_, h1, hlt, hinv, hexec.trans ((if_pos hok).trans (if_pos hg))⟩

/-! ### Commands that draw -/

/-- The completion step after a finished run: the run's writes, and the stream position behind it. -/
theorem finishRun_runOf_done {α : Type} {f : (Nat → Option Word) → (left pos : Nat) → Run α} {g : α → State} {a : α}
    {pos left : Nat} (h : f s.stream s.granted s.rngTotal = .done a pos left) :
    finishRun s (.ok ((s.runOf f).map g)) = .next ((g a).setPulls pos).complete := by
  rw [State.runOf, h]
  rfl

section source

variable (rd : RegNum) {rl : RegNum} {limit : Nat} (hl : s.level = some L) (hn : s.source L rl = .ok limit)
include hl hn

theorem exec_rndcop_of_bad_limit (hbad : ¬ (limit < L.settled ∧ 2 ≤ limit)) :
    exec (.rndcop rd rl) s = .next (s.raise .precond) := by
  simp only [exec, execRndcop, needLevel_of hl, hn, ok_bind, needSettled, require_bind_require, require_neg _ hbad,
    error_bind, finishRun_error]

theorem exec_rndcop_of_done (hok : limit < L.settled ∧ 2 ≤ limit) {v pos left : Nat}
    (hrun : randomCoprime s.stream limit s.granted s.rngTotal = .done v pos left) :
    exec (.rndcop rd rl) s = .next ((s.writeReg L rd v).setPulls pos).complete := by
  simp only [exec, execRndcop, needLevel_of hl, hn, ok_bind, needSettled, require_bind_require, require_pos _ hok]
  exact finishRun_runOf_done hrun

end source

theorem exec_gencand_of_done {rc ri : RegNum} (hd : rc ≠ ri) (hl : s.level = some L) {c pos left : Nat}
    (hrun : candidate L s.stream s.granted s.rngTotal = .done c pos left) : exec (.gencand rc ri) s =
      .next (((s.writeReg L rc c).writeReg L ri Config.inc).setPulls pos).complete := by
  have hnodup : [rc, ri].Nodup := by simpa using hd
  simp only [exec, execGencand, distinct, require_pos _ hnodup, needLevel_of hl, ok_bind]
  exact finishRun_runOf_done hrun

theorem exec_findpr_of_done (rd : RegNum) (hl : s.level = some L) {p pos left : Nat}
    (hrun : findPrime L s.stream s.granted s.rngTotal = .done p pos left) :
    exec (.findpr rd) s = .next (((s.withContext L p).writeReg L rd p).setPulls pos).complete := by
  simp only [exec, execFindpr, needLevel_of hl, ok_bind]
  exact finishRun_runOf_done hrun

/-- Settles O45: the limit's check by its two sides, and `randomCoprime_iff` for the finished runs. -/
theorem rndcopResult : Obligations.RndcopResult := by
  unfold Obligations.RndcopResult
  intro s L rd rl limit hl hv hlimit
  have hn := (source_eq_ok s L rl limit).mpr ⟨hv, hlimit⟩
  refine ⟨exec_rndcop_of_bad_limit rd hl hn, fun hok v pos left => ⟨randomCoprime_iff, fun hfirst => ?_⟩⟩
  have hrun := randomCoprime_iff.mpr hfirst
  obtain ⟨h1, hlt, hg, -, hpos⟩ := randomCoprime_done hok.2 hrun
  exact ⟨h1, hlt, hg, hpos, exec_rndcop_of_done rd hl hn hok hrun⟩

/-- Settles O46: `candidate_iff` for the finished runs, whose result is sieved; PI by evaluating its product. -/
theorem gencandResult : Obligations.GencandResult := by
  unfold Obligations.GencandResult
  refine ⟨fun s L rc ri c pos left hd hl => ⟨candidate_iff, fun hdrawn => ?_⟩,
    rfl, rfl, rfl, rfl⟩
  have hrun := candidate_iff.mpr hdrawn
  obtain ⟨hs, -, -⟩ := candidate_done hrun
  refine ⟨hs.pos, hs.lt, hs.free, ?_⟩
  rw [exec_gencand_of_done hd hl hrun, inc_eq]
  rfl

/-- Settles O47: `findPrime_iff` for the finished runs; the result is sieved, so odd, and its last test accepted it. -/
theorem findprResult : Obligations.FindprResult := by
  unfold Obligations.FindprResult
  intro s L rd p pos left hl
  refine ⟨findPrime_iff, fun hfound => ?_⟩
  have hrun := findPrime_iff.mpr hfound
  obtain ⟨hs, h43, -, -⟩ := findPrime_done hrun
  obtain ⟨l, q, htested⟩ := hfound.accepted
  have hodd : p % 2 = 1 := Nat.mod_two_ne_zero.mp (hs.free 2 (by decide))
  obtain ⟨bases, hdrawn, hend⟩ := htested.bases hodd
  exact ⟨h43, hs.lt, pi_lt L, hs.free, ⟨bases, l, q, hdrawn, hend⟩, exec_findpr_of_done rd hl hrun⟩

end Sys2Proof.Machine
end

section
/-! SUPPORT. GENKEY, ENCODE and DECODE (spec/45_rsa.md). -/

namespace Sys2Proof.Machine

variable {s : State} {L : Level}

/-! ### GENKEY -/

/-- The two primes of a key drawn and its exponent (R210). -/
theorem KeyDrawn.primes_and_exponent {rho : Nat → Option Word} {p1 : Nat} {k : KeyPair} {left pos left' pos' : Nat}
    (h : KeyDrawn L rho p1 k left pos left' pos') :
    Sieved L p1 ∧ Sieved L k.p2 ∧ 43 ≤ p1 ∧ 43 ≤ k.p2 ∧ Config.infimum L < k.n ∧
      1 ≤ k.e ∧ k.e < (p1 - 1) * (k.p2 - 1) := by
  obtain ⟨l, q, hpair, hn, hcoprime, -⟩ := h
  obtain ⟨hs1, hs2, h1, h2, hinf, -, -⟩ :=
    pairLoop_done ((pairLoop_iff (r := (p1, k.p2)) (Nat.lt_succ_self left)).mpr hpair)
  have hphi : 42 * 42 ≤ (p1 - 1) * (k.p2 - 1) :=
    Nat.mul_le_mul (Nat.le_sub_one_of_lt h1) (Nat.le_sub_one_of_lt h2)
  obtain ⟨he, helt, -⟩ := randomCoprime_done (by omega) (randomCoprime_iff.mpr hcoprime)
  exact ⟨hs1, hs2, h1, h2, hn ▸ hinf, he, helt⟩

theorem Sieved.odd {c : Nat} (h : Sieved L c) : c % 2 = 1 := Nat.mod_two_ne_zero.mp (h.free 2 (by decide))

/-- Both primes have half the bits of the level, so the modulus is settled. -/
theorem Sieved.mul_lt {a b : Nat} (ha : Sieved L a) (hb : Sieved L b) : a * b < 2 ^ L.bits := by
  have hbits : L.bits = L.bits / 2 + L.bits / 2 := by cases L <;> rfl
  rw [hbits, Nat.pow_add]
  exact Nat.mul_lt_mul'' (ha.lt.trans (pi_lt L)) (hb.lt.trans (pi_lt L))

/-- A prime found has passed the test, which drew bases for it because it is odd. -/
theorem PrimeFound.bases {rho : Nat → Option Word} {p left pos left' pos' : Nat}
    (h : PrimeFound L rho p left pos left' pos') :
    ∃ bases l q l' q', DrawnInTurn rho p bases l q l' q' ∧ RoundsEnd 10 p bases true := by
  obtain ⟨hs, -⟩ := findPrime_done (findPrime_iff.mpr h)
  obtain ⟨l, q, htested⟩ := h.accepted
  obtain ⟨bases, hdrawn, hend⟩ := htested.bases hs.odd
  exact ⟨bases, l, q, _, _, hdrawn, hend⟩

theorem exec_genkey_of_done {rn re rd : RegNum} (hd : [rn, re, rd].Nodup) (hl : s.level = some L) {k : KeyPair}
    {pos left : Nat} (hrun : genKey L s.stream s.granted s.rngTotal = .done k pos left) :
    exec (.genkey rn re rd) s = .next (((((s.withContext L k.p2).writeReg L rn k.n).writeReg L re k.e).writeReg L rd
      k.d).setPulls pos).complete := by
  simp only [exec, execGenkey, distinct, require_pos _ hd, needLevel_of hl, ok_bind]
  exact finishRun_runOf_done hrun

/-- Settles O48: `genKey_iff` for the finished runs, whose primes are sieved, so odd and of half the level's bits. -/
theorem genkeyResult : Obligations.GenkeyResult := by
  unfold Obligations.GenkeyResult
  intro s L rn re rd k pos left hd hl
  refine ⟨genKey_iff, fun p1 hdrawn => ?_⟩
  obtain ⟨hs1, hs2, h1, h2, hinf, he, helt⟩ := hdrawn.primes_and_exponent
  have hrun := exec_genkey_of_done hd hl (genKey_iff.mpr ⟨p1, hdrawn⟩)
  obtain ⟨_, _, hpair, hn, -, hkd, hdlt, hinv⟩ := hdrawn
  obtain ⟨_, _, _, _, hfound1, hfound2⟩ := hpair.found
  refine ⟨⟨hn, hs1.odd, hs2.odd, h1, h2, hinf, hn ▸ hs1.mul_lt hs2, he, helt, hkd, hdlt, hinv⟩, ?_, hrun⟩
  simp only [List.mem_cons, List.not_mem_nil, or_false, forall_eq_or_imp, forall_eq]
  exact ⟨hfound1.bases, hfound2.bases⟩

end Sys2Proof.Machine
end

section
/-! SUPPORT. The ciphertext envelope, ENCODE and DECODE (spec/45_rsa.md R212 to R215). -/

namespace Sys2Proof.Machine

variable {s : State} {L : Level}

/-! ### The envelope -/

theorem envelope_div {v : Nat} (h : v < L.settled) (bw : Nat) : envelope L bw v / L.settled = bw := by
  rw [envelope, Nat.add_mul_div_right _ _ L.settled_pos, Nat.div_eq_of_lt h, zero_add]

theorem envelope_mod {v : Nat} (h : v < L.settled) (bw : Nat) : envelope L bw v % L.settled = v := by
  rw [envelope, Nat.add_mul_mod_self_right, Nat.mod_eq_of_lt h]

/-- Any buffer word and any value part fit the level's words. -/
theorem envelope_lt {bw v : Nat} (hv : v < L.settled) (hbw : bw < 2 ^ 64) : envelope L bw v < L.modulus := by
  rw [Level.modulus, ← Nat.div_lt_iff_lt_mul L.settled_pos, envelope_div hv]
  exact hbw

/-! ### The checks -/

/-- A completion step whose outcome begins with a check. -/
theorem finish_require_bind (s : State) (p : Prop) [Decidable p] (e : Err) (f : Unit → Except Err State) :
    finish s (require p e >>= f) = if p then finish s (f ()) else .next (s.raise e) := by
  split
  · next hp => rw [require_pos e hp, ok_bind]
  · next hp => rw [require_neg e hp, error_bind, finish_error]

section sources

variable (rd : RegNum) {ra rb rn : RegNum} {a b n : Nat} (hl : s.level = some L) (ha : s.source L ra = .ok a)
  (hb : s.source L rb = .ok b) (hn : s.source L rn = .ok n)
include hl ha hb hn

/-- ENCODE by its checks (R213): the operands, the quotient, then the pad of an escape. -/
theorem exec_encode : exec (.encode rd ra rb rn) s =
    if ModOK L n ∧ a < L.settled ∧ b < L.settled then
      if a / n < Config.escMarker then
        if a % n ≤ 1 then
          if s.xpadValid = true then
            .next (s.writeReg L rd (envelope L Config.escMarker (a ^^^ s.xpad.toNat))).complete
          else .next (s.raise .uninit)
        else .next ((s.withContext L n).writeReg L rd (envelope L (a / n) (powMod (a % n) b n))).complete
      else .next (s.raise .capacity)
    else .next (s.raise .precond) := by
  simp only [exec, execEncode, needLevel_of hl, ha, hb, hn, ok_bind, needModulus, needSettled, require_bind_require,
    finish_require_bind, apply_ite (finish s), pure_eq_ok, finish_ok]

/-- DECODE by its checks (R214): the operands, the pad of an escape, else the value part and the sum. -/
theorem exec_decode : exec (.decode rd ra rb rn) s =
    if ModOK L n ∧ b < L.settled then
      if a / L.settled = Config.escMarker then
        if s.xpadValid = true then .next (s.writeReg L rd (a % L.settled ^^^ s.xpad.toNat)).complete
        else .next (s.raise .uninit)
      else if a % L.settled < n then
        if a / L.settled * n + powMod (a % L.settled) b n < L.settled then
          .next ((s.withContext L n).writeReg L rd (a / L.settled * n + powMod (a % L.settled) b n)).complete
        else .next (s.raise .capacity)
      else .next (s.raise .precond)
    else .next (s.raise .precond) := by
  simp only [exec, execDecode, needLevel_of hl, ha, hb, hn, ok_bind, needModulus, needSettled, require_bind_require,
    finish_require_bind, apply_ite (finish s), pure_eq_ok, finish_ok]

end sources

/-- Settles O49: ENCODE's checks by their branches, and `powMod` as the power. -/
theorem encodeResult : Obligations.EncodeResult := by
  unfold Obligations.EncodeResult
  intro s L rd rdata rexp rn data exp n hl hvdata hdata hvexp hexp hvn hn
  have hexec := exec_encode rd hl ((source_eq_ok s L rdata data).mpr ⟨hvdata, hdata⟩)
    ((source_eq_ok s L rexp exp).mpr ⟨hvexp, hexp⟩) ((source_eq_ok s L rn n).mpr ⟨hvn, hn⟩)
  refine ⟨fun hbad => hexec.trans (if_neg hbad), fun hok => ?_⟩
  rw [hexec.trans (if_pos hok)]
  refine ⟨fun hbig => if_neg (Nat.not_lt.mpr hbig), fun hq hr hpad => ?_, fun hq hr hpad => ?_, fun hq hr => ?_⟩
  · exact (if_pos hq).trans ((if_pos hr).trans (if_neg (Bool.eq_false_iff.mp hpad)))
  · exact (if_pos hq).trans ((if_pos hr).trans (if_pos hpad))
  · rw [← powMod_eq _ _ _ (by omega)]
    exact (if_pos hq).trans (if_neg (Nat.not_le.mpr hr))

/-- Settles O50: DECODE's checks by their branches, and `powMod` as the power. -/
theorem decodeResult : Obligations.DecodeResult := by
  unfold Obligations.DecodeResult
  intro s L rd rc rexp rn c exp n hl hvc hc hvexp hexp hvn hn
  have hexec := exec_decode rd hl ((source_eq_ok s L rc c).mpr ⟨hvc, hc⟩)
    ((source_eq_ok s L rexp exp).mpr ⟨hvexp, hexp⟩) ((source_eq_ok s L rn n).mpr ⟨hvn, hn⟩)
  refine ⟨fun hbad => hexec.trans (if_neg hbad), fun hok => ?_⟩
  have hpow := powMod_eq (c % L.settled) exp n (by omega)
  rw [hexec.trans (if_pos hok), hpow]
  refine ⟨fun hesc hpad => ?_, fun hesc hpad => ?_, fun hesc hv => ?_, fun hesc hv hout => ?_, fun hesc hv hout => ?_⟩
  · exact (if_pos hesc).trans (if_neg (Bool.eq_false_iff.mp hpad))
  · exact (if_pos hesc).trans (if_pos hpad)
  · exact (if_neg hesc).trans (if_neg (Nat.not_lt.mpr hv))
  · exact (if_neg hesc).trans ((if_pos hv).trans (if_neg (Nat.not_lt.mpr hout)))
  · exact (if_neg hesc).trans ((if_pos hv).trans (if_pos hout))

/-! ### Exponents of a key pair -/

/-- Fermat's little theorem, for the multiples of p too. -/
theorem pow_one_add_mul_modEq {p : Nat} (hp : p.Prime) (r m : Nat) : r ^ (1 + (p - 1) * m) ≡ r [MOD p] := by
  by_cases hdvd : p ∣ r
  · have hzero : r ≡ 0 [MOD p] := (Nat.modEq_zero_iff_dvd).mpr hdvd
    exact ((Nat.modEq_zero_iff_dvd).mpr (hdvd.trans (dvd_pow_self r (by omega)))).trans hzero.symm
  · have hone : r ^ (p - 1) ≡ 1 [MOD p] :=
      Nat.totient_prime hp ▸ Nat.ModEq.pow_totient ((hp.coprime_iff_not_dvd.mpr hdvd).symm)
    simpa [pow_add, pow_mul] using (Nat.ModEq.refl r).mul (hone.pow m)

/-- The exponents of a valid key pair undo each other on every residue of p·q (R215). -/
theorem pow_mod_pow_mod_of_key {p q e d r : Nat} (hp : p.Prime) (hq : q.Prime) (hne : p ≠ q)
    (hkey : e * d % ((p - 1) * (q - 1)) = 1) (hr : r < p * q) : (r ^ e % (p * q)) ^ d % (p * q) = r := by
  have hed : e * d = 1 + (p - 1) * (q - 1) * (e * d / ((p - 1) * (q - 1))) :=
    (Nat.mod_add_div _ _).symm.trans (congrArg (· + _) hkey)
  have hmodp : r ^ (e * d) ≡ r [MOD p] := by
    rw [hed, mul_assoc]
    exact pow_one_add_mul_modEq hp r _
  have hmodq : r ^ (e * d) ≡ r [MOD q] := by
    rw [hed, mul_comm (p - 1), mul_assoc]
    exact pow_one_add_mul_modEq hq r _
  have hmod := (Nat.modEq_and_modEq_iff_modEq_mul ((Nat.coprime_primes hp hq).mpr hne)).mp ⟨hmodp, hmodq⟩
  rw [← Nat.pow_mod, ← pow_mul]
  exact Nat.mod_eq_of_modEq hmod hr

theorem modOK_mul_of_odd_primes {p q : Nat} (hp : p.Prime) (hq : q.Prime) (hpodd : p % 2 = 1) (hqodd : q % 2 = 1)
    (hlt : p * q < L.settled) : ModOK L (p * q) := by
  have hp2 := hp.two_le
  have hq2 := hq.two_le
  have h9 : 3 * 3 ≤ p * q := Nat.mul_le_mul (by omega) (by omega)
  exact ⟨hlt, by rw [Nat.mul_mod, hpodd, hqodd], by omega⟩

/-! ### The round trip -/

@[simp] theorem State.withContext_err (s : State) (L : Level) (n : Nat) : (s.withContext L n).err = s.err := by
  rcases s.withContext_cases L n with h | ⟨f, h⟩ <;> rw [h]

theorem source_of_reg_eq_ofNat {r : RegNum} {v : Nat} (h : s.reg r = BigReg.ofNat L v) (hv : v < L.modulus) :
    s.source L r = .ok v := by
  rw [source_eq_ok, h, BigReg.val_ofNat, Nat.mod_eq_of_lt hv]
  exact ⟨BigReg.ofNat_valid L v, rfl⟩

/-- What ENCODE writes with a valid pad (R212). -/
def ciphertext (L : Level) (pad e n data : Nat) : Nat :=
  if data % n ≤ 1 then envelope L Config.escMarker (data ^^^ pad)
  else envelope L (data / n) ((data % n) ^ e % n)

/-- The quotient fits because its bound says so, or because n exceeds INF (R210). -/
theorem div_lt_escMarker {data n : Nat} (hdata : data < 2 ^ L.bits)
    (hfits : data / n ≤ 2 ^ 64 - 2 ∨ (2 ^ L.bits - 1) / (2 ^ 64 - 1) < n) : data / n < Config.escMarker := by
  rcases hfits with hq | hinf
  · exact Nat.lt_of_le_of_lt hq (by decide)
  · have hn : 0 < n := Nat.zero_lt_of_lt hinf
    rw [Nat.div_lt_iff_lt_mul (by decide)] at hinf
    rw [Config.escMarker, Nat.div_lt_iff_lt_mul hn, mul_comm]
    exact Nat.lt_of_le_of_lt (Nat.le_sub_one_of_lt hdata) hinf

section roundTrip

variable (rd : RegNum) {ra rb rn : RegNum} {data e d n : Nat} (hl : s.level = some L)
  (hn : s.source L rn = .ok n) (hmod : ModOK L n) (hdata : data < L.settled) (hq : data / n < Config.escMarker)
  (hvalid : s.xpadValid = true)

include hmod hdata hq in
theorem ciphertext_lt {pad : Nat} (hpad : pad < L.settled) (e : Nat) : ciphertext L pad e n data < L.modulus := by
  obtain ⟨hlt, -, h3⟩ := hmod
  unfold ciphertext
  split
  · exact envelope_lt (Nat.xor_lt_two_pow hdata hpad) (by decide)
  · exact envelope_lt ((Nat.mod_lt _ (by omega)).trans hlt) (hq.trans (by decide))

include hl hn hmod hdata hq hvalid

theorem exec_encode_writes_ciphertext (ha : s.source L ra = .ok data) (hb : s.source L rb = .ok e)
    (he : e < L.settled) : ∃ t, exec (.encode rd ra rb rn) s = .next t ∧ t.err = s.err ∧
      t.reg rd = BigReg.ofNat L (ciphertext L s.xpad.toNat e n data) := by
  have hpow := powMod_eq (data % n) e n (by omega)
  rw [exec_encode rd hl ha hb hn, if_pos ⟨hmod, hdata, he⟩, if_pos hq, ciphertext, hpow]
  by_cases hr : data % n ≤ 1
  · rw [if_pos hr, if_pos hr, if_pos hvalid]
    exact ⟨_, rfl, by simp, by simp⟩
  · rw [if_neg hr, if_neg hr]
    exact ⟨_, rfl, by simp, by simp⟩

/-- DECODE of a ciphertext of `data` is `data`, if the exponents undo each other. -/
theorem exec_decode_ciphertext (ha : s.source L ra = .ok (ciphertext L s.xpad.toNat e n data))
    (hb : s.source L rb = .ok d) (hd : d < L.settled) (hpad : s.xpad.toNat < L.settled)
    (hinv : ∀ r < n, (r ^ e % n) ^ d % n = r) : ∃ t, exec (.decode rd ra rb rn) s = .next t ∧ t.err = s.err ∧
      t.reg rd = BigReg.ofNat L data := by
  have hpos : 0 < n := by omega
  rw [exec_decode rd hl ha hb hn, if_pos ⟨hmod, hd⟩, ciphertext]
  by_cases hr : data % n ≤ 1
  · have hxor : data ^^^ s.xpad.toNat < L.settled := Nat.xor_lt_two_pow hdata hpad
    rw [if_pos hr, envelope_div hxor, envelope_mod hxor, if_pos rfl, if_pos hvalid, Nat.xor_xor_cancel_right]
    exact ⟨_, rfl, by simp, by simp⟩
  · have hv : (data % n) ^ e % n < n := Nat.mod_lt _ hpos
    have hvs := hv.trans hmod.1
    rw [if_neg hr, envelope_div hvs, envelope_mod hvs, if_neg hq.ne, if_pos hv, powMod_eq _ _ _ hpos,
      hinv _ (Nat.mod_lt _ hpos), Nat.div_add_mod', if_pos hdata]
    exact ⟨_, rfl, by simp, by simp⟩

end roundTrip

/-- Settles O51: ENCODE writes the ciphertext, and DECODE undoes it because the exponents undo each other. -/
theorem encodeThenDecodeIsTheData : Obligations.EncodeThenDecodeIsTheData := by
  unfold Obligations.EncodeThenDecodeIsTheData
  rintro s L rc rdata re rn p q e d n data hp hq hne hpodd hqodd rfl hnlt he hd hkey hdata hfits hl hvalid hpad herr
    hvdata hvaldata hvre hvalre hvrn hvalrn
  have hmod := modOK_mul_of_odd_primes hp hq hpodd hqodd hnlt
  have hquot := div_lt_escMarker hdata hfits
  obtain ⟨t, hexec, hterr, htreg⟩ := exec_encode_writes_ciphertext rc hl
    ((source_eq_ok s L rn _).mpr ⟨hvrn, hvalrn⟩) hmod hdata hquot hvalid
    ((source_eq_ok s L rdata data).mpr ⟨hvdata, hvaldata⟩) ((source_eq_ok s L re e).mpr ⟨hvre, hvalre⟩) he
  refine ⟨t, hexec, hterr.trans herr, by rw [htreg, BigReg.ofNat_valid], ?_⟩
  intro s2 rd rc2 rd2 rn2 hl2 hvalid2 hpad2 herr2 hreg2 hvrd2 hvalrd2 hvrn2 hvalrn2
  rw [← hpad2] at htreg hpad
  have hc := source_of_reg_eq_ofNat (hreg2.trans htreg) (ciphertext_lt hmod hdata hquot hpad e)
  obtain ⟨t2, hexec2, ht2err, ht2reg⟩ := exec_decode_ciphertext rd hl2
    ((source_eq_ok s2 L rn2 _).mpr ⟨hvrn2, hvalrn2⟩) hmod hdata hquot hvalid2 hc
    ((source_eq_ok s2 L rd2 d).mpr ⟨hvrd2, hvalrd2⟩) hd hpad (fun _ => pow_mod_pow_mod_of_key hp hq hne hkey)
  have hdataV : data < L.modulus := hdata.trans_le (Nat.le_mul_of_pos_left _ (by decide))
  exact ⟨t2, hexec2, ht2err.trans herr2, (source_eq_ok t2 L rd data).mp (source_of_reg_eq_ofNat ht2reg hdataV)⟩

end Sys2Proof.Machine
end

section
/-! SUPPORT. Ending with an error (spec/60_exceptions.md R232) and cancellation (R239). E_ABORT comes from a cancellation
point with a request pending, never from a check. -/

namespace Sys2Proof.Machine

variable {s t u v : State} {i : Instr} {L : Level}

/-! ### No write touches ERRCODE -/

theorem Write.err_eq (h : Write i u v) : v.err = u.err := by cases h <;> rfl

theorem Writes.err_eq (h : Writes i s u) : u.err = s.err := by
  induction h with
  | refl => rfl
  | tail _ h ih => exact h.err_eq.trans ih

@[simp] theorem State.factor_err (s : State) (L : Level) (n : Nat) : (s.factor L n).2.err = s.err :=
  s.withContext_err L n

/-! ### No check ends with E_ABORT -/

/-- The checks end with another error than E_ABORT, or let through a result with the property. -/
def NoAbort {α : Type} (P : α → Prop) : Except Err α → Prop
  | .ok a => P a
  | .error e => e ≠ .abort

@[simp] theorem noAbort_ok {α : Type} {P : α → Prop} {a : α} : NoAbort P (.ok a) ↔ P a := .rfl

@[simp] theorem noAbort_error {α : Type} {P : α → Prop} {e : Err} : NoAbort P (.error e) ↔ e ≠ .abort := .rfl

@[simp] theorem noAbort_bind {α β : Type} {P : β → Prop} {c : Except Err α} {f : α → Except Err β} :
    NoAbort P (c >>= f) ↔ NoAbort (fun a => NoAbort P (f a)) c := by
  cases c <;> rfl

@[simp] theorem noAbort_require {P : Unit → Prop} {p : Prop} [Decidable p] {e : Err} :
    NoAbort P (require p e) ↔ (p → P ()) ∧ (¬ p → e ≠ .abort) := by
  unfold require
  split <;> simp [*]

@[simp] theorem noAbort_needLevel {P : Level → Prop} : NoAbort P s.needLevel ↔ ∀ L, s.level = some L → P L := by
  unfold State.needLevel
  split <;> simp [*]

@[simp] theorem noAbort_source {P : Nat → Prop} {r : RegNum} :
    NoAbort P (s.source L r) ↔ ((s.reg r).valid = true → P ((s.reg r).val L)) := by
  unfold State.source
  split <;> simp [*]

/-- A finished run leaves ERRCODE as it is in `s`. -/
def RunKeepsErr (s : State) (x : Run State) : Prop := ∀ u pos left, x = .done u pos left → u.err = s.err

@[simp] theorem runKeepsErr_map {α : Type} {x : Run α} {g : α → State} :
    RunKeepsErr s (x.map g) ↔ ∀ a pos left, x = .done a pos left → (g a).err = s.err := by
  simp only [RunKeepsErr, map_eq_done]
  exact ⟨fun h a pos left ha => h _ pos left ⟨a, ha, rfl⟩, fun h _ pos left ⟨a, ha, hg⟩ => hg ▸ h a pos left ha⟩

/-- A command that draws nothing does not end with E_ABORT. -/
theorem finish_err_ne_abort {o : Except Err State} (hs : s.err = none) (ho : NoAbort (·.err = s.err) o)
    (h : finish s o = .next t) : t.err ≠ some .abort := by
  obtain ⟨u, rfl, rfl⟩ | ⟨e, rfl, rfl⟩ := finish_next h
  · have hu : u.err = s.err := ho
    simp [hu, hs]
  · simpa using ho

/-- A command that draws ends with E_ABORT only at a cancellation point, with a request pending. -/
theorem abort_requested_of_finishRun {o : Except Err (Run State)} (hs : s.err = none) (ho : NoAbort (RunKeepsErr s) o)
    (h : finishRun s o = .next t) (ht : t.err = some .abort) : (s.abort || s.abort0) = true := by
  obtain ⟨e, rfl, rfl⟩ | ⟨u, pos, left, rfl, rfl⟩ | ⟨pos, -, ha, rfl⟩ | ⟨pos, -, -, rfl⟩ := finishRun_next h
  · exact absurd (Option.some.inj ht) ho
  · have hu : u.err = s.err := ho u pos left rfl
    simp [hu, hs] at ht
  · exact ha
  · simp [hs] at ht

/-- Only a command that draws ends with E_ABORT, and only if an abort is requested: in every command the checks end
with other errors and the writes leave ERRCODE. -/
theorem abort_requested_of_exec (hs : s.err = none) (h : exec i s = .next t) (ht : t.err = some .abort) :
    Pulls i = true ∧ (s.abort || s.abort0) = true := by
  cases i with
  | isprime _ | rndcop _ _ =>
    exact ⟨rfl, abort_requested_of_finishRun hs (by simp [needSettled, apply_ite State.err]) h ht⟩
  | gencand _ _ | findpr _ | genkey _ _ _ =>
    exact ⟨rfl, abort_requested_of_finishRun hs (by simp [distinct]) h ht⟩
  | setlvl imm16 =>
    refine absurd ht (finish_err_ne_abort hs ?_ h)
    cases levelOfBits imm16.toNat <;> simp
  | ldi _ | norm _ | importTop _ | rstbuf _ _ | setpad _ =>
    exact absurd ht (finish_err_ne_abort hs (by simp [needSettled]) h)
  | add _ _ _ | neg _ _ | sub _ _ _ | mul _ _ _ | shl1 _ _ | shr1 _ _ | shl _ _ _ | shr _ _ _ | div _ _ _ _ | cmp _ _
  | isodd _ | abs _ _ | isneg _ =>
    exact absurd ht (finish_err_ne_abort hs (by simp [State.writeExact, distinct]) h)
  | monfac _ _ | monpro _ _ _ _ | monmul _ _ _ _ | monexp _ _ _ _ =>
    exact absurd ht (finish_err_ne_abort hs (by simp [needModulus, needReduced, needSettled]) h)
  | egcd _ _ _ _ _ | modinv _ _ _ =>
    exact absurd ht (finish_err_ne_abort hs (by simp [distinct, needSettled]) h)
  | mrwit _ _ | encode _ _ _ _ | decode _ _ _ _ =>
    exact absurd ht (finish_err_ne_abort hs (by simp [needModulus, needSettled, apply_ite (NoAbort _)]) h)

/-- Settles O53: E_ABORT needs a request. -/
theorem noAbortWithoutARequest : Obligations.NoAbortWithoutARequest := by
  unfold Obligations.NoAbortWithoutARequest
  intro i s t hs habort habort0 h ht
  obtain ⟨-, hreq⟩ := abort_requested_of_exec hs h ht
  simp [habort, habort0] at hreq

/-- Settles O18: of the four ways a command ends, a completion and a run not finished leave ERRCODE clear; a failed
check makes the writes of `raise`, and so does an abort, which also moves RNGCNT. -/
theorem errorMakesNoOtherWrite : Obligations.ErrorMakesNoOtherWrite := by
  unfold Obligations.ErrorMakesNoOtherWrite
  intro i s t e hs h ht
  have hpulls : e = .abort → Pulls i = true := fun he => (abort_requested_of_exec hs h (he ▸ ht)).1
  cases exec_answers h with
  | completed hw => simp [hw.err_eq, hs] at ht
  | failed e' =>
    obtain rfl : e' = e := Option.some.inj ht
    exact ⟨fun _ => rfl, fun he => ⟨hpulls he, he ▸ rfl⟩⟩
  | aborted hp _ =>
    obtain rfl : .abort = e := Option.some.inj ht
    exact ⟨fun hne => absurd rfl hne, fun _ => ⟨hp, rfl⟩⟩
  | waiting _ _ => simp [hs] at ht

/-! ### The first cancellation point of each run -/

section firstPoint

variable {rho : Nat → Option Word} {pos : Nat}

/-- With no pass granted, the rounds of an odd n stand before the first base drawn (spec/43_primality.md R182). -/
theorem isPrime_zero {n : Nat} (h3 : 3 ≤ n) (hodd : n % 2 = 1) : isPrime rho n 0 pos = .atPoint pos := by
  rw [isPrime, if_neg (by omega), if_neg (by omega), if_neg (by omega)]
  rfl

theorem randomCoprime_zero {limit : Nat} : randomCoprime rho limit 0 pos = .atPoint pos := rfl

theorem candidate_zero : candidate L rho 0 pos = .atPoint pos := rfl

theorem findPrime_zero : findPrime L rho 0 pos = .atPoint pos := by
  rw [findPrime, candidate_zero]
  rfl

theorem genKey_zero : genKey L rho 0 pos = .atPoint pos := by
  rw [genKey, pairLoop, findPrime_zero]
  rfl

end firstPoint

/-- The completion step of a run that has a first cancellation point, with the request present at the accept: no pass is
granted, and RNGCNT stays where it is. -/
theorem finishRun_runOf_abort {α : Type} {f : (Nat → Option Word) → (left pos : Nat) → Run α} {g : α → State}
    (h0 : s.abort0 = true) (hf : f s.stream 0 s.rngTotal = .atPoint s.rngTotal) :
    finishRun s (.ok ((s.runOf f).map g)) = .next (s.raise .abort) := by
  have hgranted : s.granted = 0 := if_pos h0
  have hrequest : (s.abort || s.abort0) = true := by rw [h0, Bool.or_true]
  rw [State.runOf, hgranted, hf]
  exact if_pos hrequest

/-- Settles O52: each command's checks pass, and its run stands at the first point. -/
theorem abortAtTheAcceptEndsAtTheFirstPoint : Obligations.AbortAtTheAcceptEndsAtTheFirstPoint := by
  unfold Obligations.AbortAtTheAcceptEndsAtTheFirstPoint
  intro s L r1 r2 r3 h0 _ hl
  refine ⟨fun hv (hlt : _ < L.settled) hodd h3 => ?_, fun hv (hlt : _ < L.settled) h2 => ?_, fun hne => ?_, ?_,
    fun hd => ?_⟩
  · simp only [exec, execIsprime, needLevel_of hl, source_of L hv, needSettled, require_pos _ hlt, ok_bind]
    exact finishRun_runOf_abort h0 (isPrime_zero h3 hodd)
  · simp only [exec, execRndcop, needLevel_of hl, source_of L hv, needSettled, require_pos _ hlt, require_pos _ h2,
      ok_bind]
    exact finishRun_runOf_abort h0 randomCoprime_zero
  · have hd : [r1, r2].Nodup := by simpa using hne
    simp only [exec, execGencand, distinct, require_pos _ hd, needLevel_of hl, ok_bind]
    exact finishRun_runOf_abort h0 candidate_zero
  · simp only [exec, execFindpr, needLevel_of hl, ok_bind]
    exact finishRun_runOf_abort h0 findPrime_zero
  · simp only [exec, execGenkey, distinct, require_pos _ hd, needLevel_of hl, ok_bind]
    exact finishRun_runOf_abort h0 genKey_zero

end Sys2Proof.Machine
end
